-- ==== Sys2Proof/Word.lean ====
section
/-!
DEFINITION. The word types of the machine and nothing else.

A value is a bit vector only where the spec treats it as bits (`history`, a tick count that wraps, a
binary32 pattern, a fault code, a command or response word).  Instants and thresholds are unsigned
integers that are compared and subtracted without wrapping (00_scope.md R14, 43_velocity_map.md R185),
so they are natural numbers below `2 ^ TW` (log 3).
-/

namespace Sys2Proof

/-- A raw level or a normalised sample, one bit (00_scope.md R22, R23). -/
abbrev Level := Bool

/-- An `i32`: a tick count, a scaled delta, the accumulator (00_scope.md R15). -/
abbrev Tick := BitVec 32

/-- A scale factor: a binary32 bit pattern (00_scope.md R15, 30_encoding.md R98). -/
abbrev ScaleBits := BitVec 32

/-- The content of a unit's `fault` register, or the fault field of a response (10_state.md R51). -/
abbrev FaultBits := BitVec 4

/-- A command word: `64 + TW` bits (30_encoding.md R93). -/
abbrev CmdWord (tw : Nat) := BitVec (64 + tw)

/-- A response word: 40 bits (30_encoding.md R100). -/
abbrev RspWord := BitVec 40

end Sys2Proof
end

