-- ==== Sys2Proof/Config.lean ====
section
/-!
DEFINITION. The configuration record `Cfg` of 00_scope.md R17, and the one free value of the model.

`Cfg` is fixed for a machine.  The model carries it in `State` and writes it nowhere (log 1), so that a
statement about every state speaks of every configuration.
-/

namespace Sys2Proof

/-- Which `ScaleApply` a machine has (00_scope.md R16).  `ScaleApply` is a parameter of the spec with a
default (92_eei_decisions.md D26); the name stands for the function, so that `Cfg` is plain data. -/
inductive ScaleRule where
  /-- The spec's default, 43_velocity_map.md R188 and R189. -/
  | standard
  /-- Any other instantiation: it satisfies P1 and P2 of 43_velocity_map.md R187 and is otherwise free.
  The number tells one such instantiation from another (log 8). -/
  | implementation (k : Nat)
  deriving DecidableEq, Repr

/-- The configuration record of 00_scope.md R17. -/
structure Cfg where
  /-- `DF_N`, the filter size of `DF`; 2 to 8 is legal, any number is representable (R11). -/
  dfN : Nat
  /-- `DF_AL`, the polarity of `DF`; true is active-low (R12). -/
  dfAL : Bool
  /-- `BTN_N` (R11). -/
  btnN : Nat
  /-- `BTN_AL` (R12). -/
  btnAL : Bool
  /-- `QD_N`, one size for both filters of `QD` (R11). -/
  qdN : Nat
  /-- `QD_AL`, one polarity for both filters of `QD` (R12). -/
  qdAL : Bool
  /-- `MAP_SIZE`, the capacity of the map; at least 1 (R13). -/
  mapSize : Nat
  /-- `TW`, the width of an instant in bits; at least 1, 64 by default (R14). -/
  tw : Nat
  /-- `ScaleApply` (R16). -/
  scale : ScaleRule
  deriving DecidableEq, Repr

/-- The constraints the spec puts on `Cfg` itself: `MAP_SIZE >= 1` (00_scope.md R13) and `TW >= 1`
(92_eei_decisions.md D3).  An illegal filter size is representable and makes `INIT` fault (R11). -/
abbrev Cfg.wf (c : Cfg) : Prop := 1 ≤ c.mapSize ∧ 1 ≤ c.tw

/-- The default of `TW` (00_scope.md R14), the width spec/opcode_table.json is written for. -/
abbrev Config.defaultTW : Nat := 64

/-- DESIGN CHOICE (log 2): the configuration of `State.reset`.  The spec gives no value for the filter
sizes, the polarities and `MAP_SIZE` (92_eei_decisions.md, open parameters); unsafe for a claim that
rests on one of these numbers. -/
def Config.resetCfg : Cfg where
  dfN := 4
  dfAL := false
  btnN := 4
  btnAL := false
  qdN := 2
  qdAL := false
  mapSize := 4
  tw := Config.defaultTW
  scale := .standard

/-- FREE VALUE (log 8): what the `k`-th instantiation of `ScaleApply` other than the default answers
where 43_velocity_map.md R187 does not fix the answer.  It has no body: nothing can be proved of it. -/
opaque Config.freeScale : Nat → Tick → ScaleBits → Tick

end Sys2Proof
end

