-- ==== Sys2Proof/Machine/Response.lean ====
section
/-!
DEFINITION. Results, faults and the response word (00_scope.md R20, 30_encoding.md R100 and R101,
60_exceptions.md R200).
-/

namespace Sys2Proof.Machine

/-- `Edge` of 00_scope.md R20: a change of a filter's stable level. -/
inductive Edge where
  | roseStable
  | fellStable
  deriving DecidableEq, Repr

/-- `Event` of 00_scope.md R20: the Button/Switch's names for the edges. -/
inductive Event where
  | pressed
  | released
  deriving DecidableEq, Repr

/-- The direction a decoder poll emits, `-1` or `+1` (00_scope.md R23, 30_encoding.md R91). -/
inductive Direction where
  | minusOne
  | plusOne
  deriving DecidableEq, Repr

/-- The closed set of fault codes (60_exceptions.md R200). -/
inductive FaultCode where
  /-- 1: a filter size outside 2 to 8 (R201). -/
  | configFilterSize
  /-- 2: `VM.ADD` on a full table (R202). -/
  | configMapCapacity
  /-- 3: a pin read failed (R203). -/
  | pinError
  /-- 4: an operation other than `INIT` on a unit out of service (R205). -/
  | unitFaulted
  /-- 5: a command word that matches no row of the opcode table (R207). -/
  | illegalCommand
  /-- 6: `VM.ADD` with a threshold already in the table (R206). -/
  | configDuplicateThreshold
  deriving DecidableEq, Repr

/-- The number of a fault code (60_exceptions.md R200). -/
def faultBits : FaultCode → FaultBits
  | .configFilterSize => 1#4
  | .configMapCapacity => 2#4
  | .pinError => 3#4
  | .unitFaulted => 4#4
  | .illegalCommand => 5#4
  | .configDuplicateThreshold => 6#4

/-- Whether a fault code is kept in the unit's `fault` register (60_exceptions.md R200, column sticky). -/
def isSticky : FaultCode → Bool
  | .configFilterSize => true
  | .configMapCapacity => true
  | .pinError => false
  | .unitFaulted => false
  | .illegalCommand => false
  | .configDuplicateThreshold => true

/-- The results of 30_encoding.md R91, one constructor per result type. -/
inductive Value where
  /-- Unit: an `INIT`, `QD.RSTT`, `VM.ADD`. -/
  | unit
  /-- `DF.POLL`. -/
  | edge (e : Option Edge)
  /-- `BTN.POLL`. -/
  | event (e : Option Event)
  /-- `BTN.ISP`, `BTN.ISR`. -/
  | bit (v : Bool)
  /-- `QD.POLL`. -/
  | direction (d : Option Direction)
  /-- `QD.TICKS`. -/
  | ticks (t : Tick)
  /-- `VM.MAP`. -/
  | mapped (t : Option Tick)
  deriving DecidableEq, Repr

/-- How an operation ends: `Ok(r)` or `Fault(code)` (00_scope.md R20, 60_exceptions.md R200). -/
inductive Response where
  | ok (v : Value)
  | fault (c : FaultCode)
  deriving DecidableEq, Repr

/-- A direction as an `i32` (30_encoding.md R101). -/
def directionTick : Direction → Tick
  | .minusOne => 0xFFFFFFFF#32
  | .plusOne => 0x00000001#32

/-- `Event` for `Edge` (41_button_switch.md R140, R142). -/
def eventOfEdge : Edge → Event
  | .roseStable => .pressed
  | .fellStable => .released

/-- `some` and `val` of a result (30_encoding.md R101). -/
def valueFields : Value → Bool × BitVec 32
  | .unit => (false, 0#32)
  | .edge none => (false, 0#32)
  | .edge (some .roseStable) => (true, 1#32)
  | .edge (some .fellStable) => (true, 0#32)
  | .event none => (false, 0#32)
  | .event (some .pressed) => (true, 1#32)
  | .event (some .released) => (true, 0#32)
  | .bit v => (true, (BitVec.ofBool v).setWidth 32)
  | .direction none => (false, 0#32)
  | .direction (some d) => (true, directionTick d)
  | .ticks t => (true, t)
  | .mapped none => (false, 0#32)
  | .mapped (some t) => (true, t)

/-- The `fault` field of a response: 0 for `Ok`, else the code (30_encoding.md R100). -/
def responseFault : Response → FaultBits
  | .ok _ => 0#4
  | .fault c => faultBits c

/-- The response word: `fault [39:36]`, `[35:33]` 0, `some [32]`, `val [31:0]` (30_encoding.md R100). -/
def responseWord : Response → RspWord
  | .ok v => 0#4 ++ 0#3 ++ BitVec.ofBool (valueFields v).1 ++ (valueFields v).2
  | .fault c => faultBits c ++ 0#36

end Sys2Proof.Machine
end

