-- ==== Sys2Proof/Machine/Flags.lean ====
section
/-!
DEFINITION. The one-bit registers that play the part of flags (10_state.md R52): how `F.stable` is set and
cleared.  `VM.last_valid`, the other one, is set with `VM.last_instant` (Machine/Velocity.lean).  The
machine has no condition codes.
-/

namespace Sys2Proof.Machine

/-- `MASK(N) = (1 << N) - 1` as an 8-bit value (10_state.md R35). -/
def mask (n : Nat) : BitVec 8 := BitVec.ofNat 8 (2 ^ n - 1)

/-- Compare, on the history as just written (40_debounce_filter.md R124): the stable level after the poll
and the edge. -/
def compareHistory (n : Nat) (history : BitVec 8) (stable : Bool) : Bool × Option Edge :=
  if history = mask n ∧ stable = false then (true, some .roseStable)
  else if history = 0x00#8 ∧ stable = true then (false, some .fellStable)
  else (stable, none)

end Sys2Proof.Machine
end

