-- ==== Sys2Proof/Machine/Operands.lean ====
section
/-!
DEFINITION. The operand forms of the machine (30_encoding.md R96 to R99): a raw level with its polarity, a
failed pin read, an optional tick.  There are no other forms: no immediate is shifted, scaled, split or
extended (R99).
-/

namespace Sys2Proof.Machine

/-- The normalised sample, `raw XOR AL` (40_debounce_filter.md R121): the one place where polarity is
applied (90_conflicts.md C2). -/
def normalise (al raw : Bool) : Level := raw ^^ al

/-- A poll whose read of one of its pins failed (30_encoding.md R96). -/
def readFailed (ea eb : Bool) : Bool := ea || eb

/-- `ticks` of `VM.MAP`: `None` if `a = 0`, and then `w` is ignored; else `Some(w)` (30_encoding.md R97). -/
def tickOperand (a : Bool) (w : Tick) : Option Tick := if a then some w else none

end Sys2Proof.Machine
end

