-- ==== Sys2Proof/Machine/Filter.lean ====
section
/-!
DEFINITION. The filter record `F` (10_state.md R37 to R41) and the filter step every poll takes
(40_debounce_filter.md R120 to R126).
-/

namespace Sys2Proof.Machine

/-- One filter record; the machine has four (10_state.md R31). -/
structure Filter where
  /-- `F.history`, slot `j` is bit `j` (R37, 20_memory.md R74). -/
  history : BitVec 8
  /-- `F.index`, the next write position (R38). -/
  index : BitVec 3
  /-- `F.stable`, the debounced level (R40). -/
  stable : Bool
  deriving DecidableEq, Repr

/-- `FilterInit` (40_debounce_filter.md R126). -/
def freshFilter : Filter := { history := 0x00#8, index := 0#3, stable := false }

/-- Write: the bit at `index` becomes the sample, no other bit changes (40_debounce_filter.md R122). -/
def writeSlot (history : BitVec 8) (index : BitVec 3) (s : Level) : BitVec 8 :=
  (history &&& ~~~(1#8 <<< index.toNat)) ||| ((BitVec.ofBool s).setWidth 8 <<< index.toNat)

/-- Advance: `(index + 1) mod N` (40_debounce_filter.md R123). -/
def advanceIndex (n : Nat) (index : BitVec 3) : BitVec 3 := BitVec.ofNat 3 ((index.toNat + 1) % n)

/-- `FilterStep(F, N, AL, raw)` (40_debounce_filter.md R125): the record after the step and the edge. -/
def filterStep (n : Nat) (al : Bool) (f : Filter) (raw : Level) : Filter × Option Edge :=
  let history := writeSlot f.history f.index (normalise al raw)
  let c := compareHistory n history f.stable
  ({ history := history, index := advanceIndex n f.index, stable := c.1 }, c.2)

/-- A filter size inside 2 to 8 (00_scope.md R11, 60_exceptions.md R201). -/
def sizeLegal (n : Nat) : Bool := decide (2 ≤ n ∧ n ≤ 8)

/-- What construction with size `n` leaves in the unit's `fault` register: 0, or 1 when the size is
illegal (60_exceptions.md R201, 70_reset_and_hazards.md R232). -/
def constructionFault (n : Nat) : FaultBits :=
  if sizeLegal n then 0#4 else faultBits .configFilterSize

end Sys2Proof.Machine
end

