-- ==== Sys2Proof/Machine/Table.lean ====
section
/-!
DEFINITION. The map table (10_state.md R47 to R49, 20_memory.md R72) and the two things done to it: the
sorted insertion of `VM.ADD` and the lookup of `VM.MAP`.
-/

namespace Sys2Proof.Machine

/-- One entry `(thr, scale)` (10_state.md R47). -/
structure Entry where
  thr : Nat
  scale : ScaleBits
  deriving DecidableEq, Repr

/-- Some entry has this threshold (43_velocity_map.md R176, R179). -/
def hasThreshold (tbl : List Entry) (thr : Nat) : Bool := tbl.any fun e => e.thr == thr

/-- The position of a new entry: the number of entries with a smaller threshold (43_velocity_map.md R176). -/
def insertPosition (tbl : List Entry) (thr : Nat) : Nat := (tbl.filter fun e => decide (e.thr < thr)).length

/-- The entries from the position on move up by one slot and the new entry takes the slot
(43_velocity_map.md R176, R180). -/
def insertEntry (tbl : List Entry) (e : Entry) : List Entry :=
  tbl.take (insertPosition tbl e.thr) ++ e :: tbl.drop (insertPosition tbl e.thr)

/-- The first entry whose threshold strictly exceeds the elapsed time (43_velocity_map.md R186). -/
def lookupEntry (tbl : List Entry) (elapsed : Nat) : Option Entry :=
  tbl.find? fun e => decide (elapsed < e.thr)

end Sys2Proof.Machine
end

