-- ==== Sys2Proof/Machine/State.lean ====
section
/-!
DEFINITION. The state of the machine: the table of 10_state.md R31, register by register, and four fields
of the model's own (the configuration, the last response, what the result ports hold, and what the caller
has still to present).  Plain data throughout.
-/

namespace Sys2Proof.Machine

/-- Unit `DF` (10_state.md R42). -/
structure DF where
  f : Filter
  fault : FaultBits
  deriving DecidableEq, Repr

/-- Unit `BTN` (10_state.md R43). -/
structure BTN where
  f : Filter
  fault : FaultBits
  deriving DecidableEq, Repr

/-- Unit `QD` (10_state.md R44 to R46). -/
structure QD where
  /-- Channel A's filter. -/
  fa : Filter
  /-- Channel B's filter. -/
  fb : Filter
  /-- `QD.ticks`, two's complement (R45). -/
  ticks : Tick
  fault : FaultBits
  deriving DecidableEq, Repr

/-- Unit `VM` (10_state.md R47 to R51).  `VM.len` is the length of `tbl` (log 7). -/
structure VM where
  /-- `VM.tbl[0 .. VM.len - 1]` (R47). -/
  tbl : List Entry
  /-- `VM.last_valid` (R50). -/
  lastValid : Bool
  /-- `VM.last_instant` (R50). -/
  lastInstant : Nat
  fault : FaultBits
  deriving DecidableEq, Repr

/-- `VM.len`, the number of entries held (10_state.md R48). -/
def VM.len (v : VM) : Nat := v.tbl.length

/-- One thing that reaches the machine from outside (00_scope.md R24, 30_encoding.md R107). -/
inductive Input where
  /-- `rst = 1` at a clock edge, or power-up (70_reset_and_hazards.md R230). -/
  | reset
  /-- A clock edge with `rst = 0` and no strobe: no operation is issued (30_encoding.md R107). -/
  | idle
  /-- The caller presents one command word, as a number (30_encoding.md R93). -/
  | command (w : Nat)
  deriving DecidableEq, Repr

/-- What the result ports of each unit hold (30_encoding.md R107): the response of the unit's last strobed
operation, if there has been one since reset (log 6). -/
structure ResultPorts where
  df : Option Response
  btn : Option Response
  qd : Option Response
  vm : Option Response
  deriving DecidableEq, Repr

/-- The machine (10_state.md R31) with the model's own fields `cfg`, `rsp`, `ports`, `inp`. -/
structure State where
  /-- `Cfg`, constant (00_scope.md R17; log 1). -/
  cfg : Cfg
  df : DF
  btn : BTN
  qd : QD
  vm : VM
  /-- The response of the last operation, if there has been one since reset (00_scope.md R20; log 5). -/
  rsp : Option Response
  /-- The result ports (30_encoding.md R107; log 6). -/
  ports : ResultPorts
  /-- What the caller has still to present, next input first (10_state.md R32; log 4). -/
  inp : List Input
  deriving DecidableEq, Repr

/-- The reasons a step stops with a fault: NONE.  Every operation of the machine completes
(70_reset_and_hazards.md R252), and a fault code is a response, never a stop (60_exceptions.md R211), so
the type has no constructor (log 12).  Safe: nothing the hardware does is cut off. -/
inductive Fault where
  deriving DecidableEq, Repr

/-- The reasons a step is refused. -/
inductive Refusal where
  /-- An instruction without a meaning; raised by an arm of `exec` only, and by none of them now.  Safe. -/
  | notModelled (mnemonic : String)
  /-- Raised by `step` on an `Input.command` whose number needs more than the `64 + TW` wires of the
  command word (30_encoding.md R93, R105): no caller can present it.  Safe (log 11). -/
  | notACommandWord
  deriving DecidableEq, Repr

/-- The machine right after reset under a given configuration (10_state.md R31, 70_reset_and_hazards.md
R230, R232): every unit constructed, nothing answered, nothing presented. -/
def State.resetOf (cfg : Cfg) : State where
  cfg := cfg
  df := { f := freshFilter, fault := constructionFault cfg.dfN }
  btn := { f := freshFilter, fault := constructionFault cfg.btnN }
  qd := { fa := freshFilter, fb := freshFilter, ticks := 0#32, fault := constructionFault cfg.qdN }
  vm := { tbl := [], lastValid := false, lastInstant := 0, fault := 0#4 }
  rsp := none
  ports := { df := none, btn := none, qd := none, vm := none }
  inp := []

/-- The machine right after reset, under the configuration the model names (log 2). -/
def State.reset : State := State.resetOf Config.resetCfg

end Sys2Proof.Machine
end

