-- ==== Sys2Proof/Machine/Ops.lean ====
section
/-!
DEFINITION. The operations every meaning is built from: answering, taking a fault, being constructed, being
in service (60_exceptions.md R200 to R214).  The machine has no addressed memory (20_memory.md R70) and no
register file (10_state.md R30), so there is nothing else to share.
-/

namespace Sys2Proof.Machine

/-- What a meaning answers. -/
abbrev StepOutcome := Host.Outcome State Fault Refusal

/-- The four units (00_scope.md R8). -/
inductive UnitId where
  | df
  | btn
  | qd
  | vm
  deriving DecidableEq, Repr

/-- The unit's `fault` register (10_state.md R51). -/
def unitFault (u : UnitId) (s : State) : FaultBits :=
  match u with
  | .df => s.df.fault
  | .btn => s.btn.fault
  | .qd => s.qd.fault
  | .vm => s.vm.fault

/-- Write the unit's `fault` register (10_state.md R51). -/
def setFault (u : UnitId) (v : FaultBits) (s : State) : State :=
  match u with
  | .df => { s with df := { s.df with fault := v } }
  | .btn => { s with btn := { s.btn with fault := v } }
  | .qd => { s with qd := { s.qd with fault := v } }
  | .vm => { s with vm := { s.vm with fault := v } }

/-- The result ports of one unit take a response, the others hold (30_encoding.md R107). -/
def latchPorts (u : UnitId) (r : Response) (p : ResultPorts) : ResultPorts :=
  match u with
  | .df => { p with df := some r }
  | .btn => { p with btn := some r }
  | .qd => { p with qd := some r }
  | .vm => { p with vm := some r }

/-- Answer an operation (00_scope.md R9).  `port` is the unit whose strobe carries the operation in the port
realisation; a query and an illegal word have none and move no result port (30_encoding.md R107; log 6). -/
def respond (port : Option UnitId) (r : Response) (s : State) : State :=
  match port with
  | some u => { s with rsp := some r, ports := latchPorts u r s.ports }
  | none => { s with rsp := some r }

/-- TAKING A FAULT, the one place where it is done (60_exceptions.md R211, R212): a sticky code goes to the
unit's `fault` register, and the operation answers `Fault(code)` in place of its result.  Nothing else
changes: no control transfer, no saved register, no mode.  The way out is the unit's `INIT` (R214,
`construct`) or reset. -/
def raise (port : Option UnitId) (c : FaultCode) (s : State) : State :=
  respond port (.fault c)
    (match port with
     | some u => if isSticky c then setFault u (faultBits c) s else s
     | none => s)

/-- The end of an `INIT` of a unit with a filter, once its registers are at their initial values: a legal
size clears the `fault` register and answers `ok`, an illegal one raises `ConfigFilterSize`
(40_debounce_filter.md R127, 41_button_switch.md R141, 42_quadrature_decoder.md R151). -/
def construct (u : UnitId) (n : Nat) (s : State) : State :=
  if sizeLegal n then respond (some u) (.ok .unit) (setFault u 0#4 s)
  else raise (some u) .configFilterSize s

/-- An operation other than `INIT`: on a unit whose `fault` register is not 0 it changes nothing and answers
`UnitFaulted` (60_exceptions.md R205), else it does what `k` says. -/
def inService (u : UnitId) (port : Option UnitId) (s : State) (k : State) : State :=
  if unitFault u s = 0#4 then k else raise port .unitFaulted s

/-- An illegal command word: no state changes, the answer is `Fault(IllegalCommand)`
(30_encoding.md R102, R103; 60_exceptions.md R207). -/
def illegalCommand (s : State) : State := raise none .illegalCommand s

/-- Reset while the machine runs: every register to its reset value (70_reset_and_hazards.md R230), the
configuration and the caller's stream as they are (00_scope.md R17; log 4). -/
def applyReset (s : State) : State := { State.resetOf s.cfg with inp := s.inp }

end Sys2Proof.Machine
end

