-- ==== Sys2Proof/Machine/Button.lean ====
section
/-!
DEFINITION. The Button/Switch unit: `BTN.INIT`, `BTN.POLL`, `BTN.ISP`, `BTN.ISR` (41_button_switch.md).
-/

namespace Sys2Proof.Machine

/-- `BTN.INIT` (41_button_switch.md R141); accepted in every state. -/
def execBtnInit (s : State) : StepOutcome :=
  .next (construct .btn s.cfg.btnN { s with btn := { s.btn with f := freshFilter } })

/-- `BTN.POLL a` (41_button_switch.md R142); a failed read changes no register (R144). -/
def execBtnPoll (a ea : Bool) (s : State) : StepOutcome :=
  .next (inService .btn (some .btn) s
    (if readFailed ea false then raise (some .btn) .pinError s
     else
       let r := filterStep s.cfg.btnN s.cfg.btnAL s.btn.f a
       respond (some .btn) (.ok (.event (r.2.map eventOfEdge))) { s with btn := { s.btn with f := r.1 } }))

/-- `BTN.ISP` (41_button_switch.md R145): the stable level, whatever the polarity (90_conflicts.md C3). -/
def execBtnIsp (s : State) : StepOutcome :=
  .next (inService .btn none s (respond none (.ok (.bit s.btn.f.stable)) s))

/-- `BTN.ISR` (41_button_switch.md R146). -/
def execBtnIsr (s : State) : StepOutcome :=
  .next (inService .btn none s (respond none (.ok (.bit (!s.btn.f.stable))) s))

end Sys2Proof.Machine
end

