-- ==== Sys2Proof/Machine/Debounce.lean ====
section
/-!
DEFINITION. The Debounce Filter unit: `DF.INIT`, `DF.POLL` (40_debounce_filter.md sections 2 and 3).
-/

namespace Sys2Proof.Machine

/-- `DF.INIT` (40_debounce_filter.md R127); accepted in every state. -/
def execDfInit (s : State) : StepOutcome :=
  .next (construct .df s.cfg.dfN { s with df := { s.df with f := freshFilter } })

/-- `DF.POLL a` (40_debounce_filter.md R128). -/
def execDfPoll (a : Level) (s : State) : StepOutcome :=
  .next (inService .df (some .df) s
    (let r := filterStep s.cfg.dfN s.cfg.dfAL s.df.f a
     respond (some .df) (.ok (.edge r.2)) { s with df := { s.df with f := r.1 } }))

end Sys2Proof.Machine
end

