-- ==== Sys2Proof/Machine/Quadrature.lean ====
section
/-!
DEFINITION. The Rotary Decoder unit: `QD.INIT`, `QD.POLL`, `QD.TICKS`, `QD.RSTT` (42_quadrature_decoder.md).
-/

namespace Sys2Proof.Machine

/-- The direction of a poll, from the two stable states before (`pa`, `pb`) and after (`sa`, `sb`) the feed:
the guard of 42_quadrature_decoder.md R154, then the tests of R155 in the document's order. -/
def pollDirection (pa pb sa sb : Bool) : Option Direction :=
  if (sa ^^ sb) && ((sa ^^ pa) ^^ (sb ^^ pb)) then
    if !pa && sa then some .minusOne
    else if !pb && sb then some .plusOne
    else none
  else none

/-- The accumulator after a poll: addition modulo `2^32` of the direction, if one was emitted
(42_quadrature_decoder.md R158). -/
def accumulate (ticks : Tick) : Option Direction → Tick
  | none => ticks
  | some d => ticks + directionTick d

/-- `QD.INIT` (42_quadrature_decoder.md R151); accepted in every state. -/
def execQdInit (s : State) : StepOutcome :=
  .next (construct .qd s.cfg.qdN { s with qd := { s.qd with fa := freshFilter, fb := freshFilter, ticks := 0#32 } })

/-- `QD.POLL a, b` (42_quadrature_decoder.md R152 to R158); a failed read of either pin changes no register
(R159). -/
def execQdPoll (a b ea eb : Bool) (s : State) : StepOutcome :=
  .next (inService .qd (some .qd) s
    (if readFailed ea eb then raise (some .qd) .pinError s
     else
       let ra := filterStep s.cfg.qdN s.cfg.qdAL s.qd.fa a
       let rb := filterStep s.cfg.qdN s.cfg.qdAL s.qd.fb b
       let dir := pollDirection s.qd.fa.stable s.qd.fb.stable ra.1.stable rb.1.stable
       respond (some .qd) (.ok (.direction dir))
         { s with qd := { s.qd with fa := ra.1, fb := rb.1, ticks := accumulate s.qd.ticks dir } }))

/-- `QD.TICKS` (42_quadrature_decoder.md R160): the accumulator is read, not cleared. -/
def execQdTicks (s : State) : StepOutcome :=
  .next (inService .qd none s (respond none (.ok (.ticks s.qd.ticks)) s))

/-- `QD.RSTT` (42_quadrature_decoder.md R161): only the accumulator is cleared. -/
def execQdRstt (s : State) : StepOutcome :=
  .next (inService .qd (some .qd) s
    (respond (some .qd) (.ok .unit) { s with qd := { s.qd with ticks := 0#32 } }))

end Sys2Proof.Machine
end

