-- ==== Sys2Proof/Machine/Scale.lean ====
section
/-!
DEFINITION. `ScaleApply` (43_velocity_map.md R187 to R190): binary32 values, their rounding, the default, and
what every other instantiation must satisfy.

The value of a finite binary32 pattern is an integer number of UNITS of `2^-149`, the smallest subnormal, so
every step is exact integer arithmetic followed by one explicit rounding.
-/

namespace Sys2Proof.Machine

/-- A binary32 value (93_implementation_defined.md G1). -/
inductive F32 where
  /-- Not a number; the payload and the sign are nowhere used. -/
  | nan
  /-- An infinity. -/
  | inf (neg : Bool)
  /-- A finite value: its sign, and its magnitude in units of `2^-149`. -/
  | fin (neg : Bool) (units : Nat)
  deriving DecidableEq, Repr

/-- How many units make 1. -/
def unitsPerOne : Nat := 2 ^ 149

/-- `2^128` in units: every finite binary32 magnitude is below it. -/
def f32Limit : Nat := 2 ^ 128 * unitsPerOne

/-- The value of a pattern: bit 31 sign, bits 30 to 23 exponent, bits 22 to 0 fraction (30_encoding.md R98). -/
def f32OfBits (s : ScaleBits) : F32 :=
  let neg := s.getLsbD 31
  let e := (s.extractLsb' 23 8).toNat
  let m := (s.extractLsb' 0 23).toNat
  if e = 255 then (if m = 0 then .inf neg else .nan)
  else if e = 0 then .fin neg m
  else .fin neg ((2 ^ 23 + m) * 2 ^ (e - 1))

/-- The number of bits of `n`. -/
def bitLength (n : Nat) : Nat := if n = 0 then 0 else Nat.log2 n + 1

/-- `n / d` to the nearest integer, ties to even. -/
def roundHalfEven (n d : Nat) : Nat :=
  if 2 * (n % d) < d then n / d
  else if d < 2 * (n % d) then n / d + 1
  else if n / d % 2 = 0 then n / d else n / d + 1

/-- The binary32 value nearest to `n / d` units, ties to even (43_velocity_map.md R188): 24 significant bits,
no finer than one unit (subnormals), an infinity from `2^128` on. -/
def roundF32 (neg : Bool) (n d : Nat) : F32 :=
  let q := bitLength (n / d) - 24
  let u := roundHalfEven n (d * 2 ^ q) * 2 ^ q
  if f32Limit ≤ u then .inf neg else .fin neg u

/-- Step 1: the binary32 value nearest to the tick count (43_velocity_map.md R188). -/
def f32OfTick (t : Tick) : F32 := roundF32 t.msb (unitsPerOne * t.toInt.natAbs) 1

/-- Step 2: one binary32 multiplication, round to nearest, ties to even, with the standard special cases
(43_velocity_map.md R188). -/
def f32Mul : F32 → F32 → F32
  | .nan, _ => .nan
  | .inf _, .nan => .nan
  | .inf p, .inf q => .inf (p ^^ q)
  | .inf p, .fin q v => if v = 0 then .nan else .inf (p ^^ q)
  | .fin _ _, .nan => .nan
  | .fin p u, .inf q => if u = 0 then .nan else .inf (p ^^ q)
  | .fin p u, .fin q v => roundF32 (p ^^ q) (u * v) unitsPerOne

/-- A magnitude with its sign. -/
def signed (neg : Bool) (m : Nat) : Int := if neg then -(m : Int) else (m : Int)

/-- Step 3: not-a-number gives 0, the ends of the range saturate, otherwise the fraction is dropped
(43_velocity_map.md R189). -/
def f32ToTick : F32 → Tick
  | .nan => 0#32
  | .inf neg => if neg then BitVec.intMin 32 else BitVec.intMax 32
  | .fin neg u => BitVec.ofInt 32 (max (-2 ^ 31) (min (2 ^ 31 - 1) (signed neg (u / unitsPerOne))))

/-- The default `ScaleApply` (43_velocity_map.md R188, R189). -/
def standardScale (t : Tick) (s : ScaleBits) : Tick := f32ToTick (f32Mul (f32OfTick t) (f32OfBits s))

/-- A magnitude in units is exactly a finite binary32 value: at most 24 significant bits, below `2^128`. -/
def representable (u : Nat) : Bool :=
  decide (u < f32Limit) && decide (u % 2 ^ (bitLength u - 24) = 0)

/-- What P2 of 43_velocity_map.md R187 fixes: for a finite scale and `|t| <= 2^24`, if the product is exactly
representable and its truncation is in the `i32` range, the result is that truncation. -/
def fixedByP2 (t : Tick) (s : ScaleBits) : Option Tick :=
  match f32OfBits s with
  | .fin neg u =>
    let p := t.toInt.natAbs * u
    let v := signed (t.msb ^^ neg) (p / unitsPerOne)
    if t.toInt.natAbs ≤ 2 ^ 24 ∧ representable p = true ∧ -2 ^ 31 ≤ v ∧ v ≤ 2 ^ 31 - 1 then
      some (BitVec.ofInt 32 v)
    else none
  | .inf _ => none
  | .nan => none

/-- `ScaleApply` (00_scope.md R16): the default, or another instantiation, which answers what P2 fixes and a
free value elsewhere (43_velocity_map.md R187, R190; log 8). -/
def scaleApply (r : ScaleRule) (t : Tick) (s : ScaleBits) : Tick :=
  match r with
  | .standard => standardScale t s
  | .implementation k => (fixedByP2 t s).getD (Config.freeScale k t s)

/-- The pattern of a binary32 value, a quiet not-a-number for `nan` (30_encoding.md R98, R109). -/
def f32ToBits : F32 → ScaleBits
  | .nan => 0x7FC00000#32
  | .inf neg => BitVec.ofBool neg ++ 0xFF#8 ++ 0#23
  | .fin neg u =>
    if u < 2 ^ 23 then BitVec.ofBool neg ++ 0#8 ++ BitVec.ofNat 23 u
    else BitVec.ofBool neg ++ BitVec.ofNat 8 (bitLength u - 23)
      ++ BitVec.ofNat 23 (u / 2 ^ (bitLength u - 24) - 2 ^ 23)

end Sys2Proof.Machine
end

