-- ==== Sys2Proof/Machine/Velocity.lean ====
section
/-!
DEFINITION. The Velocity Map unit: `VM.INIT`, `VM.ADD`, `VM.MAP` (43_velocity_map.md).
-/

namespace Sys2Proof.Machine

/-- The scaled tick count for an elapsed time: the first entry that serves it is applied with `ScaleApply`,
and without one the count is unscaled (43_velocity_map.md R186). -/
def scaledTick (r : ScaleRule) (tbl : List Entry) (elapsed : Nat) (t : Tick) : Tick :=
  match lookupEntry tbl elapsed with
  | some e => scaleApply r t e.scale
  | none => t

/-- `last_valid <- 1; last_instant <- now` (43_velocity_map.md R191). -/
def recordInstant (now : Nat) (s : State) : State :=
  { s with vm := { s.vm with lastValid := true, lastInstant := now } }

/-- A present tick `t` at the instant `now`: the result and the state, in the order of 43_velocity_map.md R181:
empty table (R183), first tick (R184), non-monotonic instant (R185), lookup (R186). -/
def mapTick (now : Nat) (t : Tick) (s : State) : Option Tick × State :=
  if s.vm.len = 0 then (some t, recordInstant now s)
  else if s.vm.lastValid = false then (some t, recordInstant now s)
  else if now < s.vm.lastInstant then (none, s)
  else (some (scaledTick s.cfg.scale s.vm.tbl (now - s.vm.lastInstant) t), recordInstant now s)

/-- `VM.INIT` (43_velocity_map.md R171): never faults, accepted in every state. -/
def execVmInit (s : State) : StepOutcome :=
  .next (respond (some .vm) (.ok .unit)
    { s with vm := { tbl := [], lastValid := false, lastInstant := 0, fault := 0#4 } })

/-- `VM.ADD d, w` (43_velocity_map.md R176): unit fault, then capacity (R178), then duplicate (R179), in that
order (R177). -/
def execVmAdd (d : Nat) (w : ScaleBits) (s : State) : StepOutcome :=
  .next (inService .vm (some .vm) s
    (if s.vm.len = s.cfg.mapSize then raise (some .vm) .configMapCapacity s
     else if hasThreshold s.vm.tbl d then raise (some .vm) .configDuplicateThreshold s
     else respond (some .vm) (.ok .unit)
       { s with vm := { s.vm with tbl := insertEntry s.vm.tbl { thr := d, scale := w } } }))

/-- `VM.MAP d, ticks` (43_velocity_map.md R181); without a tick nothing changes (R182). -/
def execVmMap (d : Nat) (a : Bool) (w : Tick) (s : State) : StepOutcome :=
  .next (inService .vm (some .vm) s
    (match tickOperand a w with
     | none => respond (some .vm) (.ok (.mapped none)) s
     | some t => respond (some .vm) (.ok (.mapped (mapTick d t s).1)) (mapTick d t s).2))

end Sys2Proof.Machine
end

