-- ==== Sys2Proof/Syntax.lean ====
section
/-!
DEFINITION. The abstract syntax of 30_encoding.md R91: the 13 operations, one constructor each.
The operands carry the names of 00_scope.md R22: `a`, `b` raw levels, `ea`, `eb` read-error flags,
`w` 32 bits, `d` an unsigned `TW`-bit integer.
-/

namespace Sys2Proof

/-- The 13 operations (00_scope.md R10, 30_encoding.md R91). -/
inductive Instr where
  /-- `DF.INIT` (40_debounce_filter.md R127). -/
  | dfInit
  /-- `DF.POLL a`: one raw sample (40_debounce_filter.md R128). -/
  | dfPoll (a : Level)
  /-- `BTN.INIT` (41_button_switch.md R141). -/
  | btnInit
  /-- `BTN.POLL a`: the level read, or `ea` for a failed read (41_button_switch.md R142). -/
  | btnPoll (a ea : Bool)
  /-- `BTN.ISP`, the query `is_pressed` (41_button_switch.md R145). -/
  | btnIsp
  /-- `BTN.ISR`, the query `is_released` (41_button_switch.md R146). -/
  | btnIsr
  /-- `QD.INIT` (42_quadrature_decoder.md R151). -/
  | qdInit
  /-- `QD.POLL a, b`: the two levels read, or `ea`, `eb` for failed reads (42_quadrature_decoder.md R152). -/
  | qdPoll (a b ea eb : Bool)
  /-- `QD.TICKS` (42_quadrature_decoder.md R160). -/
  | qdTicks
  /-- `QD.RSTT` (42_quadrature_decoder.md R161). -/
  | qdRstt
  /-- `VM.INIT` (43_velocity_map.md R171). -/
  | vmInit
  /-- `VM.ADD d, w`: threshold `d`, scale pattern `w` (43_velocity_map.md R176). -/
  | vmAdd (d : Nat) (w : ScaleBits)
  /-- `VM.MAP d, ticks`: instant `d`, tick-present flag `a`, tick count `w` (43_velocity_map.md R181). -/
  | vmMap (d : Nat) (a : Bool) (w : Tick)
  deriving DecidableEq, Repr

end Sys2Proof
end

