-- ==== Sys2Proof/Machine/Dispatch.lean ====
section
/-!
DEFINITION. One arm per operation, each one direct call of its meaning.
-/

namespace Sys2Proof.Machine

def exec (i : Instr) (s : State) : Host.Outcome State Fault Refusal :=
  match i with
  | .dfInit => Sys2Proof.Machine.execDfInit s
  | .dfPoll a => Sys2Proof.Machine.execDfPoll a s
  | .btnInit => Sys2Proof.Machine.execBtnInit s
  | .btnPoll a ea => Sys2Proof.Machine.execBtnPoll a ea s
  | .btnIsp => Sys2Proof.Machine.execBtnIsp s
  | .btnIsr => Sys2Proof.Machine.execBtnIsr s
  | .qdInit => Sys2Proof.Machine.execQdInit s
  | .qdPoll a b ea eb => Sys2Proof.Machine.execQdPoll a b ea eb s
  | .qdTicks => Sys2Proof.Machine.execQdTicks s
  | .qdRstt => Sys2Proof.Machine.execQdRstt s
  | .vmInit => Sys2Proof.Machine.execVmInit s
  | .vmAdd d w => Sys2Proof.Machine.execVmAdd d w s
  | .vmMap d a w => Sys2Proof.Machine.execVmMap d a w s

end Sys2Proof.Machine
end

