-- ==== Sys2Proof/WellFormed.lean ====
section
/-!
DEFINITION. Which terms of `Instr` a command word can carry.  Every operand but `d` is a bit or a 32-bit
word by its type; `d` is an unsigned `TW`-bit integer (30_encoding.md R91, R97, R98).
-/

namespace Sys2Proof

/-- `d` fits the `TW` bits of its field, for the two operations that have one. -/
def Instr.wellFormed (tw : Nat) : Instr → Bool
  | .dfInit => true
  | .dfPoll _ => true
  | .btnInit => true
  | .btnPoll _ _ => true
  | .btnIsp => true
  | .btnIsr => true
  | .qdInit => true
  | .qdPoll _ _ _ _ => true
  | .qdTicks => true
  | .qdRstt => true
  | .vmInit => true
  | .vmAdd d _ => decide (d < 2 ^ tw)
  | .vmMap d _ _ => decide (d < 2 ^ tw)

end Sys2Proof
end

