-- ==== Sys2Proof/Decode.lean ====
section
/-!
DEFINITION. The command word of 30_encoding.md sections 2, 3 and 6: its fields, the decoder (total on
every word, rejecting by name), and the encoder.  Written for every `TW`; spec/opcode_table.json is the
case `TW = 64`.
-/

namespace Sys2Proof

/-- The 13 opcodes that are not reserved (30_encoding.md R92). -/
inductive Opcode where
  | dfInit | dfPoll | btnInit | btnPoll | btnIsp | btnIsr
  | qdInit | qdPoll | qdTicks | qdRstt | vmInit | vmAdd | vmMap
  deriving DecidableEq, Repr

/-- Why a command word is illegal (30_encoding.md R102, R103).  The machine answers each the same way. -/
inductive DecodeError where
  /-- `op` is none of the 13 values of R92 (R102). -/
  | reservedOpcode
  /-- The opcode is legal and a bit of `z` is not 0 (R103). -/
  | reservedBitSet
  /-- The opcode is legal, `z` is 0, and a field the operation does not use is not 0 (R95, R103). -/
  | unusedFieldSet
  deriving DecidableEq, Repr

/-- The opcode's 8 bits (30_encoding.md R92). -/
def opcodeBits : Opcode → BitVec 8
  | .dfInit => 0x10#8
  | .dfPoll => 0x11#8
  | .btnInit => 0x20#8
  | .btnPoll => 0x21#8
  | .btnIsp => 0x22#8
  | .btnIsr => 0x23#8
  | .qdInit => 0x30#8
  | .qdPoll => 0x31#8
  | .qdTicks => 0x32#8
  | .qdRstt => 0x33#8
  | .vmInit => 0x40#8
  | .vmAdd => 0x41#8
  | .vmMap => 0x42#8

/-- The rows of the opcode table, in its order. -/
def allOpcodes : List Opcode :=
  [.dfInit, .dfPoll, .btnInit, .btnPoll, .btnIsp, .btnIsr, .qdInit, .qdPoll, .qdTicks, .qdRstt,
   .vmInit, .vmAdd, .vmMap]

/-- The opcode that 8 bits name; the other 243 values are reserved (30_encoding.md R92, R102). -/
def opcodeOf (op : BitVec 8) : Option Opcode := allOpcodes.find? fun o => opcodeBits o == op

/-- The fields of a command word (30_encoding.md R94). -/
structure CmdFields where
  op : BitVec 8
  z : BitVec 20
  eb : Bool
  ea : Bool
  b : Bool
  a : Bool
  w : BitVec 32
  d : Nat
  deriving DecidableEq, Repr

/-- Which fields an operation uses (30_encoding.md R95). -/
structure UsedFields where
  a : Bool := false
  b : Bool := false
  ea : Bool := false
  eb : Bool := false
  w : Bool := false
  d : Bool := false
  deriving DecidableEq, Repr

/-- The table of 30_encoding.md R95. -/
def usedFields : Opcode → UsedFields
  | .dfInit => {}
  | .dfPoll => { a := true }
  | .btnInit => {}
  | .btnPoll => { a := true, ea := true }
  | .btnIsp => {}
  | .btnIsr => {}
  | .qdInit => {}
  | .qdPoll => { a := true, b := true, ea := true, eb := true }
  | .qdTicks => {}
  | .qdRstt => {}
  | .vmInit => {}
  | .vmAdd => { w := true, d := true }
  | .vmMap => { a := true, w := true, d := true }

/-- Every field that is not used is 0 (30_encoding.md R95, R103). -/
def unusedFieldsZero (u : UsedFields) (f : CmdFields) : Bool :=
  (u.a || !f.a) && (u.b || !f.b) && (u.ea || !f.ea) && (u.eb || !f.eb) &&
    (u.w || f.w == 0#32) && (u.d || f.d == 0)

/-- A command word cut into its fields, at the general bit positions of 30_encoding.md R94. -/
def splitWord (tw : Nat) (c : CmdWord tw) : CmdFields where
  op := c.extractLsb' (tw + 56) 8
  z := c.extractLsb' (tw + 36) 20
  eb := c.getLsbD (tw + 35)
  ea := c.getLsbD (tw + 34)
  b := c.getLsbD (tw + 33)
  a := c.getLsbD (tw + 32)
  w := c.extractLsb' tw 32
  d := (c.extractLsb' 0 tw).toNat

/-- The command word with given fields, highest field first (30_encoding.md R94). -/
def joinWord (tw : Nat) (f : CmdFields) : CmdWord tw :=
  f.op ++ f.z ++ BitVec.ofBool f.eb ++ BitVec.ofBool f.ea ++ BitVec.ofBool f.b ++ BitVec.ofBool f.a
    ++ f.w ++ BitVec.ofNat tw f.d

/-- The operation with a given opcode, its operands taken from the fields (30_encoding.md R95 to R99). -/
def buildInstr (o : Opcode) (f : CmdFields) : Instr :=
  match o with
  | .dfInit => .dfInit
  | .dfPoll => .dfPoll f.a
  | .btnInit => .btnInit
  | .btnPoll => .btnPoll f.a f.ea
  | .btnIsp => .btnIsp
  | .btnIsr => .btnIsr
  | .qdInit => .qdInit
  | .qdPoll => .qdPoll f.a f.b f.ea f.eb
  | .qdTicks => .qdTicks
  | .qdRstt => .qdRstt
  | .vmInit => .vmInit
  | .vmAdd => .vmAdd f.d f.w
  | .vmMap => .vmMap f.d f.a f.w

/-- The operation that fields stand for: total, every illegal combination rejected by name
(30_encoding.md R102, R103). -/
def decodeFields (f : CmdFields) : Except DecodeError Instr :=
  match opcodeOf f.op with
  | none => .error .reservedOpcode
  | some o =>
    if f.z ≠ 0#20 then .error .reservedBitSet
    else if unusedFieldsZero (usedFields o) f then .ok (buildInstr o f)
    else .error .unusedFieldSet

/-- The decoder: total on every command word (30_encoding.md R102, R103). -/
def decode (tw : Nat) (c : CmdWord tw) : Except DecodeError Instr := decodeFields (splitWord tw c)

/-- The opcode of an operation (30_encoding.md R92). -/
def opcodeOfInstr : Instr → Opcode
  | .dfInit => .dfInit
  | .dfPoll _ => .dfPoll
  | .btnInit => .btnInit
  | .btnPoll _ _ => .btnPoll
  | .btnIsp => .btnIsp
  | .btnIsr => .btnIsr
  | .qdInit => .qdInit
  | .qdPoll _ _ _ _ => .qdPoll
  | .qdTicks => .qdTicks
  | .qdRstt => .qdRstt
  | .vmInit => .vmInit
  | .vmAdd _ _ => .vmAdd
  | .vmMap _ _ _ => .vmMap

/-- The fields of an operation's command word: the operands it has, every other field 0
(30_encoding.md R94, R95). -/
def fieldsOfInstr (i : Instr) : CmdFields :=
  let blank : CmdFields :=
    { op := opcodeBits (opcodeOfInstr i), z := 0#20, eb := false, ea := false, b := false, a := false,
      w := 0#32, d := 0 }
  match i with
  | .dfInit => blank
  | .dfPoll a => { blank with a := a }
  | .btnInit => blank
  | .btnPoll a ea => { blank with a := a, ea := ea }
  | .btnIsp => blank
  | .btnIsr => blank
  | .qdInit => blank
  | .qdPoll a b ea eb => { blank with a := a, b := b, ea := ea, eb := eb }
  | .qdTicks => blank
  | .qdRstt => blank
  | .vmInit => blank
  | .vmAdd d w => { blank with w := w, d := d }
  | .vmMap d a w => { blank with a := a, w := w, d := d }

/-- The command word of an operation (30_encoding.md R93 to R99). -/
def encode (tw : Nat) (i : Instr) : CmdWord tw := joinWord tw (fieldsOfInstr i)

/-- `match` of spec/opcode_table.json, `TW = 64` (30_encoding.md R95, R103). -/
def tableMatch : Opcode → BitVec 128
  | .dfInit => 0x10000000000000000000000000000000#128
  | .dfPoll => 0x11000000000000000000000000000000#128
  | .btnInit => 0x20000000000000000000000000000000#128
  | .btnPoll => 0x21000000000000000000000000000000#128
  | .btnIsp => 0x22000000000000000000000000000000#128
  | .btnIsr => 0x23000000000000000000000000000000#128
  | .qdInit => 0x30000000000000000000000000000000#128
  | .qdPoll => 0x31000000000000000000000000000000#128
  | .qdTicks => 0x32000000000000000000000000000000#128
  | .qdRstt => 0x33000000000000000000000000000000#128
  | .vmInit => 0x40000000000000000000000000000000#128
  | .vmAdd => 0x41000000000000000000000000000000#128
  | .vmMap => 0x42000000000000000000000000000000#128

/-- `mask` of spec/opcode_table.json, `TW = 64` (30_encoding.md R95, R103). -/
def tableMask : Opcode → BitVec 128
  | .dfInit => 0xFFFFFFFFFFFFFFFFFFFFFFFFFFFFFFFF#128
  | .dfPoll => 0xFFFFFFFEFFFFFFFFFFFFFFFFFFFFFFFF#128
  | .btnInit => 0xFFFFFFFFFFFFFFFFFFFFFFFFFFFFFFFF#128
  | .btnPoll => 0xFFFFFFFAFFFFFFFFFFFFFFFFFFFFFFFF#128
  | .btnIsp => 0xFFFFFFFFFFFFFFFFFFFFFFFFFFFFFFFF#128
  | .btnIsr => 0xFFFFFFFFFFFFFFFFFFFFFFFFFFFFFFFF#128
  | .qdInit => 0xFFFFFFFFFFFFFFFFFFFFFFFFFFFFFFFF#128
  | .qdPoll => 0xFFFFFFF0FFFFFFFFFFFFFFFFFFFFFFFF#128
  | .qdTicks => 0xFFFFFFFFFFFFFFFFFFFFFFFFFFFFFFFF#128
  | .qdRstt => 0xFFFFFFFFFFFFFFFFFFFFFFFFFFFFFFFF#128
  | .vmInit => 0xFFFFFFFFFFFFFFFFFFFFFFFFFFFFFFFF#128
  | .vmAdd => 0xFFFFFFFF000000000000000000000000#128
  | .vmMap => 0xFFFFFFFE000000000000000000000000#128

/-- What the decoder reads from the low `nbits` bits of `w`, at the table's `TW = 64`; bits above `nbits`
are 0.  A command word is one number with bit 0 its least significant bit and has no byte order
(20_memory.md R75; log 9). -/
def decodeTableWord (nbits w : Nat) : Option Instr :=
  match decode Config.defaultTW (BitVec.ofNat (64 + Config.defaultTW) (w % 2 ^ nbits)) with
  | .ok i => some i
  | .error _ => none

end Sys2Proof
end

