-- ==== Sys2Proof/Machine/Fetch.lean ====
section
/-!
DEFINITION. Taking the next input.  The machine does not fetch: it has no program counter and no
instruction memory, the caller presents each operation (10_state.md R32).  Here the caller's stream is
`State.inp`, read from its head (log 4).
-/

namespace Sys2Proof.Machine

/-- What the next input turns out to be. -/
inductive Taken where
  /-- No operation is issued (00_scope.md R9). -/
  | nothing
  /-- Reset (70_reset_and_hazards.md R230). -/
  | reset
  /-- A legal command word. -/
  | instr (i : Instr)
  /-- An illegal command word (30_encoding.md R102, R103). -/
  | illegal (e : DecodeError)
  /-- A number that is no command word, having more than `64 + TW` bits (30_encoding.md R93; log 11). -/
  | tooWide
  deriving DecidableEq, Repr

/-- A number is a command word if `64 + TW` bits hold it (30_encoding.md R93). -/
def isCommandWord (tw w : Nat) : Bool := decide (w < 2 ^ (64 + tw))

/-- What a presented number is. -/
def readCommand (tw w : Nat) : Taken :=
  if isCommandWord tw w then
    match decode tw (BitVec.ofNat (64 + tw) w) with
    | .ok i => .instr i
    | .error e => .illegal e
  else .tooWide

/-- The next input, and the state with it taken from the stream. -/
def takeInput (s : State) : Taken × State :=
  match s.inp with
  | [] => (.nothing, s)
  | .idle :: rest => (.nothing, { s with inp := rest })
  | .reset :: rest => (.reset, { s with inp := rest })
  | .command w :: rest => (readCommand s.cfg.tw w, { s with inp := rest })

/-- The stream with a command word presented next: the instruction's low `nbits` bits, the bits above them
0 up to the machine's word (10_state.md R32; log 4). -/
def presentWord (tw nbits w : Nat) (inp : List Input) : List Input :=
  .command (w % 2 ^ nbits % 2 ^ (64 + tw)) :: inp

end Sys2Proof.Machine
end

