-- ==== Sys2Proof/Machine/Step.lean ====
section
/-!
DEFINITION. One step: one input is taken and acted on (00_scope.md R9, 70_reset_and_hazards.md R252).
-/

namespace Sys2Proof.Machine

/-- One step.  With nothing presented the machine holds its state (00_scope.md R9, 60_exceptions.md R222). -/
def step (s : State) : Host.Outcome State Fault Refusal :=
  match takeInput s with
  | (.nothing, s') => .next s'
  | (.reset, s') => .next (applyReset s')
  | (.instr i, s') => exec i s'
  | (.illegal _, s') => .next (illegalCommand s')
  | (.tooWide, _) => .refused .notACommandWord

/-- The state in which the caller presents one instruction next, before whatever it was going to present. -/
def State.withFetchWord (s : State) (nbits w : Nat) : State :=
  { s with inp := presentWord s.cfg.tw nbits w s.inp }

end Sys2Proof.Machine
end

