-- ==== Sys2Proof/Machine/Assembler.lean ====
section
/-!
DEFINITION. The assembler syntax and the response notation (30_encoding.md R108 to R112).  Text is a list of
characters; what the spec leaves open in the text (blanks, empty lines, a sign before a decimal scale, an empty
string of a `FEED`) is log 13.
-/

namespace Sys2Proof.Machine

/-- The pieces of a text between the separators. -/
def splitChars (sep : Char) : List Char → List (List Char)
  | [] => [[]]
  | c :: cs =>
    if c = sep then [] :: splitChars sep cs
    else match splitChars sep cs with
      | [] => [[c]]
      | p :: ps => (c :: p) :: ps

/-- A blank inside a line. -/
def isBlank (c : Char) : Bool := c == ' ' || c == '\t' || c == '\r'

/-- A text without its leading and trailing blanks. -/
def trimChars (cs : List Char) : List Char :=
  ((cs.dropWhile isBlank).reverse.dropWhile isBlank).reverse

/-- The value of a digit in a base up to 16. -/
def digitValue (base : Nat) (c : Char) : Option Nat :=
  let v :=
    if '0'.toNat ≤ c.toNat ∧ c.toNat ≤ '9'.toNat then c.toNat - '0'.toNat
    else if 'a'.toNat ≤ c.toNat ∧ c.toNat ≤ 'f'.toNat then c.toNat - 'a'.toNat + 10
    else if 'A'.toNat ≤ c.toNat ∧ c.toNat ≤ 'F'.toNat then c.toNat - 'A'.toNat + 10
    else 16
  if v < base then some v else none

/-- Digits that `_` may separate (30_encoding.md R109): every `_` stands between two digits. -/
def readDigits (base : Nat) : List Char → Nat → Bool → Option Nat
  | [], acc, afterDigit => if afterDigit then some acc else none
  | c :: cs, acc, afterDigit =>
    if c = '_' then (if afterDigit then readDigits base cs acc false else none)
    else match digitValue base c with
      | some v => readDigits base cs (base * acc + v) true
      | none => none

/-- A decimal or `0x` hexadecimal unsigned integer (30_encoding.md R109). -/
def readUnsigned : List Char → Option Nat
  | '0' :: 'x' :: cs => readDigits 16 cs 0 false
  | cs => readDigits 10 cs 0 false

/-- An instant or a threshold, below `2 ^ TW` (30_encoding.md R109). -/
def readInstant (tw : Nat) (cs : List Char) : Option Nat :=
  match readUnsigned cs with
  | some v => if v < 2 ^ tw then some v else none
  | none => none

/-- A level, or `err`: the level bit and the error bit (30_encoding.md R109). -/
def readLevel (cs : List Char) : Option (Bool × Bool) :=
  if cs = "0".toList then some (false, false)
  else if cs = "1".toList then some (true, false)
  else if cs = "err".toList then some (false, true)
  else none

/-- A text with its sign taken off. -/
def readSign : List Char → Bool × List Char
  | '-' :: cs => (true, cs)
  | '+' :: cs => (false, cs)
  | cs => (false, cs)

/-- A tick operand: `none`, or a signed decimal integer in the `i32` range (30_encoding.md R109); the flag
`a` and the field `w`. -/
def readTick (cs : List Char) : Option (Bool × Tick) :=
  if cs = "none".toList then some (false, 0#32)
  else
    let p := readSign cs
    match readDigits 10 p.2 0 false with
    | none => none
    | some m =>
      if -2 ^ 31 ≤ signed p.1 m ∧ signed p.1 m ≤ 2 ^ 31 - 1 then some (true, BitVec.ofInt 32 (signed p.1 m))
      else none

/-- A decimal literal with a point, to the nearest binary32 value, ties to even (30_encoding.md R109). -/
def readDecimal (cs : List Char) : Option ScaleBits :=
  let p := readSign cs
  match splitChars '.' p.2 with
  | [whole, fraction] =>
    match readDigits 10 whole 0 false, readDigits 10 fraction 0 false with
    | some n, some f =>
      let k := (fraction.filter fun c => c != '_').length
      some (f32ToBits (roundF32 p.1 ((n * 10 ^ k + f) * unitsPerOne) (10 ^ k)))
    | _, _ => none
  | _ => none

/-- A scale: `0x` and exactly 8 hexadecimal digits, or a decimal literal (30_encoding.md R109). -/
def readScale : List Char → Option ScaleBits
  | '0' :: 'x' :: cs =>
    if cs.length = 8 ∧ cs.contains '_' = false then (readDigits 16 cs 0 false).map (BitVec.ofNat 32) else none
  | cs => readDecimal cs

/-- One operation, from its mnemonic and its operands (30_encoding.md R108, R110). -/
def readOperation (tw : Nat) (mnemonic : List Char) (operands : List (List Char)) : Option Instr :=
  match operands with
  | [] =>
    if mnemonic = "DF.INIT".toList then some .dfInit
    else if mnemonic = "BTN.INIT".toList then some .btnInit
    else if mnemonic = "BTN.ISP".toList then some .btnIsp
    else if mnemonic = "BTN.ISR".toList then some .btnIsr
    else if mnemonic = "QD.INIT".toList then some .qdInit
    else if mnemonic = "QD.TICKS".toList then some .qdTicks
    else if mnemonic = "QD.RSTT".toList then some .qdRstt
    else if mnemonic = "VM.INIT".toList then some .vmInit
    else none
  | [x] =>
    match readLevel x with
    | none => none
    | some (a, ea) =>
      if mnemonic = "DF.POLL".toList then (if ea then none else some (.dfPoll a))
      else if mnemonic = "BTN.POLL".toList then some (.btnPoll a ea)
      else none
  | [x, y] =>
    if mnemonic = "QD.POLL".toList then
      match readLevel x, readLevel y with
      | some (a, ea), some (b, eb) => some (.qdPoll a b ea eb)
      | _, _ => none
    else if mnemonic = "VM.ADD".toList then
      match readInstant tw x, readScale y with
      | some d, some w => some (.vmAdd d w)
      | _, _ => none
    else if mnemonic = "VM.MAP".toList then
      match readInstant tw x, readTick y with
      | some d, some (a, w) => some (.vmMap d a w)
      | _, _ => none
    else none
  | _ => none

/-- A string of `0` and `1` (30_encoding.md R111).  DESIGN CHOICE (log 13): the string may be empty, which the
spec leaves open, so `QD.FEED ,` stands for no operation. -/
def readFeed : List Char → Option (List Bool)
  | [] => some []
  | '0' :: cs => (readFeed cs).map (false :: ·)
  | '1' :: cs => (readFeed cs).map (true :: ·)
  | _ => none

/-- `RESET` (30_encoding.md R111). -/
def expandReset : List Instr := [.dfInit, .btnInit, .qdInit, .vmInit]

/-- `DF.FEED s` (30_encoding.md R111). -/
def expandDfFeed (s : List Bool) : List Instr := s.map .dfPoll

/-- `BTN.FEED s` (30_encoding.md R111). -/
def expandBtnFeed (s : List Bool) : List Instr := s.map fun a => .btnPoll a false

/-- `QD.FEED sa, sb`, for two strings of equal length (30_encoding.md R111). -/
def expandQdFeed (sa sb : List Bool) : Option (List Instr) :=
  if sa.length = sb.length then some (List.zipWith (fun a b => .qdPoll a b false false) sa sb) else none

/-- `.rep n` and one operation (30_encoding.md R111). -/
def expandRep (n : Nat) (i : Instr) : List Instr := List.replicate n i

/-- A line cut into its first word and what follows it. -/
def cutWord (cs : List Char) : List Char × List Char :=
  (cs.takeWhile fun c => !isBlank c, trimChars (cs.dropWhile fun c => !isBlank c))

/-- The operands of a line, separated by commas (30_encoding.md R108). -/
def cutOperands (cs : List Char) : List (List Char) :=
  if cs = [] then [] else (splitChars ',' cs).map trimChars

/-- The operations one line stands for, its comment taken off (30_encoding.md R108, R111). -/
def readLine (tw : Nat) (line : List Char) : Option (List Instr) :=
  let body := trimChars (line.takeWhile fun c => c != ';')
  let w := cutWord body
  let ops := cutOperands w.2
  if body = [] then some []
  else if w.1 = "RESET".toList then (if ops = [] then some expandReset else none)
  else if w.1 = ".rep".toList then
    let r := cutWord w.2
    let o := cutWord r.2
    match readUnsigned r.1, readOperation tw o.1 (cutOperands o.2) with
    | some n, some i => some (expandRep n i)
    | _, _ => none
  else if w.1 = "DF.FEED".toList then
    match ops with
    | [s] => (readFeed s).map expandDfFeed
    | _ => none
  else if w.1 = "BTN.FEED".toList then
    match ops with
    | [s] => (readFeed s).map expandBtnFeed
    | _ => none
  else if w.1 = "QD.FEED".toList then
    match ops with
    | [sa, sb] =>
      match readFeed sa, readFeed sb with
      | some x, some y => expandQdFeed x y
      | _, _ => none
    | _ => none
  else (readOperation tw w.1 ops).map fun i => [i]

/-- The operations of a list of lines, run top to bottom (30_encoding.md R108). -/
def readLines (tw : Nat) : List (List Char) → Option (List Instr)
  | [] => some []
  | l :: ls =>
    match readLine tw l, readLines tw ls with
    | some x, some y => some (x ++ y)
    | _, _ => none

/-- The operations of a program text (30_encoding.md R108); none where the text is no program. -/
def assemble (tw : Nat) (text : String) : Option (List Instr) := readLines tw (splitChars '\n' text.toList)

/-- A signed decimal with its sign, `0` for zero (30_encoding.md R112). -/
def tickText (t : Tick) : String :=
  if t = 0#32 then "0"
  else if t.msb then "-" ++ Nat.repr t.toInt.natAbs
  else "+" ++ Nat.repr t.toInt.natAbs

/-- The name of a fault code (60_exceptions.md R200). -/
def faultName : FaultCode → String
  | .configFilterSize => "ConfigFilterSize"
  | .configMapCapacity => "ConfigMapCapacity"
  | .pinError => "PinError"
  | .unitFaulted => "UnitFaulted"
  | .illegalCommand => "IllegalCommand"
  | .configDuplicateThreshold => "ConfigDuplicateThreshold"

/-- The response notation (30_encoding.md R112). -/
def responseText : Response → String
  | .ok .unit => "ok"
  | .ok (.edge none) => "none"
  | .ok (.edge (some .roseStable)) => "rose"
  | .ok (.edge (some .fellStable)) => "fell"
  | .ok (.event none) => "none"
  | .ok (.event (some .pressed)) => "pressed"
  | .ok (.event (some .released)) => "released"
  | .ok (.bit v) => if v then "1" else "0"
  | .ok (.direction none) => "none"
  | .ok (.direction (some d)) => tickText (directionTick d)
  | .ok (.ticks t) => tickText t
  | .ok (.mapped none) => "none"
  | .ok (.mapped (some t)) => tickText t
  | .fault c => "fault(" ++ faultName c ++ ")"

end Sys2Proof.Machine
end

