-- ==== Sys2Proof/Machine/Ports.lean ====
section
/-!
DEFINITION. The port realisation (30_encoding.md R107): what one clock edge samples, and what the output
ports show.  No rule of another file depends on it; log 6 says how its open points are read.
-/

namespace Sys2Proof.Machine

/-- The input ports at one clock edge (30_encoding.md R107). -/
structure PortInputs where
  rst : Bool
  dfInit : Bool
  dfPoll : Bool
  dfRaw : Bool
  btnInit : Bool
  btnPoll : Bool
  btnRaw : Bool
  btnErr : Bool
  qdInit : Bool
  qdPoll : Bool
  qdA : Bool
  qdB : Bool
  qdErrA : Bool
  qdErrB : Bool
  qdRstt : Bool
  vmInit : Bool
  vmAdd : Bool
  vmThr : Nat
  vmScale : ScaleBits
  vmMap : Bool
  vmNow : Nat
  vmTickValid : Bool
  vmTick : Tick
  deriving DecidableEq, Repr

/-- A breach of the one-caller rule, outside the spec (30_encoding.md R107,
93_implementation_defined.md U15). -/
inductive PortBreach where
  | twoStrobes
  deriving DecidableEq, Repr

/-- The operations whose strobes are 1 (30_encoding.md R107). -/
def strobedInstrs (p : PortInputs) : List Instr :=
  (if p.dfInit then [Instr.dfInit] else [])
    ++ (if p.dfPoll then [Instr.dfPoll p.dfRaw] else [])
    ++ (if p.btnInit then [Instr.btnInit] else [])
    ++ (if p.btnPoll then [Instr.btnPoll p.btnRaw p.btnErr] else [])
    ++ (if p.qdInit then [Instr.qdInit] else [])
    ++ (if p.qdPoll then [Instr.qdPoll p.qdA p.qdB p.qdErrA p.qdErrB] else [])
    ++ (if p.qdRstt then [Instr.qdRstt] else [])
    ++ (if p.vmInit then [Instr.vmInit] else [])
    ++ (if p.vmAdd then [Instr.vmAdd p.vmThr p.vmScale] else [])
    ++ (if p.vmMap then [Instr.vmMap p.vmNow p.vmTickValid p.vmTick] else [])

/-- The input that one clock edge stands for; the command word is the record of the strobe and the operand
ports (30_encoding.md R107). -/
def samplePorts (tw : Nat) (p : PortInputs) : Except PortBreach Input :=
  if p.rst then .ok .reset
  else match strobedInstrs p with
    | [] => .ok .idle
    | [i] => .ok (.command (encode tw i).toNat)
    | _ :: _ :: _ => .error .twoStrobes

/-- The output ports (30_encoding.md R107). -/
structure PortOutputs where
  dfRose : Bool
  dfFell : Bool
  dfStable : Bool
  dfFault : FaultBits
  btnPressedEv : Bool
  btnReleasedEv : Bool
  btnIsPressed : Bool
  btnIsReleased : Bool
  btnFault : FaultBits
  qdDirValid : Bool
  qdDir : BitVec 32
  qdTicks : Tick
  qdStableA : Bool
  qdStableB : Bool
  qdFault : FaultBits
  vmOutValid : Bool
  vmOut : BitVec 32
  vmFault : FaultBits
  deriving DecidableEq, Repr

/-- `some` and `val` of the response a unit's result ports hold; 0 for a fault and before any response
(30_encoding.md R100). -/
def heldFields : Option Response → Bool × BitVec 32
  | none => (false, 0#32)
  | some (.fault _) => (false, 0#32)
  | some (.ok v) => valueFields v

/-- The fault code of the response a unit's result ports hold (30_encoding.md R107). -/
def heldFault : Option Response → FaultBits
  | none => 0#4
  | some r => responseFault r

/-- The output ports in a state: results from the held responses, levels from the registers. -/
def portOutputs (s : State) : PortOutputs where
  dfRose := s.ports.df == some (.ok (.edge (some .roseStable)))
  dfFell := s.ports.df == some (.ok (.edge (some .fellStable)))
  dfStable := s.df.f.stable
  dfFault := heldFault s.ports.df
  btnPressedEv := s.ports.btn == some (.ok (.event (some .pressed)))
  btnReleasedEv := s.ports.btn == some (.ok (.event (some .released)))
  btnIsPressed := s.btn.f.stable
  btnIsReleased := !s.btn.f.stable
  btnFault := heldFault s.ports.btn
  qdDirValid := (heldFields s.ports.qd).1
  qdDir := (heldFields s.ports.qd).2
  qdTicks := s.qd.ticks
  qdStableA := s.qd.fa.stable
  qdStableB := s.qd.fb.stable
  qdFault := heldFault s.ports.qd
  vmOutValid := (heldFields s.ports.vm).1
  vmOut := (heldFields s.ports.vm).2
  vmFault := heldFault s.ports.vm

end Sys2Proof.Machine
end

