-- ==== Sys2Proof/Safety.lean ====
section
/-!
DEFINITION. What the claims speak of: the invariant of 10_state.md R41 and R49, what counts as a safe run, and
runs of operations and of samples.
-/

namespace Sys2Proof.Machine

/-- A filter of legal size `n` in a unit in service (10_state.md R41, I-a to I-d). -/
abbrev Filter.Inv (n : Nat) (f : Filter) : Prop :=
  f.history.toNat < 2 ^ n ∧ f.index.toNat < n ∧ (f.history = mask n → f.stable = true) ∧
    (f.history = 0#8 → f.stable = false)

/-- The filters of a unit of size `n` with this `fault` register: the register is what construction left
(60_exceptions.md R201), a unit in service keeps R41, a unit that never was keeps its initial registers
(70_reset_and_hazards.md R232). -/
abbrev FilterUnitInv (n : Nat) (fault : FaultBits) (fs : List Filter) : Prop :=
  fault = constructionFault n ∧ (sizeLegal n = true → ∀ f ∈ fs, f.Inv n) ∧
    (sizeLegal n = false → ∀ f ∈ fs, f = freshFilter)

/-- The thresholds are strictly ascending (10_state.md R49). -/
abbrev SortedTable (tbl : List Entry) : Prop := tbl.Pairwise fun x y => x.thr < y.thr

/-- The map: at most `MAP_SIZE` entries, sorted, every instant inside `TW` bits, and a `fault` register that
holds 0 or one of the two codes of `VM.ADD`, code 2 only over a full table (10_state.md R47 to R51). -/
abbrev VM.Inv (c : Cfg) (v : VM) : Prop :=
  v.len ≤ c.mapSize ∧ SortedTable v.tbl ∧ (∀ e ∈ v.tbl, e.thr < 2 ^ c.tw) ∧ v.lastInstant < 2 ^ c.tw ∧
    (v.fault = 0#4 ∨ (v.fault = faultBits .configMapCapacity ∧ v.len = c.mapSize) ∨
      v.fault = faultBits .configDuplicateThreshold)

/-- The invariant of the machine, for every configuration. -/
abbrev State.Inv (s : State) : Prop :=
  FilterUnitInv s.cfg.dfN s.df.fault [s.df.f] ∧ FilterUnitInv s.cfg.btnN s.btn.fault [s.btn.f] ∧
    FilterUnitInv s.cfg.qdN s.qd.fault [s.qd.fa, s.qd.fb] ∧ s.vm.Inv s.cfg

/-- An input a caller can present: a command word has `64 + TW` bits (30_encoding.md R93). -/
def Input.wellFormed (tw : Nat) : Input → Bool
  | .reset => true
  | .idle => true
  | .command w => isCommandWord tw w

/-- No fault is recorded in any unit: a legal final state (00_scope.md R24). -/
def State.noFaultRecorded (s : State) : Bool :=
  s.df.fault == 0#4 && s.btn.fault == 0#4 && s.qd.fault == 0#4 && s.vm.fault == 0#4

/-- A run of `k` steps that went right: no step stops, no answer is `PinError` (60_exceptions.md R203), and
no fault is recorded at its end (00_scope.md R24). -/
def safeRun : Nat → State → Bool
  | 0, s => s.noFaultRecorded
  | k + 1, s =>
    match step s with
    | .next s' => s'.rsp != some (.fault .pinError) && safeRun k s'
    | .fault _ => false
    | .refused _ => false

/-- The unit an operation names (00_scope.md R9). -/
def unitOf : Instr → UnitId
  | .dfInit => .df
  | .dfPoll _ => .df
  | .btnInit => .btn
  | .btnPoll _ _ => .btn
  | .btnIsp => .btn
  | .btnIsr => .btn
  | .qdInit => .qd
  | .qdPoll _ _ _ _ => .qd
  | .qdTicks => .qd
  | .qdRstt => .qd
  | .vmInit => .vm
  | .vmAdd _ _ => .vm
  | .vmMap _ _ _ => .vm

/-- The four `INIT` operations (00_scope.md R10). -/
def isInit : Instr → Bool
  | .dfInit => true
  | .dfPoll _ => false
  | .btnInit => true
  | .btnPoll _ _ => false
  | .btnIsp => false
  | .btnIsr => false
  | .qdInit => true
  | .qdPoll _ _ _ _ => false
  | .qdTicks => false
  | .qdRstt => false
  | .vmInit => true
  | .vmAdd _ _ => false
  | .vmMap _ _ _ => false

/-- The unit whose strobe carries an operation; the three queries have none (30_encoding.md R107; log 6). -/
def strobeOf : Instr → Option UnitId
  | .dfInit => some .df
  | .dfPoll _ => some .df
  | .btnInit => some .btn
  | .btnPoll _ _ => some .btn
  | .btnIsp => none
  | .btnIsr => none
  | .qdInit => some .qd
  | .qdPoll _ _ _ _ => some .qd
  | .qdTicks => none
  | .qdRstt => some .qd
  | .vmInit => some .vm
  | .vmAdd _ _ => some .vm
  | .vmMap _ _ _ => some .vm

/-- Two states hold the same registers of one unit. -/
def SameUnit (u : UnitId) (s t : State) : Prop :=
  match u with
  | .df => t.df = s.df
  | .btn => t.btn = s.btn
  | .qd => t.qd = s.qd
  | .vm => t.vm = s.vm

/-- Two states hold the same registers of every unit, the whole table of 10_state.md R31. -/
abbrev SameRegisters (s t : State) : Prop := t.df = s.df ∧ t.btn = s.btn ∧ t.qd = s.qd ∧ t.vm = s.vm

/-- What the result ports of one unit hold (30_encoding.md R107). -/
def heldBy (u : UnitId) (p : ResultPorts) : Option Response :=
  match u with
  | .df => p.df
  | .btn => p.btn
  | .qd => p.qd
  | .vm => p.vm

/-- What 40_debounce_filter.md R121 to R124 say a filter step does to a record `f`, bit by bit: `g` is the
record after it and `e` its result. -/
def StepsFilter (n : Nat) (al raw : Bool) (f g : Filter) (e : Option Edge) : Prop :=
  (∀ j, j < 8 → g.history.getLsbD j = if j = f.index.toNat then xor raw al else f.history.getLsbD j) ∧
  g.index = BitVec.ofNat 3 ((f.index.toNat + 1) % n) ∧
  (g.history = BitVec.ofNat 8 (2 ^ n - 1) ∧ f.stable = false → g.stable = true ∧ e = some .roseStable) ∧
  (¬ (g.history = BitVec.ofNat 8 (2 ^ n - 1) ∧ f.stable = false) ∧ g.history = 0#8 ∧ f.stable = true →
    g.stable = false ∧ e = some .fellStable) ∧
  (¬ (g.history = BitVec.ofNat 8 (2 ^ n - 1) ∧ f.stable = false) ∧ ¬ (g.history = 0#8 ∧ f.stable = true) →
    g.stable = f.stable ∧ e = none)

/-- The event of an edge (41_button_switch.md R142), as the spec lists it. -/
def renamedEdge : Option Edge → Option Event
  | none => none
  | some .roseStable => some .pressed
  | some .fellStable => some .released

/-- The sixteen cases of 42_quadrature_decoder.md R162. -/
def tableDirection (pa pb sa sb : Bool) : Option Direction :=
  match pa, pb, sa, sb with
  | false, false, true, false => some .minusOne
  | false, false, false, true => some .plusOne
  | _, _, _, _ => none

/-- The direction a response carries. -/
def directionOf : Option Response → Option Direction
  | some (.ok (.direction d)) => d
  | _ => none

/-- One quadrature cycle of normalised levels: `(A, B)` goes (1,0), (1,1), (0,1), (0,0) when A leads and
(0,1), (1,1), (1,0), (0,0) when B does (42_quadrature_decoder.md R163), as raw levels under the polarity `al`.
The four phases are held for `h₁`, `h₂`, `h₃` and `h₄` polls. -/
def cyclePolls (al aLeads : Bool) (h₁ h₂ h₃ h₄ : Nat) : List Instr :=
  let phase (x y : Bool) (h : Nat) : List Instr :=
    List.replicate h (if aLeads then .qdPoll (xor x al) (xor y al) false false
      else .qdPoll (xor y al) (xor x al) false false)
  phase true false h₁ ++ phase true true h₂ ++ phase false true h₃ ++ phase false false h₄

/-- A run of operations, one after the other (00_scope.md R9). -/
def execAll : List Instr → State → StepOutcome
  | [], s => .next s
  | i :: is, s =>
    match exec i s with
    | .next s' => execAll is s'
    | .fault r => .fault r
    | .refused r => .refused r

/-- The responses of a run of operations, in order. -/
def responses : List Instr → State → List (Option Response)
  | [], _ => []
  | i :: is, s =>
    match exec i s with
    | .next s' => s'.rsp :: responses is s'
    | .fault _ => []
    | .refused _ => []

/-- The filter after a run of polls (40_debounce_filter.md R125). -/
def feedFilter (n : Nat) (al : Bool) : Filter → List Bool → Filter
  | f, [] => f
  | f, raw :: raws => feedFilter n al (filterStep n al f raw).1 raws

/-- The results of a run of polls, in order (40_debounce_filter.md R125). -/
def feedEdges (n : Nat) (al : Bool) : Filter → List Bool → List (Option Edge)
  | _, [] => []
  | f, raw :: raws => (filterStep n al f raw).2 :: feedEdges n al (filterStep n al f raw).1 raws

/-- The shift-register form of the filter (40_debounce_filter.md R133, 90_conflicts.md C9): the last samples,
newest first, and the stable level.  A sample moves every stored one by one place and the oldest falls out. -/
structure ShiftFilter where
  window : List Bool
  stable : Bool
  deriving DecidableEq, Repr

/-- The fresh shift register: `n` samples of 0 and the level 0. -/
def freshShift (n : Nat) : ShiftFilter := { window := List.replicate n false, stable := false }

/-- One poll of the shift register. -/
def shiftStep (n : Nat) (al : Bool) (f : ShiftFilter) (raw : Bool) : ShiftFilter × Option Edge :=
  let window := (normalise al raw :: f.window).take n
  if window.all (fun s => s) ∧ f.stable = false then ({ window := window, stable := true }, some .roseStable)
  else if window.all (fun s => !s) ∧ f.stable = true then ({ window := window, stable := false }, some .fellStable)
  else ({ window := window, stable := f.stable }, none)

/-- The results of a run of polls of the shift register. -/
def shiftEdges (n : Nat) (al : Bool) : ShiftFilter → List Bool → List (Option Edge)
  | _, [] => []
  | f, raw :: raws => (shiftStep n al f raw).2 :: shiftEdges n al (shiftStep n al f raw).1 raws

/-- The shift register after a run of polls. -/
def feedShift (n : Nat) (al : Bool) : ShiftFilter → List Bool → ShiftFilter
  | f, [] => f
  | f, raw :: raws => feedShift n al (shiftStep n al f raw).1 raws

/-- The decoder's other design, on the two filters' edge streams (42_quadrature_decoder.md R165): exactly one
filter reported an edge, the levels after the poll disagree, and the edge is a rise. -/
def edgeDirection (edgeA edgeB : Option Edge) (sa sb : Bool) : Option Direction :=
  if sa = sb then none
  else match edgeA, edgeB with
    | some .roseStable, none => some .minusOne
    | none, some .roseStable => some .plusOne
    | _, _ => none

/-- A magnitude in units of `2^-149` that binary32 would have if its exponent had no upper end: at most 24
significant bits, no finer than one unit (93_implementation_defined.md G1; log 14). -/
def F32Magnitude (u : Nat) : Prop := ∃ m k, u = m * 2 ^ k ∧ m < 2 ^ 24

/-- The last bit of the magnitude's 24-bit significand is 0.  The significand starts with a 1 unless the
magnitude is below the normal numbers (`k = 0`). -/
def EvenSignificand (u : Nat) : Prop :=
  ∃ m k, u = m * 2 ^ k ∧ m < 2 ^ 24 ∧ m % 2 = 0 ∧ (k = 0 ∨ 2 ^ 23 ≤ m)

/-- `u` is the magnitude nearest to `n / d`, and of two equally near ones the one with the even significand
(43_velocity_map.md R188: round to nearest, ties to even). -/
def NearestEven (n d u : Nat) : Prop :=
  F32Magnitude u ∧ ∀ v, F32Magnitude v →
    ((n : Int) - u * d).natAbs ≤ ((n : Int) - v * d).natAbs ∧
    (v ≠ u → ((n : Int) - u * d).natAbs = ((n : Int) - v * d).natAbs → EvenSignificand u)

/-- `r` is the binary32 rounding of `n / d` units with the sign `neg`: the nearest value, ties to even, and an
infinity where that is `2^128` or more (43_velocity_map.md R188). -/
def RoundsTo (neg : Bool) (n d : Nat) (r : F32) : Prop :=
  ∃ u, NearestEven n d u ∧ r = if 2 ^ 128 * 2 ^ 149 ≤ u then .inf neg else .fin neg u

/-- The magnitude of a finite pattern in units of `2^-149`, from its exponent field (bits 30 to 23) and its
fraction (bits 22 to 0) (30_encoding.md R98; log 14). -/
def patternMagnitude (s : ScaleBits) : Nat :=
  if s.extractLsb' 23 8 = 0#8 then (s.extractLsb' 0 23).toNat
  else (2 ^ 23 + (s.extractLsb' 0 23).toNat) * 2 ^ ((s.extractLsb' 23 8).toNat - 1)

/-- Truncation toward zero to an `i32`, saturating at its two ends; 0 for not-a-number
(43_velocity_map.md R189). -/
def TruncatesTo (p : F32) (r : Tick) : Prop :=
  match p with
  | .nan => r = 0#32
  | .inf neg => r = if neg then -2147483648#32 else 2147483647#32
  | .fin neg v =>
    (2 ^ 31 * 2 ^ 149 ≤ v → r = if neg then -2147483648#32 else 2147483647#32) ∧
    (v < 2 ^ 31 * 2 ^ 149 → r.toInt = if neg then -((v / 2 ^ 149 : Nat) : Int) else ((v / 2 ^ 149 : Nat) : Int))

end Sys2Proof.Machine
end

