-- ==== Sys2Proof/Certificates/Slice0/Obligations.lean ====
section
/-!
DEFINITION. The statements for the provers.  Each docstring names the rule of spec/ it formalises.  Where a
clause rests on a choice of the model the docstring says so and names the log entry; where the spec marks the
rule itself as derived, the docstring says that.

`t.rsp` is the response of the operation (00_scope.md R20).  A statement about an operation gives the register
frame (`SameRegisters`, or unit by unit); that no operation touches the configuration, the caller's stream or
another unit's result ports is `OperationTouchesOnlyItsUnit`, and what its own result ports hold is
`ResultPortsHoldResponse`.
-/

open Sys2Proof Sys2Proof.Machine

/-! ### Reset and the four INIT operations -/

/-- 70_reset_and_hazards.md R230 (with R232 for an illegal size): every register after reset, for every
configuration, and that a reset input brings the machine there from any state. -/
def Obligations.ResetLeavesSpecValues : Prop :=
  (∀ c : Cfg,
    (∀ f ∈ [(State.resetOf c).df.f, (State.resetOf c).btn.f, (State.resetOf c).qd.fa, (State.resetOf c).qd.fb],
      f.history = 0x00#8 ∧ f.index = 0#3 ∧ f.stable = false) ∧
    (State.resetOf c).qd.ticks = 0#32 ∧ (State.resetOf c).vm.len = 0 ∧
    (State.resetOf c).vm.lastValid = false ∧ (State.resetOf c).vm.lastInstant = 0 ∧
    (State.resetOf c).df.fault = (if 2 ≤ c.dfN ∧ c.dfN ≤ 8 then 0#4 else 1#4) ∧
    (State.resetOf c).btn.fault = (if 2 ≤ c.btnN ∧ c.btnN ≤ 8 then 0#4 else 1#4) ∧
    (State.resetOf c).qd.fault = (if 2 ≤ c.qdN ∧ c.qdN ≤ 8 then 0#4 else 1#4) ∧
    (State.resetOf c).vm.fault = 0#4) ∧
  ∀ (s : State) (rest : List Input), s.inp = .reset :: rest →
    ∃ t, step s = .next t ∧ SameRegisters (State.resetOf s.cfg) t

/-- 70_reset_and_hazards.md R231: reset is the same as the four `INIT` operations, the `RESET` pseudo-instruction,
from any state. -/
def Obligations.ResetEqualsFourInits : Prop :=
  expandReset = [.dfInit, .btnInit, .qdInit, .vmInit] ∧
  ∀ s : State, ∃ t, execAll expandReset s = .next t ∧ SameRegisters (State.resetOf s.cfg) t

/-- 70_reset_and_hazards.md R230 with the model's own fields: that a reset input leaves the configuration and the
rest of the caller's stream, and no response and no port result, is the model's choice (log 4, 5, 6). -/
def Obligations.ResetInputRestoresResetState : Prop :=
  ∀ (s : State) (rest : List Input), s.inp = .reset :: rest →
    step s = .next { State.resetOf s.cfg with inp := rest }

/-- 40_debounce_filter.md R127: `DF.INIT`, accepted in every state. -/
def Obligations.DfInitConstructsUnit : Prop :=
  (∀ tw, splitWord tw (encode tw .dfInit) =
    { op := 0x10#8, z := 0#20, eb := false, ea := false, b := false, a := false, w := 0#32, d := 0 }) ∧
  ∀ s : State,
    (2 ≤ s.cfg.dfN ∧ s.cfg.dfN ≤ 8 →
      ∃ t, exec .dfInit s = .next t ∧ t.rsp = some (.ok .unit) ∧ t.df = {
        f := { history := 0x00#8, index := 0#3, stable := false }
        fault := 0#4 } ∧
        t.btn = s.btn ∧ t.qd = s.qd ∧ t.vm = s.vm) ∧
    (¬ (2 ≤ s.cfg.dfN ∧ s.cfg.dfN ≤ 8) →
      ∃ t, exec .dfInit s = .next t ∧ t.rsp = some (.fault .configFilterSize) ∧ t.df = {
        f := { history := 0x00#8, index := 0#3, stable := false }
        fault := 1#4 } ∧
        t.btn = s.btn ∧ t.qd = s.qd ∧ t.vm = s.vm)

/-- 41_button_switch.md R141: `BTN.INIT`, accepted in every state. -/
def Obligations.BtnInitConstructsUnit : Prop :=
  (∀ tw, splitWord tw (encode tw .btnInit) =
    { op := 0x20#8, z := 0#20, eb := false, ea := false, b := false, a := false, w := 0#32, d := 0 }) ∧
  ∀ s : State,
    (2 ≤ s.cfg.btnN ∧ s.cfg.btnN ≤ 8 →
      ∃ t, exec .btnInit s = .next t ∧ t.rsp = some (.ok .unit) ∧ t.btn = {
        f := { history := 0x00#8, index := 0#3, stable := false }
        fault := 0#4 } ∧
        t.df = s.df ∧ t.qd = s.qd ∧ t.vm = s.vm) ∧
    (¬ (2 ≤ s.cfg.btnN ∧ s.cfg.btnN ≤ 8) →
      ∃ t, exec .btnInit s = .next t ∧ t.rsp = some (.fault .configFilterSize) ∧ t.btn = {
        f := { history := 0x00#8, index := 0#3, stable := false }
        fault := 1#4 } ∧
        t.df = s.df ∧ t.qd = s.qd ∧ t.vm = s.vm)

/-- 42_quadrature_decoder.md R151: `QD.INIT`, accepted in every state. -/
def Obligations.QdInitConstructsUnit : Prop :=
  (∀ tw, splitWord tw (encode tw .qdInit) =
    { op := 0x30#8, z := 0#20, eb := false, ea := false, b := false, a := false, w := 0#32, d := 0 }) ∧
  ∀ s : State,
    (2 ≤ s.cfg.qdN ∧ s.cfg.qdN ≤ 8 →
      ∃ t, exec .qdInit s = .next t ∧ t.rsp = some (.ok .unit) ∧ t.qd = {
        fa := { history := 0x00#8, index := 0#3, stable := false }
        fb := { history := 0x00#8, index := 0#3, stable := false }
        ticks := 0#32
        fault := 0#4 } ∧
        t.df = s.df ∧ t.btn = s.btn ∧ t.vm = s.vm) ∧
    (¬ (2 ≤ s.cfg.qdN ∧ s.cfg.qdN ≤ 8) →
      ∃ t, exec .qdInit s = .next t ∧ t.rsp = some (.fault .configFilterSize) ∧ t.qd = {
        fa := { history := 0x00#8, index := 0#3, stable := false }
        fb := { history := 0x00#8, index := 0#3, stable := false }
        ticks := 0#32
        fault := 1#4 } ∧
        t.df = s.df ∧ t.btn = s.btn ∧ t.vm = s.vm)

/-- 43_velocity_map.md R171: `VM.INIT` never faults and is accepted in every state. -/
def Obligations.VmInitEmptiesMap : Prop :=
  (∀ tw, splitWord tw (encode tw .vmInit) =
    { op := 0x40#8, z := 0#20, eb := false, ea := false, b := false, a := false, w := 0#32, d := 0 }) ∧
  ∀ s : State, ∃ t, exec .vmInit s = .next t ∧ t.rsp = some (.ok .unit) ∧
    t.vm = { tbl := [], lastValid := false, lastInstant := 0, fault := 0#4 } ∧
    t.df = s.df ∧ t.btn = s.btn ∧ t.qd = s.qd

/-! ### The Debounce Filter -/

/-- 40_debounce_filter.md R128 over R121 to R124: `DF.POLL`, in service and out of service. -/
def Obligations.DfPollStepsFilter : Prop :=
  ∀ a : Bool,
  (∀ tw, splitWord tw (encode tw (.dfPoll a)) =
    { op := 0x11#8, z := 0#20, eb := false, ea := false, b := false, a := a, w := 0#32, d := 0 }) ∧
  ∀ s : State,
    (s.df.fault = 0#4 → ∃ g e t, StepsFilter s.cfg.dfN s.cfg.dfAL a s.df.f g e ∧
      exec (.dfPoll a) s = .next t ∧ t.rsp = some (.ok (.edge e)) ∧ t.df = { f := g, fault := 0#4 } ∧
      t.btn = s.btn ∧ t.qd = s.qd ∧ t.vm = s.vm) ∧
    (s.df.fault ≠ 0#4 →
      ∃ t, exec (.dfPoll a) s = .next t ∧ t.rsp = some (.fault .unitFaulted) ∧ SameRegisters s t)

/-- 40_debounce_filter.md R132 (which the spec derives from R124): a result and a change of the stable level
happen together or not at all, and the change is toward the unanimous value of the history just written. -/
def Obligations.FilterEdgeExactlyOnStableChange : Prop :=
  ∀ (n : Nat) (al raw : Bool) (f : Filter),
    ((filterStep n al f raw).1.stable ≠ f.stable ↔ (filterStep n al f raw).2 ≠ none) ∧
    ((filterStep n al f raw).2 = some .roseStable →
      (filterStep n al f raw).1.stable = true ∧ (filterStep n al f raw).1.history = BitVec.ofNat 8 (2 ^ n - 1)) ∧
    ((filterStep n al f raw).2 = some .fellStable →
      (filterStep n al f raw).1.stable = false ∧ (filterStep n al f raw).1.history = 0#8)

/-- 40_debounce_filter.md R121: an active-low filter fed a raw level is the active-high filter fed its
complement. -/
def Obligations.ActiveLowFeedsComplement : Prop :=
  ∀ (n : Nat) (f : Filter) (raws : List Bool),
    feedEdges n true f raws = feedEdges n false f (raws.map not) ∧
    feedFilter n true f raws = feedFilter n false f (raws.map not)

/-- 40_debounce_filter.md R133 (which the spec derives from R125 and R41): from the reset state the circular
filter and the shift register give the same results and the same stable level on every sample sequence. -/
def Obligations.CircularFilterEqualsShiftRegister : Prop :=
  ∀ (n : Nat) (al : Bool) (raws : List Bool), 2 ≤ n → n ≤ 8 →
    feedEdges n al freshFilter raws = shiftEdges n al (freshShift n) raws ∧
    (feedFilter n al freshFilter raws).stable = (feedShift n al (freshShift n) raws).stable

/-- 40_debounce_filter.md R129 (which the spec derives from R125 and R41), both directions: after any samples
`past`, with `k` unanimous samples at their end, the edge comes on the call that completes `n` equal samples in a
row, and nothing before or after it. -/
def Obligations.HysteresisEdgeOnCompletingCall : Prop :=
  ∀ (n : Nat) (al : Bool) (past : List Bool) (m : Nat), 2 ≤ n → n ≤ 8 →
    ((feedFilter n al freshFilter past).stable = false →
      ((past.reverse.takeWhile fun r => xor r al).length < n ∧
        feedEdges n al (feedFilter n al freshFilter past)
            (List.replicate (n - (past.reverse.takeWhile fun r => xor r al).length + m) (!al)) =
          List.replicate (n - (past.reverse.takeWhile fun r => xor r al).length - 1) none ++
            some Edge.roseStable :: List.replicate m none)) ∧
    ((feedFilter n al freshFilter past).stable = true →
      ((past.reverse.takeWhile fun r => !(xor r al)).length < n ∧
        feedEdges n al (feedFilter n al freshFilter past)
            (List.replicate (n - (past.reverse.takeWhile fun r => !(xor r al)).length + m) al) =
          List.replicate (n - (past.reverse.takeWhile fun r => !(xor r al)).length - 1) none ++
            some Edge.fellStable :: List.replicate m none))

/-- 40_debounce_filter.md R130 (which the spec derives from R125): no poll whose sample differs from the previous
sample returns an edge. -/
def Obligations.AlternatingSampleGivesNoEdge : Prop :=
  ∀ (n : Nat) (al x : Bool) (past : List Bool), 2 ≤ n → n ≤ 8 →
    (feedEdges n al freshFilter (past ++ [x, !x])).getLast? = some none

/-- 40_debounce_filter.md R131 (which the spec derives from R124 and R126): the edges of one filter alternate, and
the first one after `FilterInit` is a `RoseStable`. -/
def Obligations.EdgesAlternateFromRise : Prop :=
  ∀ (n : Nat) (al : Bool) (raws : List Bool) (j : Nat) (e : Edge),
    ((feedEdges n al freshFilter raws).filterMap id)[j]? = some e →
      e = if j % 2 = 0 then Edge.roseStable else Edge.fellStable

/-! ### The Button/Switch -/

/-- 41_button_switch.md R142: `BTN.POLL`, in service with a good read, with a failed read, and out of service. -/
def Obligations.BtnPollRenamesEdges : Prop :=
  ∀ a ea : Bool,
  (∀ tw, splitWord tw (encode tw (.btnPoll a ea)) =
    { op := 0x21#8, z := 0#20, eb := false, ea := ea, b := false, a := a, w := 0#32, d := 0 }) ∧
  ∀ s : State,
    (s.btn.fault = 0#4 ∧ ea = false → ∃ g e t, StepsFilter s.cfg.btnN s.cfg.btnAL a s.btn.f g e ∧
      exec (.btnPoll a ea) s = .next t ∧ t.rsp = some (.ok (.event (renamedEdge e))) ∧
      t.btn = { f := g, fault := 0#4 } ∧ t.df = s.df ∧ t.qd = s.qd ∧ t.vm = s.vm) ∧
    (s.btn.fault = 0#4 ∧ ea = true →
      ∃ t, exec (.btnPoll a ea) s = .next t ∧ t.rsp = some (.fault .pinError) ∧ SameRegisters s t) ∧
    (s.btn.fault ≠ 0#4 →
      ∃ t, exec (.btnPoll a ea) s = .next t ∧ t.rsp = some (.fault .unitFaulted) ∧ SameRegisters s t)

/-- 41_button_switch.md R144: a failed read answers `PinError` and changes no register of any unit, and the next
`BTN.POLL` is handled as if the failed one had not been issued. -/
def Obligations.BtnFailedReadChangesNothing : Prop :=
  ∀ (a : Bool) (s : State), s.btn.fault = 0#4 →
    (∃ t, exec (.btnPoll a true) s = .next t ∧ t.rsp = some (.fault .pinError) ∧ SameRegisters s t) ∧
    ∀ b eb, execAll [.btnPoll a true, .btnPoll b eb] s = exec (.btnPoll b eb) s

/-- 41_button_switch.md R145 and R146 (that `BTN.ISR` answers the complement is the spec's inference, R146 being
marked as derived from R145; that the level is read without a second inversion is settled by 90_conflicts.md C3):
the two queries read the stable level, are complements, and change no register; on a faulted unit they answer
`UnitFaulted`; and the level agrees with the events: a poll that
answers `Pressed` leaves it 1, one that answers `Released` leaves it 0, any other leaves it as it was. -/
def Obligations.BtnQueriesReadStable : Prop :=
  (∀ tw, splitWord tw (encode tw .btnIsp) =
    { op := 0x22#8, z := 0#20, eb := false, ea := false, b := false, a := false, w := 0#32, d := 0 }) ∧
  (∀ tw, splitWord tw (encode tw .btnIsr) =
    { op := 0x23#8, z := 0#20, eb := false, ea := false, b := false, a := false, w := 0#32, d := 0 }) ∧
  (∀ s : State,
    (s.btn.fault = 0#4 →
      (∃ t, exec .btnIsp s = .next t ∧ t.rsp = some (.ok (.bit s.btn.f.stable)) ∧ SameRegisters s t) ∧
      (∃ t, exec .btnIsr s = .next t ∧ t.rsp = some (.ok (.bit (!s.btn.f.stable))) ∧ SameRegisters s t)) ∧
    (s.btn.fault ≠ 0#4 →
      (∃ t, exec .btnIsp s = .next t ∧ t.rsp = some (.fault .unitFaulted) ∧ SameRegisters s t) ∧
      (∃ t, exec .btnIsr s = .next t ∧ t.rsp = some (.fault .unitFaulted) ∧ SameRegisters s t))) ∧
  ∀ (a ea : Bool) (s t : State), exec (.btnPoll a ea) s = .next t →
    t.btn.f.stable =
      if t.rsp = some (.ok (.event (some .pressed))) then true
      else if t.rsp = some (.ok (.event (some .released))) then false
      else s.btn.f.stable

/-! ### The Rotary Decoder -/

/-- 42_quadrature_decoder.md R152 with R153 to R158: `QD.POLL`, in service with good reads, with a failed read, and
out of service. -/
def Obligations.QdPollDecodesQuadrature : Prop :=
  ∀ a b ea eb : Bool,
  (∀ tw, splitWord tw (encode tw (.qdPoll a b ea eb)) =
    { op := 0x31#8, z := 0#20, eb := eb, ea := ea, b := b, a := a, w := 0#32, d := 0 }) ∧
  ∀ s : State,
    (s.qd.fault = 0#4 ∧ ea = false ∧ eb = false → ∃ ga gb xa xb dir t,
      StepsFilter s.cfg.qdN s.cfg.qdAL a s.qd.fa ga xa ∧ StepsFilter s.cfg.qdN s.cfg.qdAL b s.qd.fb gb xb ∧
      dir = (if ga.stable ≠ gb.stable ∧ ¬ (ga.stable ≠ s.qd.fa.stable ↔ gb.stable ≠ s.qd.fb.stable) then
          if s.qd.fa.stable = false ∧ ga.stable = true then some Direction.minusOne
          else if s.qd.fb.stable = false ∧ gb.stable = true then some Direction.plusOne
          else none
        else none) ∧
      exec (.qdPoll a b ea eb) s = .next t ∧ t.rsp = some (.ok (.direction dir)) ∧
      t.qd = {
        fa := ga
        fb := gb
        ticks := match dir with
          | none => s.qd.ticks
          | some .minusOne => s.qd.ticks - 1#32
          | some .plusOne => s.qd.ticks + 1#32
        fault := 0#4 } ∧
      t.df = s.df ∧ t.btn = s.btn ∧ t.vm = s.vm) ∧
    (s.qd.fault = 0#4 ∧ (ea = true ∨ eb = true) →
      ∃ t, exec (.qdPoll a b ea eb) s = .next t ∧ t.rsp = some (.fault .pinError) ∧ SameRegisters s t) ∧
    (s.qd.fault ≠ 0#4 →
      ∃ t, exec (.qdPoll a b ea eb) s = .next t ∧ t.rsp = some (.fault .unitFaulted) ∧ SameRegisters s t)

/-- 42_quadrature_decoder.md R162 (which the spec derives from R154 and R155): the sixteen cases of the decode
rule. -/
def Obligations.DirectionFollowsTable : Prop :=
  ∀ pa pb sa sb : Bool, pollDirection pa pb sa sb = tableDirection pa pb sa sb

/-- 42_quadrature_decoder.md R165 (which the spec derives from R153 and R132): the decoder on levels and the
decoder on the filters' edge streams are the same function. -/
def Obligations.LevelDesignEqualsEdgeDesign : Prop :=
  ∀ (n : Nat) (al a b : Bool) (fa fb : Filter),
    pollDirection fa.stable fb.stable (filterStep n al fa a).1.stable (filterStep n al fb b).1.stable =
      edgeDirection (filterStep n al fa a).2 (filterStep n al fb b).2
        (filterStep n al fa a).1.stable (filterStep n al fb b).1.stable

/-- 42_quadrature_decoder.md R159: a failed read of either pin answers `PinError` and changes no register of any
unit, and the next `QD.POLL` is handled as if the failed one had not been issued. -/
def Obligations.QdFailedReadChangesNothing : Prop :=
  ∀ (a b ea eb : Bool) (s : State), s.qd.fault = 0#4 → (ea = true ∨ eb = true) →
    (∃ t, exec (.qdPoll a b ea eb) s = .next t ∧ t.rsp = some (.fault .pinError) ∧ SameRegisters s t) ∧
    ∀ a' b' ea' eb', execAll [.qdPoll a b ea eb, .qdPoll a' b' ea' eb'] s = exec (.qdPoll a' b' ea' eb') s

/-- 42_quadrature_decoder.md R160 and R161: `QD.TICKS` reads the accumulator and changes nothing; `QD.RSTT` clears
it and nothing else; on a faulted unit both answer `UnitFaulted`. -/
def Obligations.QdTicksReadsAndRsttClears : Prop :=
  (∀ tw, splitWord tw (encode tw .qdTicks) =
    { op := 0x32#8, z := 0#20, eb := false, ea := false, b := false, a := false, w := 0#32, d := 0 }) ∧
  (∀ tw, splitWord tw (encode tw .qdRstt) =
    { op := 0x33#8, z := 0#20, eb := false, ea := false, b := false, a := false, w := 0#32, d := 0 }) ∧
  ∀ s : State,
    (s.qd.fault = 0#4 →
      (∃ t, exec .qdTicks s = .next t ∧ t.rsp = some (.ok (.ticks s.qd.ticks)) ∧ SameRegisters s t) ∧
      (∃ t, exec .qdRstt s = .next t ∧ t.rsp = some (.ok .unit) ∧ t.qd = { s.qd with ticks := 0#32 } ∧
        t.df = s.df ∧ t.btn = s.btn ∧ t.vm = s.vm)) ∧
    (s.qd.fault ≠ 0#4 →
      (∃ t, exec .qdTicks s = .next t ∧ t.rsp = some (.fault .unitFaulted) ∧ SameRegisters s t) ∧
      (∃ t, exec .qdRstt s = .next t ∧ t.rsp = some (.fault .unitFaulted) ∧ SameRegisters s t))

/-- 42_quadrature_decoder.md R163 (which the spec derives from R162): a full cycle of the stable states, each
phase held for at least `QD_N` polls, from a decoder in service at (0, 0) with idle histories: exactly one `-1`
when A leads, exactly one `+1` when B does, and the accumulator moves by it.  The decoder then meets the same
hypotheses again, so cycles can be chained. -/
def Obligations.OneTickPerCycle : Prop :=
  ∀ (s : State) (aLeads : Bool) (h₁ h₂ h₃ h₄ : Nat), s.qd.fault = 0#4 → 2 ≤ s.cfg.qdN → s.cfg.qdN ≤ 8 →
    s.qd.fa.history = 0#8 → s.qd.fa.stable = false → s.qd.fa.index.toNat < s.cfg.qdN →
    s.qd.fb.history = 0#8 → s.qd.fb.stable = false → s.qd.fb.index.toNat < s.cfg.qdN →
    s.cfg.qdN ≤ h₁ → s.cfg.qdN ≤ h₂ → s.cfg.qdN ≤ h₃ → s.cfg.qdN ≤ h₄ →
    ∃ t, execAll (cyclePolls s.cfg.qdAL aLeads h₁ h₂ h₃ h₄) s = .next t ∧
      (responses (cyclePolls s.cfg.qdAL aLeads h₁ h₂ h₃ h₄) s).filterMap directionOf =
        [if aLeads then Direction.minusOne else Direction.plusOne] ∧
      t.qd.ticks = (if aLeads then s.qd.ticks - 1#32 else s.qd.ticks + 1#32) ∧
      t.cfg = s.cfg ∧ t.qd.fault = 0#4 ∧
      t.qd.fa.history = 0#8 ∧ t.qd.fa.stable = false ∧ t.qd.fa.index.toNat < s.cfg.qdN ∧
      t.qd.fb.history = 0#8 ∧ t.qd.fb.stable = false ∧ t.qd.fb.index.toNat < s.cfg.qdN

/-- 10_state.md R45: over any operations without a `QD.INIT` or `QD.RSTT` the accumulator moves by the sum, modulo
`2^32`, of the directions emitted. -/
def Obligations.TicksSumEmittedDirections : Prop :=
  ∀ (is : List Instr) (s : State), (∀ i ∈ is, i ≠ .qdInit ∧ i ≠ .qdRstt) →
    ∃ t, execAll is s = .next t ∧
      t.qd.ticks = s.qd.ticks + (((responses is s).filterMap directionOf).map fun d =>
        match d with
        | .minusOne => -1#32
        | .plusOne => 1#32).sum

/-! ### The Velocity Map -/

/-- 43_velocity_map.md R176 and R177: `VM.ADD`.  In service, with room and a new threshold, a sorted table
(10_state.md R49, kept by every step) becomes the sorted table of the old entries and the new one, one longer;
otherwise the first check that fails answers, in the order unit fault, capacity, duplicate. -/
def Obligations.VmAddInsertsOrFaults : Prop :=
  ∀ (d : Nat) (w : BitVec 32),
  (∀ tw, d < 2 ^ tw → splitWord tw (encode tw (.vmAdd d w)) =
    { op := 0x41#8, z := 0#20, eb := false, ea := false, b := false, a := false, w := w, d := d }) ∧
  ∀ s : State,
    (s.vm.fault = 0#4 → s.vm.len ≠ s.cfg.mapSize → (∀ e ∈ s.vm.tbl, e.thr ≠ d) → SortedTable s.vm.tbl →
      ∃ tbl t, tbl.Perm ({ thr := d, scale := w } :: s.vm.tbl) ∧ SortedTable tbl ∧
        exec (.vmAdd d w) s = .next t ∧ t.rsp = some (.ok .unit) ∧ t.vm = { s.vm with tbl := tbl } ∧
        t.vm.len = s.vm.len + 1 ∧ t.df = s.df ∧ t.btn = s.btn ∧ t.qd = s.qd) ∧
    (s.vm.fault ≠ 0#4 →
      ∃ t, exec (.vmAdd d w) s = .next t ∧ t.rsp = some (.fault .unitFaulted) ∧ SameRegisters s t) ∧
    (s.vm.fault = 0#4 → s.vm.len = s.cfg.mapSize →
      ∃ t, exec (.vmAdd d w) s = .next t ∧ t.rsp = some (.fault .configMapCapacity) ∧
        t.vm = { s.vm with fault := 2#4 } ∧ t.df = s.df ∧ t.btn = s.btn ∧ t.qd = s.qd) ∧
    (s.vm.fault = 0#4 → s.vm.len ≠ s.cfg.mapSize → (∃ e ∈ s.vm.tbl, e.thr = d) →
      ∃ t, exec (.vmAdd d w) s = .next t ∧ t.rsp = some (.fault .configDuplicateThreshold) ∧
        t.vm = { s.vm with fault := 6#4 } ∧ t.df = s.df ∧ t.btn = s.btn ∧ t.qd = s.qd)

/-- 43_velocity_map.md R178 and R179, last halves, with 60_exceptions.md R205: after an addition that faulted, the
map answers `UnitFaulted` and holds its table through any operations of any units, until a `VM.INIT`. -/
def Obligations.FaultedMapHoldsUntilInit : Prop :=
  ∀ (d : Nat) (w : BitVec 32) (s : State) (is : List Instr), s.vm.fault = 0#4 →
    (s.vm.len = s.cfg.mapSize ∨ ∃ e ∈ s.vm.tbl, e.thr = d) → .vmInit ∉ is →
    ∃ t, execAll (.vmAdd d w :: is) s = .next t ∧ t.vm.tbl = s.vm.tbl ∧ t.vm.lastValid = s.vm.lastValid ∧
      t.vm.lastInstant = s.vm.lastInstant ∧
      t.vm.fault = (if s.vm.len = s.cfg.mapSize then 2#4 else 6#4) ∧
      ∀ i, unitOf i = .vm → i ≠ .vmInit →
        ∃ t', exec i t = .next t' ∧ t'.rsp = some (.fault .unitFaulted) ∧ SameRegisters t t'

/-- 43_velocity_map.md R180 (which the spec derives from R179): the table after a set of successful additions to
an empty map does not depend on their order; it holds exactly those pairs, ascending. -/
def Obligations.AdditionOrderDoesNotMatter : Prop :=
  ∀ (s : State) (es es' : List Entry), s.vm.fault = 0#4 → s.vm.tbl = [] → es.length ≤ s.cfg.mapSize →
    (es.map Entry.thr).Nodup → es'.Perm es →
    ∃ t t', execAll (es.map fun e => .vmAdd e.thr e.scale) s = .next t ∧
      execAll (es'.map fun e => .vmAdd e.thr e.scale) s = .next t' ∧
      t'.vm = t.vm ∧ t.vm.tbl.Perm es ∧ SortedTable t.vm.tbl ∧ t.vm.fault = 0#4

/-- 43_velocity_map.md R182: without a tick `VM.MAP` answers nothing and changes nothing, whatever `d` and `w`; and
its word carries `d`, `a` and `w` as they are (30_encoding.md R97). -/
def Obligations.VmMapWithoutTickPassesThrough : Prop :=
  ∀ (d : Nat) (w : BitVec 32),
  (∀ tw a, d < 2 ^ tw → splitWord tw (encode tw (.vmMap d a w)) =
    { op := 0x42#8, z := 0#20, eb := false, ea := false, b := false, a := a, w := w, d := d }) ∧
  ∀ s : State, s.vm.fault = 0#4 →
    ∃ t, exec (.vmMap d false w) s = .next t ∧ t.rsp = some (.ok (.mapped none)) ∧ SameRegisters s t

/-- 43_velocity_map.md R183 and R184: on an empty table, whatever the recorded instant, and on the first tick,
`VM.MAP` answers the tick count unchanged and records the instant. -/
def Obligations.VmMapEmptyOrFirstIsUnscaled : Prop :=
  ∀ (d : Nat) (w : BitVec 32) (s : State), s.vm.fault = 0#4 → (s.vm.tbl = [] ∨ s.vm.lastValid = false) →
    ∃ t, exec (.vmMap d true w) s = .next t ∧ t.rsp = some (.ok (.mapped (some w))) ∧
      t.vm = { s.vm with lastValid := true, lastInstant := d } ∧ t.df = s.df ∧ t.btn = s.btn ∧ t.qd = s.qd

/-- 43_velocity_map.md R185: an instant before the recorded one answers nothing and changes no register, and a
later call is handled as if it had not been issued. -/
def Obligations.VmMapRejectsBackwardInstant : Prop :=
  ∀ (d : Nat) (w : BitVec 32) (s : State), s.vm.fault = 0#4 → s.vm.tbl ≠ [] → s.vm.lastValid = true →
    d < s.vm.lastInstant →
    (∃ t, exec (.vmMap d true w) s = .next t ∧ t.rsp = some (.ok (.mapped none)) ∧ SameRegisters s t) ∧
    ∀ d' a' w', execAll [.vmMap d true w, .vmMap d' a' w'] s = exec (.vmMap d' a' w') s

/-- 43_velocity_map.md R186 (and R191 for the instant): at an instant not before the recorded one, the first entry
whose threshold strictly exceeds the elapsed time scales the count, none leaves it unscaled, and the instant is
recorded; in a sorted table that entry has the smallest such threshold. -/
def Obligations.VmMapScalesByFirstBucket : Prop :=
  ∀ (d : Nat) (w : BitVec 32) (s : State), s.vm.fault = 0#4 → s.vm.tbl ≠ [] → s.vm.lastValid = true →
    s.vm.lastInstant ≤ d →
    (∀ (before after : List Entry) (e : Entry), s.vm.tbl = before ++ e :: after →
      (∀ x ∈ before, x.thr ≤ d - s.vm.lastInstant) → d - s.vm.lastInstant < e.thr →
      (∃ t, exec (.vmMap d true w) s = .next t ∧
        t.rsp = some (.ok (.mapped (some (scaleApply s.cfg.scale w e.scale)))) ∧
        t.vm = { s.vm with lastInstant := d } ∧ t.df = s.df ∧ t.btn = s.btn ∧ t.qd = s.qd) ∧
      (SortedTable s.vm.tbl → ∀ x ∈ s.vm.tbl, d - s.vm.lastInstant < x.thr → e.thr ≤ x.thr)) ∧
    ((∀ x ∈ s.vm.tbl, x.thr ≤ d - s.vm.lastInstant) →
      ∃ t, exec (.vmMap d true w) s = .next t ∧ t.rsp = some (.ok (.mapped (some w))) ∧
        t.vm = { s.vm with lastInstant := d } ∧ t.df = s.df ∧ t.btn = s.btn ∧ t.qd = s.qd)

/-- 43_velocity_map.md R186, last sentence, and R172: in a sorted table the entry a lookup finds is the one with the
smallest threshold above the elapsed time. -/
def Obligations.LookupFindsSmallestThreshold : Prop :=
  ∀ (tbl : List Entry) (elapsed : Nat) (e : Entry), SortedTable tbl →
    (lookupEntry tbl elapsed = some e ↔
      e ∈ tbl ∧ elapsed < e.thr ∧ ∀ x ∈ tbl, elapsed < x.thr → e.thr ≤ x.thr)

/-- 43_velocity_map.md R191: when `VM.last_instant` moves, and that it moves to the instant of the call; and
R192 (g): `VM.MAP` never changes the table. -/
def Obligations.LastInstantMovesExactlyWhen : Prop :=
  ∀ (d : Nat) (a : Bool) (w : BitVec 32) (s t : State), exec (.vmMap d a w) s = .next t →
    t.vm.tbl = s.vm.tbl ∧ t.vm.fault = s.vm.fault ∧
    (s.vm.fault = 0#4 ∧ a = true ∧ (s.vm.tbl = [] ∨ s.vm.lastValid = false ∨ s.vm.lastInstant ≤ d) →
      t.vm.lastValid = true ∧ t.vm.lastInstant = d) ∧
    (¬ (s.vm.fault = 0#4 ∧ a = true ∧ (s.vm.tbl = [] ∨ s.vm.lastValid = false ∨ s.vm.lastInstant ≤ d)) →
      t.vm.lastValid = s.vm.lastValid ∧ t.vm.lastInstant = s.vm.lastInstant)

/-- 10_state.md R50 and 43_velocity_map.md R184, last sentence: once `last_valid` is 1, only `VM.INIT` or reset
makes it 0. -/
def Obligations.LastValidClearedOnlyByVmInit : Prop :=
  (∀ (i : Instr) (s t : State), exec i s = .next t → s.vm.lastValid = true → t.vm.lastValid = false →
    i = .vmInit) ∧
  ∀ s t : State, step s = .next t → s.vm.lastValid = true → t.vm.lastValid = false →
    ∃ rest, s.inp = .reset :: rest ∨
      ∃ w, s.inp = .command w :: rest ∧ decode s.cfg.tw (BitVec.ofNat (64 + s.cfg.tw) w) = .ok .vmInit

/-! ### ScaleApply -/

/-- 43_velocity_map.md R187, P2: for a finite scale and `|t| <= 2^24`, a product that is exactly representable
(24 significant bits, below `2^128`) is truncated toward zero when the truncation is in the `i32` range; in
particular -1, 0 and +1, the only values the decoder emits, are scaled exactly whenever the truncation is in
range.  "Every `ScaleApply`" is the model's `ScaleRule`: its default is R188 and R189 over binary32 values
PRESUMED in log 14, and its other instantiations satisfy P1 and P2 by construction (log 8). -/
def Obligations.EveryScaleApplyTruncatesExactProduct : Prop :=
  ∀ (r : ScaleRule) (t s : BitVec 32) (neg : Bool) (u : Nat), f32OfBits s = .fin neg u →
    -2 ^ 31 ≤ (t.toInt * (if neg then -(u : Int) else u)).tdiv (2 ^ 149) →
    (t.toInt * (if neg then -(u : Int) else u)).tdiv (2 ^ 149) ≤ 2 ^ 31 - 1 →
    (∀ m k : Nat, t.toInt.natAbs ≤ 2 ^ 24 → t.toInt.natAbs * u = m * 2 ^ k → m < 2 ^ 24 →
      t.toInt.natAbs * u < 2 ^ 128 * 2 ^ 149 →
      scaleApply r t s = BitVec.ofInt 32 ((t.toInt * (if neg then -(u : Int) else u)).tdiv (2 ^ 149))) ∧
    (t = -1#32 ∨ t = 0#32 ∨ t = 1#32 →
      scaleApply r t s = BitVec.ofInt 32 ((t.toInt * (if neg then -(u : Int) else u)).tdiv (2 ^ 149)))

/-- 43_velocity_map.md R190 (which the spec derives from R188 and R189): the 22 rows of the corner table of the
default `ScaleApply` (binary32 arithmetic, log 14). -/
def Obligations.DefaultScaleCorners : Prop :=
  standardScale 1#32 0x41000000#32 = 8#32 ∧ standardScale (-1#32) 0x41000000#32 = -8#32 ∧
  standardScale 1#32 0x40200000#32 = 2#32 ∧ standardScale (-1#32) 0x40200000#32 = -2#32 ∧
  standardScale 3#32 0x40200000#32 = 7#32 ∧ standardScale (-3#32) 0x40200000#32 = -7#32 ∧
  standardScale 1#32 0x3F000000#32 = 0#32 ∧ standardScale 0#32 0x41000000#32 = 0#32 ∧
  standardScale 1#32 0xBF800000#32 = -1#32 ∧ standardScale 1#32 0x00000000#32 = 0#32 ∧
  standardScale 5#32 0x80000000#32 = 0#32 ∧ standardScale 3#32 0x3F8CCCCD#32 = 3#32 ∧
  standardScale 7#32 0x3E99999A#32 = 2#32 ∧
  standardScale 2147483647#32 0x40000000#32 = 2147483647#32 ∧
  standardScale (-2147483648#32) 0x40000000#32 = -2147483648#32 ∧
  standardScale 2147483647#32 0x3F800000#32 = 2147483647#32 ∧
  standardScale 16777217#32 0x3F800000#32 = 16777216#32 ∧
  standardScale 1#32 0x7FC00000#32 = 0#32 ∧ standardScale 1#32 0x7F800000#32 = 2147483647#32 ∧
  standardScale (-1#32) 0x7F800000#32 = -2147483648#32 ∧ standardScale 0#32 0x7F800000#32 = 0#32 ∧
  standardScale 1#32 0x00000001#32 = 0#32

/-- 43_velocity_map.md R188 and R189: the default `ScaleApply` on scales that are not finite, for every tick
count (binary32 arithmetic, log 14). -/
def Obligations.DefaultScaleNonFinite : Prop :=
  ∀ (t s : BitVec 32),
    (f32OfBits s = .nan → standardScale t s = 0#32) ∧
    ∀ neg, f32OfBits s = .inf neg →
      standardScale t s =
        if t = 0#32 then 0#32
        else if (decide (t.toInt < 0)) = neg then 2147483647#32 else -2147483648#32

/-- 43_velocity_map.md R188, the rounding that both its steps name: the model's `roundF32` goes to the nearest
binary32 value, ties to even, keeps the sign, is never not-a-number, and answers an infinity exactly from half a
step below `2^128` on.  That this is what binary32 does is PRESUMED (log 14). -/
def Obligations.RoundingGoesToNearest : Prop :=
  ∀ (neg : Bool) (n d : Nat), 0 < d →
    RoundsTo neg n d (roundF32 neg n d) ∧
    ∀ neg', roundF32 neg n d = .inf neg' ↔ neg' = neg ∧ (2 ^ 128 - 2 ^ 103) * 2 ^ 149 * d ≤ n

/-! ### Encoding -/

/-- 30_encoding.md R92 to R99, every `TW`: the decoder gives every well-formed operation back from its word. -/
def Obligations.DecodeOfEncode : Prop :=
  ∀ (tw : Nat) (i : Instr), i.wellFormed tw = true → decode tw (encode tw i) = .ok i

/-- 30_encoding.md R102, R103 and R105, every `TW`: a legal word is the word of exactly one operation; no encoding
aliases another. -/
def Obligations.EncodeOfDecode : Prop :=
  ∀ (tw : Nat) (c : CmdWord tw) (i : Instr), decode tw c = .ok i → i.wellFormed tw = true ∧ encode tw i = c

/-- 30_encoding.md R103 and 60_exceptions.md R207: the decoder is the mask and match search of opcode_table.json: a
word is an operation of a row exactly when `(word AND mask) == match`, no two rows hold of one word, and a word
of no row changes no register and is answered `IllegalCommand`. -/
def Obligations.DecodeIsTableSearch : Prop :=
  (∀ (c : BitVec 128) (o : Opcode),
    (∃ i, decode 64 c = .ok i ∧ opcodeOfInstr i = o) ↔ c &&& tableMask o = tableMatch o) ∧
  (∀ (c : BitVec 128) (o o' : Opcode),
    c &&& tableMask o = tableMatch o → c &&& tableMask o' = tableMatch o' → o = o') ∧
  ∀ (s : State) (w : Nat) (rest : List Input), s.cfg.tw = 64 → s.inp = .command w :: rest → w < 2 ^ 128 →
    (∀ o : Opcode, BitVec.ofNat 128 w &&& tableMask o ≠ tableMatch o) →
    ∃ t, step s = .next t ∧ t.rsp = some (.fault .illegalCommand) ∧ SameRegisters s t

/-- 30_encoding.md R110: the words of the spec's own table of examples, and the three further ones, decode to the
operations they stand for. -/
def Obligations.ExampleWordsDecode : Prop :=
  decode 64 0x10000000000000000000000000000000#128 = .ok .dfInit ∧
  decode 64 0x11000001000000000000000000000000#128 = .ok (.dfPoll true) ∧
  decode 64 0x20000000000000000000000000000000#128 = .ok .btnInit ∧
  decode 64 0x21000004000000000000000000000000#128 = .ok (.btnPoll false true) ∧
  decode 64 0x22000000000000000000000000000000#128 = .ok .btnIsp ∧
  decode 64 0x23000000000000000000000000000000#128 = .ok .btnIsr ∧
  decode 64 0x30000000000000000000000000000000#128 = .ok .qdInit ∧
  decode 64 0x31000002000000000000000000000000#128 = .ok (.qdPoll false true false false) ∧
  decode 64 0x32000000000000000000000000000000#128 = .ok .qdTicks ∧
  decode 64 0x33000000000000000000000000000000#128 = .ok .qdRstt ∧
  decode 64 0x40000000000000000000000000000000#128 = .ok .vmInit ∧
  decode 64 0x410000004100000000000000000186A0#128 = .ok (.vmAdd 100000 0x41000000#32) ∧
  decode 64 0x42000001FFFFFFFF00000000000AAE60#128 = .ok (.vmMap 700000 true (-1#32)) ∧
  decode 64 0x42000000000000000000000000000005#128 = .ok (.vmMap 5 false 0#32) ∧
  decode 64 0x420000010000000100000000000493E0#128 = .ok (.vmMap 300000 true 1#32) ∧
  decode 64 0x31000003000000000000000000000000#128 = .ok (.qdPoll true true false false)

/-- 30_encoding.md R100 and R101: the response word, with the six codes of 60_exceptions.md R200. -/
def Obligations.ResponseWordLayout : Prop :=
  (∀ r : Response,
    (responseWord r).extractLsb' 36 4 = responseFault r ∧ (responseWord r).extractLsb' 33 3 = 0#3 ∧
    (responseFault r ≠ 0#4 → (responseWord r).getLsbD 32 = false ∧ (responseWord r).extractLsb' 0 32 = 0#32) ∧
    (responseFault r = 0#4 ↔ ∃ v, r = .ok v)) ∧
  (∀ c : FaultCode, (responseWord (.fault c)).extractLsb' 36 4 =
    (match c with
     | .configFilterSize => 1#4
     | .configMapCapacity => 2#4
     | .pinError => 3#4
     | .unitFaulted => 4#4
     | .illegalCommand => 5#4
     | .configDuplicateThreshold => 6#4)) ∧
  (∀ v : Value,
    (responseWord (.ok v)).getLsbD 32 =
      (match v with
       | .unit => false
       | .edge e => e.isSome
       | .event e => e.isSome
       | .bit _ => true
       | .direction d => d.isSome
       | .ticks _ => true
       | .mapped t => t.isSome) ∧
    (responseWord (.ok v)).extractLsb' 0 32 =
      (match v with
       | .edge (some .roseStable) => 1#32
       | .event (some .pressed) => 1#32
       | .bit true => 1#32
       | .direction (some .plusOne) => 1#32
       | .direction (some .minusOne) => 0xFFFFFFFF#32
       | .ticks t => t
       | .mapped (some t) => t
       | _ => 0#32))

/-! ### The machine -/

/-- A step runs the decoded instruction: when the next input is a command word that decodes to `i`, the step is
`exec` of `i` on the state with the word taken from the stream (00_scope.md R9; the stream is log 4). -/
def Obligations.StepRunsDecodedInstruction : Prop :=
  ∀ (s : State) (w : Nat) (rest : List Input) (i : Instr), s.inp = .command w :: rest →
    w < 2 ^ (64 + s.cfg.tw) → decode s.cfg.tw (BitVec.ofNat (64 + s.cfg.tw) w) = .ok i →
    i.wellFormed s.cfg.tw = true ∧ step s = exec i { s with inp := rest }

/-- 30_encoding.md R102 and R103, 60_exceptions.md R207: an illegal command word changes no register, sets no unit's
`fault`, and is answered `IllegalCommand`. -/
def Obligations.IllegalWordOnlyAnswers : Prop :=
  ∀ (s : State) (w : Nat) (rest : List Input) (e : DecodeError), s.inp = .command w :: rest →
    w < 2 ^ (64 + s.cfg.tw) → decode s.cfg.tw (BitVec.ofNat (64 + s.cfg.tw) w) = .error e →
    ∃ t, step s = .next t ∧ t.rsp = some (.fault .illegalCommand) ∧ SameRegisters s t

/-- 00_scope.md R9: with no operation issued, no state changes (that an empty stream or an idle edge is "no
operation issued" is the model's reading, log 4). -/
def Obligations.NoOperationNoChange : Prop :=
  ∀ s : State, (s.inp = [] → step s = .next s) ∧
    ∀ rest, s.inp = .idle :: rest → step s = .next { s with inp := rest }

/-- 70_reset_and_hazards.md R252: every operation completes, in every state; every finite sequence of operations
runs to its end; and so does every step on an input that a caller can present. -/
def Obligations.EveryOperationCompletes : Prop :=
  (∀ (i : Instr) (s : State), ∃ t, exec i s = .next t) ∧
  (∀ (is : List Instr) (s : State), ∃ t, execAll is s = .next t ∧ (responses is s).length = is.length) ∧
  ∀ s : State, (∀ x, s.inp.head? = some x → x.wellFormed s.cfg.tw = true) → ∃ t, step s = .next t

/-- 10_state.md R41, R48, R49 and R51 (with 00_scope.md R14 for the instants): every step keeps the invariant. -/
def Obligations.StepKeepsInvariant : Prop :=
  ∀ s t : State, s.Inv → step s = .next t → t.Inv

/-- The reset state has the invariant, under every configuration. -/
def Obligations.ResetHasInvariant : Prop :=
  ∀ c : Cfg, (State.resetOf c).Inv

/-- 00_scope.md R17 and 10_state.md R33: no step changes the configuration; a step takes at most the head of the
caller's stream (log 4). -/
def Obligations.StepKeepsConfiguration : Prop :=
  ∀ s t : State, step s = .next t → t.cfg = s.cfg ∧ t.inp = s.inp.tail

/-- 10_state.md R56 and 00_scope.md R9: an operation changes only the registers of the unit it names; the result
ports of other units hold (log 6). -/
def Obligations.OperationTouchesOnlyItsUnit : Prop :=
  ∀ (i : Instr) (s t : State), exec i s = .next t →
    (∀ u, u ≠ unitOf i → SameUnit u s t ∧ heldBy u t.ports = heldBy u s.ports) ∧
    t.cfg = s.cfg ∧ t.inp = s.inp ∧ (strobeOf i = none → SameRegisters s t ∧ t.ports = s.ports)

/-- 20_memory.md R81 (the sentence the spec derives from R56): operations on different units commute: the same
final registers and the same two responses; and, as the model reads the ports (log 6), the same result ports. -/
def Obligations.OperationsOnDifferentUnitsCommute : Prop :=
  ∀ (i j : Instr) (s : State), unitOf i ≠ unitOf j →
    ∃ t t' x y, execAll [i, j] s = .next t ∧ execAll [j, i] s = .next t' ∧ SameRegisters t t' ∧
      t'.ports = t.ports ∧ responses [i, j] s = [x, y] ∧ responses [j, i] s = [y, x]

/-- 00_scope.md R8 and R9, 60_exceptions.md R213: what an operation answers and does to its unit depends on nothing
but the configuration and that unit's registers. -/
def Obligations.OperationDependsOnlyOnItsUnit : Prop :=
  ∀ (i : Instr) (s s' t t' : State), s'.cfg = s.cfg → SameUnit (unitOf i) s s' →
    exec i s = .next t → exec i s' = .next t' → t'.rsp = t.rsp ∧ SameUnit (unitOf i) t t'

/-- 60_exceptions.md R205: an operation other than `INIT` on a unit whose `fault` register is not 0 changes no
register and answers `UnitFaulted`. -/
def Obligations.FaultedUnitRefusesAllButInit : Prop :=
  ∀ (i : Instr) (s : State), isInit i = false → unitFault (unitOf i) s ≠ 0#4 →
    ∃ t, exec i s = .next t ∧ t.rsp = some (.fault .unitFaulted) ∧ SameRegisters s t

/-- 60_exceptions.md R212: faults are precise: an operation other than `INIT` that answers a fault changes no
register but, for the sticky codes 1, 2 and 6, its unit's `fault` register; an `INIT` that answers a fault leaves
its unit as a reset does and every other unit as it was. -/
def Obligations.FaultsArePrecise : Prop :=
  ∀ (i : Instr) (s t : State) (c : FaultCode), exec i s = .next t → t.rsp = some (.fault c) →
    (isInit i = false →
      ((c = .configFilterSize ∨ c = .configMapCapacity ∨ c = .configDuplicateThreshold) →
        SameRegisters (setFault (unitOf i) (faultBits c) s) t) ∧
      (¬ (c = .configFilterSize ∨ c = .configMapCapacity ∨ c = .configDuplicateThreshold) →
        SameRegisters s t)) ∧
    (isInit i = true →
      SameUnit (unitOf i) (State.resetOf s.cfg) t ∧ ∀ u, u ≠ unitOf i → SameUnit u s t)

/-- 60_exceptions.md R214 and 10_state.md R51: a recorded fault is left only by the unit's `INIT` (or by reset),
which brings all the unit's registers to their reset values, `fault` to 0 when the configuration is legal, whether
the unit was faulted or not. -/
def Obligations.RecordedFaultLeftOnlyByInit : Prop :=
  ∀ (i : Instr) (u : UnitId) (s t : State), exec i s = .next t →
    (unitFault u s ≠ 0#4 → unitFault u t ≠ unitFault u s → isInit i = true ∧ unitOf i = u) ∧
    (isInit i = true → unitOf i = u →
      SameUnit u (State.resetOf s.cfg) t ∧
      (((u = .df → 2 ≤ s.cfg.dfN ∧ s.cfg.dfN ≤ 8) ∧ (u = .btn → 2 ≤ s.cfg.btnN ∧ s.cfg.btnN ≤ 8) ∧
        (u = .qd → 2 ≤ s.cfg.qdN ∧ s.cfg.qdN ≤ 8)) → unitFault u t = 0#4))

/-- 30_encoding.md R107, as the model reads it (log 6): after an operation with a strobe, the result ports of its
unit hold its response, and each output of that unit shows it: the fault port its code, the event and value ports
the edge, event, direction or mapped count it carries, 0 where it carries none.  In every state the level ports
show the registers. -/
def Obligations.ResultPortsHoldResponse : Prop :=
  (∀ (i : Instr) (u : UnitId) (s t : State), exec i s = .next t → strobeOf i = some u →
    ∃ r, t.rsp = some r ∧ heldBy u t.ports = some r ∧
      (match u with
       | .df =>
         (portOutputs t).dfFault = responseFault r ∧
         ((portOutputs t).dfRose = true ↔ r = .ok (.edge (some .roseStable))) ∧
         ((portOutputs t).dfFell = true ↔ r = .ok (.edge (some .fellStable)))
       | .btn =>
         (portOutputs t).btnFault = responseFault r ∧
         ((portOutputs t).btnPressedEv = true ↔ r = .ok (.event (some .pressed))) ∧
         ((portOutputs t).btnReleasedEv = true ↔ r = .ok (.event (some .released)))
       | .qd =>
         (portOutputs t).qdFault = responseFault r ∧
         ((portOutputs t).qdDirValid, (portOutputs t).qdDir) =
           (match r with
            | .ok (.direction (some .plusOne)) => (true, 1#32)
            | .ok (.direction (some .minusOne)) => (true, 0xFFFFFFFF#32)
            | _ => (false, 0#32))
       | .vm =>
         (portOutputs t).vmFault = responseFault r ∧
         ((portOutputs t).vmOutValid, (portOutputs t).vmOut) =
           (match r with
            | .ok (.mapped (some w)) => (true, w)
            | _ => (false, 0#32)))) ∧
  ∀ s : State, (portOutputs s).dfStable = s.df.f.stable ∧
    (portOutputs s).btnIsPressed = s.btn.f.stable ∧ (portOutputs s).btnIsReleased = !s.btn.f.stable ∧
    (portOutputs s).qdTicks = s.qd.ticks ∧ (portOutputs s).qdStableA = s.qd.fa.stable ∧
    (portOutputs s).qdStableB = s.qd.fb.stable

/-! ### ScaleApply, all finite scales -/

/-- 43_velocity_map.md R188 and R189: the default `ScaleApply` on every tick count and every finite scale.  The
count is rounded to a binary32 value, the product with the scale's value is rounded once, both to nearest with
ties to even, and the rounded product is truncated toward zero, saturating at the ends of the `i32` range.
Values and signs are those of binary32, PRESUMED in log 14. -/
def Obligations.DefaultScaleRoundsThenTruncates : Prop :=
  ∀ t s : BitVec 32, s.extractLsb' 23 8 ≠ 0xFF#8 →
    f32OfBits s = .fin (s.getLsbD 31) (patternMagnitude s) ∧
    ∃ (x : Nat) (p : F32),
      RoundsTo (decide (t.toInt < 0)) (t.toInt.natAbs * 2 ^ 149) 1 (.fin (decide (t.toInt < 0)) x) ∧
      RoundsTo (xor (decide (t.toInt < 0)) (s.getLsbD 31)) (x * patternMagnitude s) (2 ^ 149) p ∧
      TruncatesTo p (standardScale t s)
end

