-- ==== Sys2Proof/Laws/Decode.lean ====
section
/-!
SUPPORT. The command word: cutting a joined word gives its fields back, and a word is the join of its fields,
for every `TW` (30_encoding.md R94).
-/

namespace Sys2Proof

/-- A joined word, bit by bit (30_encoding.md R94). -/
theorem joinWord_getLsbD (tw : Nat) (f : CmdFields) (j : Nat) :
    (joinWord tw f).getLsbD j =
      if j < tw then f.d.testBit j
      else if j < tw + 32 then f.w.getLsbD (j - tw)
      else if j < tw + 33 then f.a
      else if j < tw + 34 then f.b
      else if j < tw + 35 then f.ea
      else if j < tw + 36 then f.eb
      else if j < tw + 56 then f.z.getLsbD (j - (tw + 36))
      else f.op.getLsbD (j - (tw + 56)) := by
  unfold joinWord
  simp only [BitVec.getLsbD_append, BitVec.getLsbD_ofNat, BitVec.getLsbD_ofBool]
  split_ifs
  all_goals first
    | (exfalso; omega)
    | rfl
    | simp_all

/-- Cutting a joined word gives its fields back, where `d` fits its field. -/
theorem splitWord_joinWord (tw : Nat) (f : CmdFields) (hd : f.d < 2 ^ tw) : splitWord tw (joinWord tw f) = f := by
  cases f with
  | mk op z eb ea b a w d =>
    simp only [splitWord, CmdFields.mk.injEq]
    refine ⟨?_, ?_, ?_, ?_, ?_, ?_, ?_, ?_⟩
    · ext k hk
      rw [BitVec.getElem_extractLsb', joinWord_getLsbD]
      split_ifs <;> first | (exfalso; omega) | simp [BitVec.getLsbD_eq_getElem hk]
    · ext k hk
      rw [BitVec.getElem_extractLsb', joinWord_getLsbD]
      split_ifs <;> first | (exfalso; omega) | simp [BitVec.getLsbD_eq_getElem hk]
    · rw [joinWord_getLsbD]
      split_ifs <;> first | (exfalso; omega) | rfl
    · rw [joinWord_getLsbD]
      split_ifs <;> first | (exfalso; omega) | rfl
    · rw [joinWord_getLsbD]
      split_ifs <;> first | (exfalso; omega) | rfl
    · rw [joinWord_getLsbD]
      split_ifs <;> first | (exfalso; omega) | rfl
    · ext k hk
      rw [BitVec.getElem_extractLsb', joinWord_getLsbD]
      split_ifs <;> first | (exfalso; omega) | simp [BitVec.getLsbD_eq_getElem hk]
    · apply Nat.eq_of_testBit_eq
      intro k
      by_cases hk : k < tw
      · rw [← BitVec.getLsbD, BitVec.getLsbD_extractLsb', joinWord_getLsbD]
        simp [hk]
      · rw [← BitVec.getLsbD, BitVec.getLsbD_of_ge _ _ (by omega)]
        exact (Nat.testBit_lt_two_pow (lt_of_lt_of_le hd (Nat.pow_le_pow_right (by omega) (by omega)))).symm

/-- A word is determined by its fields. -/
theorem joinWord_splitWord (tw : Nat) (c : CmdWord tw) : joinWord tw (splitWord tw c) = c := by
  apply BitVec.eq_of_getLsbD_eq
  intro j hj
  rw [joinWord_getLsbD]
  simp only [splitWord, BitVec.getLsbD_extractLsb', ← BitVec.getLsbD.eq_1]
  split_ifs with h1 h2 h3 h4 h5 h6 h7
  · simp [h1]
  · simp [show j - tw < 32 by omega, show tw + (j - tw) = j by omega]
  · rw [show j = tw + 32 by omega]
  · rw [show j = tw + 33 by omega]
  · rw [show j = tw + 34 by omega]
  · rw [show j = tw + 35 by omega]
  · simp [show j - (tw + 36) < 20 by omega, show tw + 36 + (j - (tw + 36)) = j by omega]
  · simp [show j - (tw + 56) < 8 by omega, show tw + 56 + (j - (tw + 56)) = j by omega]

/-- The `d` field of any word fits `TW` bits. -/
theorem splitWord_d_lt (tw : Nat) (c : CmdWord tw) : (splitWord tw c).d < 2 ^ tw := BitVec.isLt _

/-- The opcode table is read back by the decoder (30_encoding.md R92). -/
@[simp] theorem opcodeOf_opcodeBits (o : Opcode) : opcodeOf (opcodeBits o) = some o := by
  cases o <;> decide

/-- The decoder knows no other opcode (30_encoding.md R102). -/
theorem opcodeBits_of_opcodeOf (op : BitVec 8) (o : Opcode) (h : opcodeOf op = some o) : opcodeBits o = op := by
  have := List.find?_some h
  simpa using this

/-- What the decoder accepts, said once (30_encoding.md R102, R103). -/
theorem decodeFields_eq_ok_iff (f : CmdFields) (i : Instr) :
    decodeFields f = .ok i ↔ ∃ o, opcodeOf f.op = some o ∧ f.z = 0#20 ∧
      unusedFieldsZero (usedFields o) f = true ∧ i = buildInstr o f := by
  unfold decodeFields
  constructor
  · intro h
    split at h
    · cases h
    · rename_i o ho
      split_ifs at h with hz hu
      cases h
      exact ⟨o, ho, not_not.1 hz, hu, rfl⟩
  · rintro ⟨o, ho, hz, hu, rfl⟩
    simp only [ho, hz, hu, ne_eq, not_true_eq_false, if_true, if_false]

end Sys2Proof
end

