-- ==== Sys2Proof/Laws/State.lean ====
section
/-!
SUPPORT. One lemma per field per update of the state, each true by rfl, so that no proof unfolds a record
update.
-/

namespace Sys2Proof.Machine

@[simp] theorem setFault_df_cfg (v : FaultBits) (s : State) : (setFault .df v s).cfg = s.cfg := rfl
@[simp] theorem setFault_df_btn (v : FaultBits) (s : State) : (setFault .df v s).btn = s.btn := rfl
@[simp] theorem setFault_df_qd (v : FaultBits) (s : State) : (setFault .df v s).qd = s.qd := rfl
@[simp] theorem setFault_df_vm (v : FaultBits) (s : State) : (setFault .df v s).vm = s.vm := rfl
@[simp] theorem setFault_df_rsp (v : FaultBits) (s : State) : (setFault .df v s).rsp = s.rsp := rfl
@[simp] theorem setFault_df_ports (v : FaultBits) (s : State) : (setFault .df v s).ports = s.ports := rfl
@[simp] theorem setFault_df_inp (v : FaultBits) (s : State) : (setFault .df v s).inp = s.inp := rfl
@[simp] theorem setFault_df_self (v : FaultBits) (s : State) : (setFault .df v s).df = { s.df with fault := v } := rfl
@[simp] theorem setFault_btn_cfg (v : FaultBits) (s : State) : (setFault .btn v s).cfg = s.cfg := rfl
@[simp] theorem setFault_btn_df (v : FaultBits) (s : State) : (setFault .btn v s).df = s.df := rfl
@[simp] theorem setFault_btn_qd (v : FaultBits) (s : State) : (setFault .btn v s).qd = s.qd := rfl
@[simp] theorem setFault_btn_vm (v : FaultBits) (s : State) : (setFault .btn v s).vm = s.vm := rfl
@[simp] theorem setFault_btn_rsp (v : FaultBits) (s : State) : (setFault .btn v s).rsp = s.rsp := rfl
@[simp] theorem setFault_btn_ports (v : FaultBits) (s : State) : (setFault .btn v s).ports = s.ports := rfl
@[simp] theorem setFault_btn_inp (v : FaultBits) (s : State) : (setFault .btn v s).inp = s.inp := rfl
@[simp] theorem setFault_btn_self (v : FaultBits) (s : State) : (setFault .btn v s).btn = { s.btn with fault := v } := rfl
@[simp] theorem setFault_qd_cfg (v : FaultBits) (s : State) : (setFault .qd v s).cfg = s.cfg := rfl
@[simp] theorem setFault_qd_df (v : FaultBits) (s : State) : (setFault .qd v s).df = s.df := rfl
@[simp] theorem setFault_qd_btn (v : FaultBits) (s : State) : (setFault .qd v s).btn = s.btn := rfl
@[simp] theorem setFault_qd_vm (v : FaultBits) (s : State) : (setFault .qd v s).vm = s.vm := rfl
@[simp] theorem setFault_qd_rsp (v : FaultBits) (s : State) : (setFault .qd v s).rsp = s.rsp := rfl
@[simp] theorem setFault_qd_ports (v : FaultBits) (s : State) : (setFault .qd v s).ports = s.ports := rfl
@[simp] theorem setFault_qd_inp (v : FaultBits) (s : State) : (setFault .qd v s).inp = s.inp := rfl
@[simp] theorem setFault_qd_self (v : FaultBits) (s : State) : (setFault .qd v s).qd = { s.qd with fault := v } := rfl
@[simp] theorem setFault_vm_cfg (v : FaultBits) (s : State) : (setFault .vm v s).cfg = s.cfg := rfl
@[simp] theorem setFault_vm_df (v : FaultBits) (s : State) : (setFault .vm v s).df = s.df := rfl
@[simp] theorem setFault_vm_btn (v : FaultBits) (s : State) : (setFault .vm v s).btn = s.btn := rfl
@[simp] theorem setFault_vm_qd (v : FaultBits) (s : State) : (setFault .vm v s).qd = s.qd := rfl
@[simp] theorem setFault_vm_rsp (v : FaultBits) (s : State) : (setFault .vm v s).rsp = s.rsp := rfl
@[simp] theorem setFault_vm_ports (v : FaultBits) (s : State) : (setFault .vm v s).ports = s.ports := rfl
@[simp] theorem setFault_vm_inp (v : FaultBits) (s : State) : (setFault .vm v s).inp = s.inp := rfl
@[simp] theorem setFault_vm_self (v : FaultBits) (s : State) : (setFault .vm v s).vm = { s.vm with fault := v } := rfl
@[simp] theorem setFault_cfg (u : UnitId) (v : FaultBits) (s : State) : (setFault u v s).cfg = s.cfg := by cases u <;> rfl
@[simp] theorem setFault_inp (u : UnitId) (v : FaultBits) (s : State) : (setFault u v s).inp = s.inp := by cases u <;> rfl
@[simp] theorem setFault_rsp (u : UnitId) (v : FaultBits) (s : State) : (setFault u v s).rsp = s.rsp := by cases u <;> rfl
@[simp] theorem setFault_ports (u : UnitId) (v : FaultBits) (s : State) : (setFault u v s).ports = s.ports := by cases u <;> rfl

@[simp] theorem respond_cfg (p : Option UnitId) (r : Response) (s : State) : (respond p r s).cfg = s.cfg := by cases p <;> rfl
@[simp] theorem respond_df (p : Option UnitId) (r : Response) (s : State) : (respond p r s).df = s.df := by cases p <;> rfl
@[simp] theorem respond_btn (p : Option UnitId) (r : Response) (s : State) : (respond p r s).btn = s.btn := by cases p <;> rfl
@[simp] theorem respond_qd (p : Option UnitId) (r : Response) (s : State) : (respond p r s).qd = s.qd := by cases p <;> rfl
@[simp] theorem respond_vm (p : Option UnitId) (r : Response) (s : State) : (respond p r s).vm = s.vm := by cases p <;> rfl
@[simp] theorem respond_inp (p : Option UnitId) (r : Response) (s : State) : (respond p r s).inp = s.inp := by cases p <;> rfl
@[simp] theorem respond_rsp (p : Option UnitId) (r : Response) (s : State) : (respond p r s).rsp = some r := by cases p <;> rfl
@[simp] theorem respond_ports_some (u : UnitId) (r : Response) (s : State) : (respond (some u) r s).ports = latchPorts u r s.ports := rfl
@[simp] theorem respond_ports_none (r : Response) (s : State) : (respond none r s).ports = s.ports := rfl

@[simp] theorem latchPorts_df_df (r : Response) (p : ResultPorts) : (latchPorts .df r p).df = some r := rfl
@[simp] theorem latchPorts_df_btn (r : Response) (p : ResultPorts) : (latchPorts .df r p).btn = p.btn := rfl
@[simp] theorem latchPorts_df_qd (r : Response) (p : ResultPorts) : (latchPorts .df r p).qd = p.qd := rfl
@[simp] theorem latchPorts_df_vm (r : Response) (p : ResultPorts) : (latchPorts .df r p).vm = p.vm := rfl
@[simp] theorem latchPorts_btn_df (r : Response) (p : ResultPorts) : (latchPorts .btn r p).df = p.df := rfl
@[simp] theorem latchPorts_btn_btn (r : Response) (p : ResultPorts) : (latchPorts .btn r p).btn = some r := rfl
@[simp] theorem latchPorts_btn_qd (r : Response) (p : ResultPorts) : (latchPorts .btn r p).qd = p.qd := rfl
@[simp] theorem latchPorts_btn_vm (r : Response) (p : ResultPorts) : (latchPorts .btn r p).vm = p.vm := rfl
@[simp] theorem latchPorts_qd_df (r : Response) (p : ResultPorts) : (latchPorts .qd r p).df = p.df := rfl
@[simp] theorem latchPorts_qd_btn (r : Response) (p : ResultPorts) : (latchPorts .qd r p).btn = p.btn := rfl
@[simp] theorem latchPorts_qd_qd (r : Response) (p : ResultPorts) : (latchPorts .qd r p).qd = some r := rfl
@[simp] theorem latchPorts_qd_vm (r : Response) (p : ResultPorts) : (latchPorts .qd r p).vm = p.vm := rfl
@[simp] theorem latchPorts_vm_df (r : Response) (p : ResultPorts) : (latchPorts .vm r p).df = p.df := rfl
@[simp] theorem latchPorts_vm_btn (r : Response) (p : ResultPorts) : (latchPorts .vm r p).btn = p.btn := rfl
@[simp] theorem latchPorts_vm_qd (r : Response) (p : ResultPorts) : (latchPorts .vm r p).qd = p.qd := rfl
@[simp] theorem latchPorts_vm_vm (r : Response) (p : ResultPorts) : (latchPorts .vm r p).vm = some r := rfl

@[simp] theorem recordInstant_cfg (now : Nat) (s : State) : (recordInstant now s).cfg = s.cfg := rfl
@[simp] theorem recordInstant_df (now : Nat) (s : State) : (recordInstant now s).df = s.df := rfl
@[simp] theorem recordInstant_btn (now : Nat) (s : State) : (recordInstant now s).btn = s.btn := rfl
@[simp] theorem recordInstant_qd (now : Nat) (s : State) : (recordInstant now s).qd = s.qd := rfl
@[simp] theorem recordInstant_rsp (now : Nat) (s : State) : (recordInstant now s).rsp = s.rsp := rfl
@[simp] theorem recordInstant_ports (now : Nat) (s : State) : (recordInstant now s).ports = s.ports := rfl
@[simp] theorem recordInstant_inp (now : Nat) (s : State) : (recordInstant now s).inp = s.inp := rfl
@[simp] theorem recordInstant_vm (now : Nat) (s : State) : (recordInstant now s).vm = { s.vm with lastValid := true, lastInstant := now } := rfl

@[simp] theorem unitFault_df (s : State) : unitFault .df s = s.df.fault := rfl
@[simp] theorem unitFault_btn (s : State) : unitFault .btn s = s.btn.fault := rfl
@[simp] theorem unitFault_qd (s : State) : unitFault .qd s = s.qd.fault := rfl
@[simp] theorem unitFault_vm (s : State) : unitFault .vm s = s.vm.fault := rfl

@[simp] theorem applyReset_df (s : State) : (applyReset s).df = (State.resetOf s.cfg).df := rfl
@[simp] theorem applyReset_btn (s : State) : (applyReset s).btn = (State.resetOf s.cfg).btn := rfl
@[simp] theorem applyReset_qd (s : State) : (applyReset s).qd = (State.resetOf s.cfg).qd := rfl
@[simp] theorem applyReset_vm (s : State) : (applyReset s).vm = (State.resetOf s.cfg).vm := rfl
@[simp] theorem applyReset_rsp (s : State) : (applyReset s).rsp = (State.resetOf s.cfg).rsp := rfl
@[simp] theorem applyReset_ports (s : State) : (applyReset s).ports = (State.resetOf s.cfg).ports := rfl
@[simp] theorem applyReset_cfg (s : State) : (applyReset s).cfg = s.cfg := rfl
@[simp] theorem applyReset_inp (s : State) : (applyReset s).inp = s.inp := rfl
@[simp] theorem resetOf_cfg (c : Cfg) : (State.resetOf c).cfg = c := rfl
@[simp] theorem resetOf_inp (c : Cfg) : (State.resetOf c).inp = [] := rfl

end Sys2Proof.Machine
end

