-- ==== Sys2Proof/Laws/Ops.lean ====
section
/-!
SUPPORT. One lemma per shared operation that says once all it can do.
-/

namespace Sys2Proof.Machine

@[simp] theorem sameUnit_df (s t : State) : SameUnit .df s t ↔ t.df = s.df := Iff.rfl
@[simp] theorem sameUnit_btn (s t : State) : SameUnit .btn s t ↔ t.btn = s.btn := Iff.rfl
@[simp] theorem sameUnit_qd (s t : State) : SameUnit .qd s t ↔ t.qd = s.qd := Iff.rfl
@[simp] theorem sameUnit_vm (s t : State) : SameUnit .vm s t ↔ t.vm = s.vm := Iff.rfl
theorem sameUnit_symm (u : UnitId) (s t : State) (h : SameUnit u s t) : SameUnit u t s := by
  cases u <;> exact h.symm
theorem sameUnit_trans (u : UnitId) (s t r : State) (h : SameUnit u s t) (h' : SameUnit u t r) :
    SameUnit u s r := by
  cases u
  · exact h'.trans h
  · exact h'.trans h
  · exact h'.trans h
  · exact h'.trans h
/-- The same registers in every unit is the same registers. -/
theorem sameRegisters_iff (s t : State) : SameRegisters s t ↔ ∀ u, SameUnit u s t :=
  ⟨fun h u => by
    cases u
    · exact h.1
    · exact h.2.1
    · exact h.2.2.1
    · exact h.2.2.2,
  fun h => ⟨h .df, h .btn, h .qd, h .vm⟩⟩
@[simp] theorem heldBy_df (p : ResultPorts) : heldBy .df p = p.df := rfl
@[simp] theorem heldBy_btn (p : ResultPorts) : heldBy .btn p = p.btn := rfl
@[simp] theorem heldBy_qd (p : ResultPorts) : heldBy .qd p = p.qd := rfl
@[simp] theorem heldBy_vm (p : ResultPorts) : heldBy .vm p = p.vm := rfl

/-- Taking a fault that is not sticky is answering, and nothing else. -/
theorem raise_of_not_sticky (p : Option UnitId) (c : FaultCode) (s : State) (h : isSticky c = false) :
    raise p c s = respond p (.fault c) s := by
  cases p <;> simp [raise, h]

/-- Taking a sticky fault writes the unit's `fault` register and answers. -/
theorem raise_of_sticky (u : UnitId) (c : FaultCode) (s : State) (h : isSticky c = true) :
    raise (some u) c s = respond (some u) (.fault c) (setFault u (faultBits c) s) := by
  simp [raise, h]

theorem raise_pinError (p : Option UnitId) (s : State) :
    raise p .pinError s = respond p (.fault .pinError) s := raise_of_not_sticky p _ s rfl

theorem raise_unitFaulted (p : Option UnitId) (s : State) :
    raise p .unitFaulted s = respond p (.fault .unitFaulted) s := raise_of_not_sticky p _ s rfl

theorem raise_illegalCommand (p : Option UnitId) (s : State) :
    raise p .illegalCommand s = respond p (.fault .illegalCommand) s := raise_of_not_sticky p _ s rfl

@[simp] theorem raise_rsp (p : Option UnitId) (c : FaultCode) (s : State) :
    (raise p c s).rsp = some (.fault c) := by simp [raise]

@[simp] theorem raise_cfg (p : Option UnitId) (c : FaultCode) (s : State) : (raise p c s).cfg = s.cfg := by
  cases p
  · rfl
  · simp only [raise, respond_cfg]
    split <;> simp

@[simp] theorem raise_inp (p : Option UnitId) (c : FaultCode) (s : State) : (raise p c s).inp = s.inp := by
  cases p
  · rfl
  · simp only [raise, respond_inp]
    split <;> simp

/-- Both ends of an `INIT` in one record: the `fault` register is what construction leaves, and the answer
follows the size. -/
theorem construct_eq (u : UnitId) (n : Nat) (s : State) :
    construct u n s = respond (some u)
      (if sizeLegal n then .ok .unit else .fault .configFilterSize) (setFault u (constructionFault n) s) := by
  by_cases h : sizeLegal n = true <;> simp [construct, constructionFault, raise, isSticky, h]

/-- An operation on a unit in service. -/
theorem inService_of_ok (u : UnitId) (p : Option UnitId) (s k : State) (h : unitFault u s = 0#4) :
    inService u p s k = k := by simp [inService, h]

/-- An operation on a unit out of service. -/
theorem inService_of_faulted (u : UnitId) (p : Option UnitId) (s k : State) (h : unitFault u s ≠ 0#4) :
    inService u p s k = respond p (.fault .unitFaulted) s := by
  simp [inService, h, raise_unitFaulted]

/-- An operation other than `INIT` either does what it says or answers `UnitFaulted`. -/
theorem inService_cases (u : UnitId) (p : Option UnitId) (s k : State) :
    (unitFault u s = 0#4 ∧ inService u p s k = k) ∨
    (unitFault u s ≠ 0#4 ∧ inService u p s k = respond p (.fault .unitFaulted) s) := by
  by_cases h : unitFault u s = 0#4
  · exact .inl ⟨h, inService_of_ok u p s k h⟩
  · exact .inr ⟨h, inService_of_faulted u p s k h⟩

/-- Both ends of an `INIT`: the size is legal and the unit is in service, or it is not. -/
theorem construct_cases (u : UnitId) (n : Nat) (s : State) :
    (sizeLegal n = true ∧ construct u n s = respond (some u) (.ok .unit) (setFault u 0#4 s)) ∨
    (sizeLegal n = false ∧
      construct u n s = respond (some u) (.fault .configFilterSize) (setFault u 1#4 s)) := by
  cases h : sizeLegal n
  · exact .inr ⟨rfl, by simp [construct, h, raise, isSticky, faultBits]⟩
  · exact .inl ⟨rfl, by simp [construct, h]⟩

/-- An illegal command only answers. -/
theorem illegalCommand_eq (s : State) :
    illegalCommand s = { s with rsp := some (.fault .illegalCommand) } := rfl

end Sys2Proof.Machine
end

