-- ==== Sys2Proof/Laws/Table.lean ====
section
/-!
SUPPORT. The map table: what insertion and lookup do, and that a sorted table stays sorted (10_state.md R49).
-/

namespace Sys2Proof.Machine

/-- Insertion adds the entry and keeps the others (43_velocity_map.md R176). -/
theorem insertEntry_perm (tbl : List Entry) (e : Entry) : (insertEntry tbl e).Perm (e :: tbl) := by
  unfold insertEntry
  refine List.perm_middle.trans ?_
  rw [List.take_append_drop]

theorem insertEntry_length (tbl : List Entry) (e : Entry) : (insertEntry tbl e).length = tbl.length + 1 := by
  simpa using (insertEntry_perm tbl e).length_eq

theorem mem_insertEntry (tbl : List Entry) (e x : Entry) : x ∈ insertEntry tbl e ↔ x = e ∨ x ∈ tbl := by
  rw [(insertEntry_perm tbl e).mem_iff, List.mem_cons]

theorem hasThreshold_iff (tbl : List Entry) (thr : Nat) :
    hasThreshold tbl thr = true ↔ ∃ e ∈ tbl, e.thr = thr := by
  simp [hasThreshold]

/-- In a sorted table the entries below a threshold are the first ones. -/
theorem insertPosition_spec (tbl : List Entry) (thr : Nat) (hs : SortedTable tbl) :
    (∀ e ∈ tbl.take (insertPosition tbl thr), e.thr < thr) ∧
      ∀ e ∈ tbl.drop (insertPosition tbl thr), thr ≤ e.thr := by
  induction tbl with
  | nil => simp
  | cons x xs ih =>
    have hx := List.pairwise_cons.1 hs
    by_cases h : x.thr < thr
    · have hp : insertPosition (x :: xs) thr = insertPosition xs thr + 1 := by simp [insertPosition, h]
      rw [hp]
      have := ih hx.2
      exact ⟨by simpa [h] using this.1, by simpa using this.2⟩
    · have hnone : insertPosition (x :: xs) thr = 0 := by
        simp only [insertPosition, List.length_eq_zero_iff, List.filter_eq_nil_iff, decide_eq_true_eq]
        intro e he
        rcases List.mem_cons.1 he with rfl | he
        · exact h
        · have := hx.1 e he
          omega
      rw [hnone]
      refine ⟨by simp, ?_⟩
      intro e he
      rcases List.mem_cons.1 (by simpa using he) with rfl | he
      · omega
      · have := hx.1 e he
        omega

/-- Insertion of a new threshold keeps the table sorted (10_state.md R49, 43_velocity_map.md R180). -/
theorem insertEntry_sorted (tbl : List Entry) (e : Entry) (hs : SortedTable tbl)
    (hd : hasThreshold tbl e.thr = false) : SortedTable (insertEntry tbl e) := by
  have hp := insertPosition_spec tbl e.thr hs
  have hne : ∀ x ∈ tbl, x.thr ≠ e.thr := by
    intro x hx he
    have := (hasThreshold_iff tbl e.thr).2 ⟨x, hx, he⟩
    simp [hd] at this
  unfold insertEntry SortedTable
  rw [List.pairwise_append, List.pairwise_cons]
  refine ⟨hs.sublist (List.take_sublist _ _), ⟨?_, hs.sublist (List.drop_sublist _ _)⟩, ?_⟩
  · intro x hx
    have h1 := hp.2 x hx
    have h2 := hne x (List.mem_of_mem_drop hx)
    omega
  · intro x hx y hy
    have h1 := hp.1 x hx
    rcases List.mem_cons.1 hy with rfl | hy
    · exact h1
    · have := hp.2 y hy
      omega

/-- What a lookup finds is in the table and serves the elapsed time (43_velocity_map.md R186). -/
theorem lookupEntry_some (tbl : List Entry) (elapsed : Nat) (e : Entry)
    (h : lookupEntry tbl elapsed = some e) : e ∈ tbl ∧ elapsed < e.thr := by
  refine ⟨List.mem_of_find?_eq_some h, ?_⟩
  have := List.find?_some h
  simpa using this

/-- A lookup finds nothing exactly when no threshold exceeds the elapsed time (43_velocity_map.md R186). -/
theorem lookupEntry_none (tbl : List Entry) (elapsed : Nat) :
    lookupEntry tbl elapsed = none ↔ ∀ e ∈ tbl, e.thr ≤ elapsed := by
  simp [lookupEntry, List.find?_eq_none]

/-- The cases of a mapped tick: it is passed unscaled and recorded, rejected, or scaled and recorded
(43_velocity_map.md R181). -/
theorem mapTick_cases (now : Nat) (t : Tick) (s : State) :
    ((s.vm.len = 0 ∨ s.vm.lastValid = false) ∧ mapTick now t s = (some t, recordInstant now s)) ∨
    (s.vm.len ≠ 0 ∧ s.vm.lastValid = true ∧ now < s.vm.lastInstant ∧ mapTick now t s = (none, s)) ∨
    (s.vm.len ≠ 0 ∧ s.vm.lastValid = true ∧ s.vm.lastInstant ≤ now ∧
      mapTick now t s =
        (some (scaledTick s.cfg.scale s.vm.tbl (now - s.vm.lastInstant) t), recordInstant now s)) := by
  unfold mapTick
  by_cases h1 : s.vm.len = 0
  · left
    simp [h1]
  · cases h2 : s.vm.lastValid
    · left
      simp
    · right
      by_cases h3 : now < s.vm.lastInstant
      · left
        simp [h1, h3]
      · right
        simp [h1, h3]
        omega

end Sys2Proof.Machine
end

