-- ==== Sys2Proof/Laws/Exec.lean ====
section
/-!
SUPPORT. One lemma per meaning: every way it can end, with the shared operations cut away, so that a later
proof cites the lemma and does not unfold the meaning.
-/

namespace Sys2Proof.Machine

theorem execDfInit_cases (s : State) :
    (sizeLegal s.cfg.dfN = true ∧ execDfInit s =
      .next (respond (some .df) (.ok .unit) { s with df := { f := freshFilter, fault := 0#4 } })) ∨
    (sizeLegal s.cfg.dfN = false ∧ execDfInit s =
      .next (respond (some .df) (.fault .configFilterSize) { s with df := { f := freshFilter, fault := 1#4 } })) := by
  unfold execDfInit
  rcases construct_cases .df s.cfg.dfN { s with df := { s.df with f := freshFilter } } with ⟨h, e⟩ | ⟨h, e⟩
  · exact .inl ⟨h, by rw [e]; rfl⟩
  · exact .inr ⟨h, by rw [e]; rfl⟩

theorem execDfPoll_cases (a : Level) (s : State) :
    (s.df.fault = 0#4 ∧ execDfPoll a s =
      .next (respond (some .df) (.ok (.edge (filterStep s.cfg.dfN s.cfg.dfAL s.df.f a).2))
        { s with df := { s.df with f := (filterStep s.cfg.dfN s.cfg.dfAL s.df.f a).1 } })) ∨
    (s.df.fault ≠ 0#4 ∧ execDfPoll a s = .next (respond (some .df) (.fault .unitFaulted) s)) := by
  unfold execDfPoll
  rcases inService_cases .df (some .df) s _ with ⟨h, e⟩ | ⟨h, e⟩
  · exact .inl ⟨h, by rw [e]⟩
  · exact .inr ⟨h, by rw [e]⟩

theorem execBtnInit_cases (s : State) :
    (sizeLegal s.cfg.btnN = true ∧ execBtnInit s =
      .next (respond (some .btn) (.ok .unit) { s with btn := { f := freshFilter, fault := 0#4 } })) ∨
    (sizeLegal s.cfg.btnN = false ∧ execBtnInit s =
      .next (respond (some .btn) (.fault .configFilterSize) { s with btn := { f := freshFilter, fault := 1#4 } })) := by
  unfold execBtnInit
  rcases construct_cases .btn s.cfg.btnN { s with btn := { s.btn with f := freshFilter } } with ⟨h, e⟩ | ⟨h, e⟩
  · exact .inl ⟨h, by rw [e]; rfl⟩
  · exact .inr ⟨h, by rw [e]; rfl⟩

theorem execBtnPoll_cases (a ea : Bool) (s : State) :
    (s.btn.fault = 0#4 ∧ ea = false ∧ execBtnPoll a ea s =
      .next (respond (some .btn) (.ok (.event ((filterStep s.cfg.btnN s.cfg.btnAL s.btn.f a).2.map eventOfEdge)))
        { s with btn := { s.btn with f := (filterStep s.cfg.btnN s.cfg.btnAL s.btn.f a).1 } })) ∨
    (s.btn.fault = 0#4 ∧ ea = true ∧ execBtnPoll a ea s =
      .next (respond (some .btn) (.fault .pinError) s)) ∨
    (s.btn.fault ≠ 0#4 ∧ execBtnPoll a ea s = .next (respond (some .btn) (.fault .unitFaulted) s)) := by
  unfold execBtnPoll
  by_cases h : s.btn.fault = 0#4
  · rw [inService_of_ok .btn (some .btn) s _ h]
    cases ea
    · exact .inl ⟨h, rfl, rfl⟩
    · exact .inr (.inl ⟨h, rfl, by simp [readFailed, raise_pinError]⟩)
  · exact .inr (.inr ⟨h, by rw [inService_of_faulted .btn (some .btn) s _ h]⟩)

theorem execBtnIsp_cases (s : State) :
    (s.btn.fault = 0#4 ∧ execBtnIsp s = .next (respond none (.ok (.bit s.btn.f.stable)) s)) ∨
    (s.btn.fault ≠ 0#4 ∧ execBtnIsp s = .next (respond none (.fault .unitFaulted) s)) := by
  unfold execBtnIsp
  rcases inService_cases .btn none s _ with ⟨h, e⟩ | ⟨h, e⟩
  · exact .inl ⟨h, by rw [e]⟩
  · exact .inr ⟨h, by rw [e]⟩

theorem execBtnIsr_cases (s : State) :
    (s.btn.fault = 0#4 ∧ execBtnIsr s = .next (respond none (.ok (.bit (!s.btn.f.stable))) s)) ∨
    (s.btn.fault ≠ 0#4 ∧ execBtnIsr s = .next (respond none (.fault .unitFaulted) s)) := by
  unfold execBtnIsr
  rcases inService_cases .btn none s _ with ⟨h, e⟩ | ⟨h, e⟩
  · exact .inl ⟨h, by rw [e]⟩
  · exact .inr ⟨h, by rw [e]⟩

theorem execQdInit_cases (s : State) :
    (sizeLegal s.cfg.qdN = true ∧ execQdInit s =
      .next (respond (some .qd) (.ok .unit)
        { s with qd := { fa := freshFilter, fb := freshFilter, ticks := 0#32, fault := 0#4 } })) ∨
    (sizeLegal s.cfg.qdN = false ∧ execQdInit s =
      .next (respond (some .qd) (.fault .configFilterSize)
        { s with qd := { fa := freshFilter, fb := freshFilter, ticks := 0#32, fault := 1#4 } })) := by
  unfold execQdInit
  rcases construct_cases .qd s.cfg.qdN
    { s with qd := { s.qd with fa := freshFilter, fb := freshFilter, ticks := 0#32 } } with ⟨h, e⟩ | ⟨h, e⟩
  · exact .inl ⟨h, by rw [e]; rfl⟩
  · exact .inr ⟨h, by rw [e]; rfl⟩

/-- What a good `QD.POLL` emits (42_quadrature_decoder.md R153 to R155). -/
abbrev emitted (a b : Bool) (s : State) : Option Direction :=
  pollDirection s.qd.fa.stable s.qd.fb.stable (filterStep s.cfg.qdN s.cfg.qdAL s.qd.fa a).1.stable
    (filterStep s.cfg.qdN s.cfg.qdAL s.qd.fb b).1.stable

theorem execQdPoll_cases (a b ea eb : Bool) (s : State) :
    (s.qd.fault = 0#4 ∧ ea = false ∧ eb = false ∧ execQdPoll a b ea eb s =
      .next (respond (some .qd) (.ok (.direction (emitted a b s)))
        { s with qd := { s.qd with
          fa := (filterStep s.cfg.qdN s.cfg.qdAL s.qd.fa a).1
          fb := (filterStep s.cfg.qdN s.cfg.qdAL s.qd.fb b).1
          ticks := accumulate s.qd.ticks (emitted a b s) } })) ∨
    (s.qd.fault = 0#4 ∧ (ea = true ∨ eb = true) ∧ execQdPoll a b ea eb s =
      .next (respond (some .qd) (.fault .pinError) s)) ∨
    (s.qd.fault ≠ 0#4 ∧ execQdPoll a b ea eb s = .next (respond (some .qd) (.fault .unitFaulted) s)) := by
  unfold execQdPoll
  rcases inService_cases .qd (some .qd) s _ with ⟨h, e⟩ | ⟨h, e⟩
  · cases hea : ea || eb
    · have := Bool.or_eq_false_iff.1 hea
      exact .inl ⟨h, this.1, this.2, by rw [e, readFailed, hea]; rfl⟩
    · exact .inr (.inl ⟨h, by simpa using hea, by rw [e, readFailed, hea, if_pos rfl, raise_pinError]⟩)
  · exact .inr (.inr ⟨h, by rw [e]⟩)

theorem execQdTicks_cases (s : State) :
    (s.qd.fault = 0#4 ∧ execQdTicks s = .next (respond none (.ok (.ticks s.qd.ticks)) s)) ∨
    (s.qd.fault ≠ 0#4 ∧ execQdTicks s = .next (respond none (.fault .unitFaulted) s)) := by
  unfold execQdTicks
  rcases inService_cases .qd none s _ with ⟨h, e⟩ | ⟨h, e⟩
  · exact .inl ⟨h, by rw [e]⟩
  · exact .inr ⟨h, by rw [e]⟩

theorem execQdRstt_cases (s : State) :
    (s.qd.fault = 0#4 ∧ execQdRstt s =
      .next (respond (some .qd) (.ok .unit) { s with qd := { s.qd with ticks := 0#32 } })) ∨
    (s.qd.fault ≠ 0#4 ∧ execQdRstt s = .next (respond (some .qd) (.fault .unitFaulted) s)) := by
  unfold execQdRstt
  rcases inService_cases .qd (some .qd) s _ with ⟨h, e⟩ | ⟨h, e⟩
  · exact .inl ⟨h, by rw [e]⟩
  · exact .inr ⟨h, by rw [e]⟩

theorem execVmInit_eq (s : State) :
    execVmInit s = .next (respond (some .vm) (.ok .unit)
      { s with vm := { tbl := [], lastValid := false, lastInstant := 0, fault := 0#4 } }) := rfl

theorem execVmAdd_cases (d : Nat) (w : ScaleBits) (s : State) :
    (s.vm.fault = 0#4 ∧ s.vm.len ≠ s.cfg.mapSize ∧ hasThreshold s.vm.tbl d = false ∧ execVmAdd d w s =
      .next (respond (some .vm) (.ok .unit)
        { s with vm := { s.vm with tbl := insertEntry s.vm.tbl { thr := d, scale := w } } })) ∨
    (s.vm.fault = 0#4 ∧ s.vm.len = s.cfg.mapSize ∧ execVmAdd d w s =
      .next (respond (some .vm) (.fault .configMapCapacity) { s with vm := { s.vm with fault := 2#4 } })) ∨
    (s.vm.fault = 0#4 ∧ s.vm.len ≠ s.cfg.mapSize ∧ hasThreshold s.vm.tbl d = true ∧ execVmAdd d w s =
      .next (respond (some .vm) (.fault .configDuplicateThreshold) { s with vm := { s.vm with fault := 6#4 } })) ∨
    (s.vm.fault ≠ 0#4 ∧ execVmAdd d w s = .next (respond (some .vm) (.fault .unitFaulted) s)) := by
  unfold execVmAdd
  by_cases h : s.vm.fault = 0#4
  · rw [inService_of_ok .vm (some .vm) s _ h]
    by_cases hl : s.vm.len = s.cfg.mapSize
    · exact .inr (.inl ⟨h, hl, by rw [if_pos hl]; rfl⟩)
    · rw [if_neg hl]
      cases hd : hasThreshold s.vm.tbl d
      · exact .inl ⟨h, hl, rfl, rfl⟩
      · exact .inr (.inr (.inl ⟨h, hl, rfl, rfl⟩))
  · exact .inr (.inr (.inr ⟨h, by rw [inService_of_faulted .vm (some .vm) s _ h]⟩))

theorem execVmMap_cases (d : Nat) (a : Bool) (w : Tick) (s : State) :
    (s.vm.fault = 0#4 ∧ a = false ∧ execVmMap d a w s = .next (respond (some .vm) (.ok (.mapped none)) s)) ∨
    (s.vm.fault = 0#4 ∧ a = true ∧ execVmMap d a w s =
      .next (respond (some .vm) (.ok (.mapped (mapTick d w s).1)) (mapTick d w s).2)) ∨
    (s.vm.fault ≠ 0#4 ∧ execVmMap d a w s = .next (respond (some .vm) (.fault .unitFaulted) s)) := by
  unfold execVmMap
  cases a
  · rcases inService_cases .vm (some .vm) s _ with ⟨h, e⟩ | ⟨h, e⟩
    · exact .inl ⟨h, rfl, by rw [e]; rfl⟩
    · exact .inr (.inr ⟨h, by rw [e]⟩)
  · rcases inService_cases .vm (some .vm) s _ with ⟨h, e⟩ | ⟨h, e⟩
    · exact .inr (.inl ⟨h, rfl, by rw [e]; rfl⟩)
    · exact .inr (.inr ⟨h, by rw [e]⟩)

end Sys2Proof.Machine
end

