-- ==== Sys2Proof/Laws/Filter.lean ====
section
/-!
SUPPORT. The filter step: what each of its parts does, bit by bit, and that it keeps the invariant of
10_state.md R41.
-/

namespace Sys2Proof.Machine

/-- A slot write changes one bit (40_debounce_filter.md R122). -/
theorem writeSlot_getLsbD (h : BitVec 8) (i : BitVec 3) (s : Level) (j : Nat) (hj : j < 8) :
    (writeSlot h i s).getLsbD j = if j = i.toNat then s else h.getLsbD j := by
  unfold writeSlot
  by_cases hij : j = i.toNat
  · subst hij
    simp [hj]
  · by_cases hlt : j < i.toNat
    · simp [hj, hij, hlt]
    · have h0 : ¬ (j - i.toNat = 0) := by omega
      have h1 : ¬ (i.toNat = j) := fun h => hij h.symm
      simp [hj, hij, hlt, h0]

/-- The index after a step (40_debounce_filter.md R123); with a legal size nothing is cut off. -/
theorem advanceIndex_toNat (n : Nat) (i : BitVec 3) (h1 : 0 < n) (h8 : n ≤ 8) :
    (advanceIndex n i).toNat = (i.toNat + 1) % n := by
  have := Nat.mod_lt (i.toNat + 1) h1
  simp only [advanceIndex, BitVec.toNat_ofNat]
  omega

/-- The compare part has three cases (40_debounce_filter.md R124). -/
theorem compareHistory_cases (n : Nat) (h : BitVec 8) (st : Bool) :
    (h = mask n ∧ st = false ∧ compareHistory n h st = (true, some .roseStable)) ∨
    (¬ (h = mask n ∧ st = false) ∧ h = 0#8 ∧ st = true ∧
      compareHistory n h st = (false, some .fellStable)) ∨
    (¬ (h = mask n ∧ st = false) ∧ ¬ (h = 0#8 ∧ st = true) ∧ compareHistory n h st = (st, none)) := by
  by_cases h1 : h = mask n ∧ st = false
  · left
    exact ⟨h1.1, h1.2, by simp [compareHistory, h1]⟩
  · right
    by_cases h2 : h = 0#8 ∧ st = true
    · left
      exact ⟨h1, h2.1, h2.2, by simp only [compareHistory, if_neg h1, if_pos h2]⟩
    · right
      exact ⟨h1, h2, by simp only [compareHistory, if_neg h1, if_neg h2]⟩

@[simp] theorem filterStep_history (n : Nat) (al : Bool) (f : Filter) (raw : Level) :
    (filterStep n al f raw).1.history = writeSlot f.history f.index (normalise al raw) := rfl

@[simp] theorem filterStep_index (n : Nat) (al : Bool) (f : Filter) (raw : Level) :
    (filterStep n al f raw).1.index = advanceIndex n f.index := rfl

theorem filterStep_stable (n : Nat) (al : Bool) (f : Filter) (raw : Level) :
    (filterStep n al f raw).1.stable =
      (compareHistory n (writeSlot f.history f.index (normalise al raw)) f.stable).1 := rfl

theorem filterStep_edge (n : Nat) (al : Bool) (f : Filter) (raw : Level) :
    (filterStep n al f raw).2 =
      (compareHistory n (writeSlot f.history f.index (normalise al raw)) f.stable).2 := rfl

theorem mask_toNat (n : Nat) (h : n ≤ 8) : (mask n).toNat = 2 ^ n - 1 := by
  interval_cases n <;> rfl

theorem mask_ne_zero (n : Nat) (h2 : 2 ≤ n) (h8 : n ≤ 8) : mask n ≠ 0#8 := by
  interval_cases n <;> decide

/-- Bit `j` of `MASK(N)` is 1 exactly for the `N` slots (10_state.md R35). -/
theorem mask_getLsbD (n : Nat) (h : n ≤ 8) (j : Nat) : (mask n).getLsbD j = decide (j < n) := by
  rw [BitVec.getLsbD, mask_toNat n h, Nat.testBit_two_pow_sub_one]

theorem sizeLegal_iff (n : Nat) : sizeLegal n = true ↔ 2 ≤ n ∧ n ≤ 8 := by simp [sizeLegal]

theorem constructionFault_eq_zero_iff (n : Nat) : constructionFault n = 0#4 ↔ sizeLegal n = true := by
  unfold constructionFault
  by_cases h : sizeLegal n = true <;> simp [h, faultBits]

/-- Bits `N` to 7 stay 0 (10_state.md R41, I-a). -/
theorem writeSlot_lt (n : Nat) (h : BitVec 8) (i : BitVec 3) (s : Level) (hh : h.toNat < 2 ^ n)
    (hi : i.toNat < n) : (writeSlot h i s).toNat < 2 ^ n := by
  apply Nat.lt_pow_two_of_testBit
  intro j hj
  by_cases h8 : j < 8
  · have := writeSlot_getLsbD h i s j h8
    rw [if_neg (by omega)] at this
    rw [← BitVec.getLsbD, this, BitVec.getLsbD]
    exact Nat.testBit_lt_two_pow (lt_of_lt_of_le hh (Nat.pow_le_pow_right (by omega) hj))
  · rw [← BitVec.getLsbD]
    exact BitVec.getLsbD_of_ge _ _ (by omega)

/-- A fresh filter of any size keeps 10_state.md R41. -/
theorem freshFilter_inv (n : Nat) (h2 : 2 ≤ n) (h8 : n ≤ 8) : freshFilter.Inv n := by
  interval_cases n <;> decide

/-- The filter step keeps 10_state.md R41. -/
theorem filterStep_inv (n : Nat) (al : Bool) (f : Filter) (raw : Level) (h2 : 2 ≤ n) (h8 : n ≤ 8)
    (hf : f.Inv n) : (filterStep n al f raw).1.Inv n := by
  obtain ⟨hh, hi, -, -⟩ := hf
  refine ⟨writeSlot_lt n _ _ _ hh hi, ?_, ?_, ?_⟩
  · rw [filterStep_index, advanceIndex_toNat n _ (by omega) h8]
    exact Nat.mod_lt _ (by omega)
  all_goals
    simp only [filterStep_history, filterStep_stable]
    intro he
    have hm := mask_ne_zero n h2 h8
    rcases compareHistory_cases n (writeSlot f.history f.index (normalise al raw)) f.stable with
      ⟨a, b, c⟩ | ⟨a, b, c, d⟩ | ⟨a, b, c⟩
    all_goals simp_all

end Sys2Proof.Machine
end

