-- ==== Sys2Proof/Laws/History.lean ====
section
/-!
SUPPORT. What the hidden history of a filter holds after any run of polls (10_state.md R41, I-e): the last `N`
normalised samples, and zeros for the samples before the first.
-/

namespace Sys2Proof.Machine

/-- The `k`-th most recent normalised sample of a run (`k = 0` the last one); false before the first sample. -/
def recentSample (al : Bool) (raws : List Bool) (k : Nat) : Bool :=
  ((raws.reverse.map fun raw => normalise al raw)[k]?).getD false

theorem recentSample_nil (al : Bool) (k : Nat) : recentSample al [] k = false := rfl

theorem recentSample_snoc_zero (al : Bool) (raws : List Bool) (raw : Bool) :
    recentSample al (raws ++ [raw]) 0 = normalise al raw := by simp [recentSample]

theorem recentSample_snoc_succ (al : Bool) (raws : List Bool) (raw : Bool) (k : Nat) :
    recentSample al (raws ++ [raw]) (k + 1) = recentSample al raws k := by simp [recentSample]

theorem feedFilter_append (n : Nat) (al : Bool) (f : Filter) (xs ys : List Bool) :
    feedFilter n al f (xs ++ ys) = feedFilter n al (feedFilter n al f xs) ys := by
  induction xs generalizing f with
  | nil => rfl
  | cons x xs ih => exact ih _

theorem feedEdges_append (n : Nat) (al : Bool) (f : Filter) (xs ys : List Bool) :
    feedEdges n al f (xs ++ ys) = feedEdges n al f xs ++ feedEdges n al (feedFilter n al f xs) ys := by
  induction xs generalizing f with
  | nil => rfl
  | cons x xs ih => exact congrArg (_ :: ·) (ih _)

theorem feedFilter_snoc (n : Nat) (al : Bool) (f : Filter) (raws : List Bool) (raw : Bool) :
    feedFilter n al f (raws ++ [raw]) = (filterStep n al (feedFilter n al f raws) raw).1 :=
  feedFilter_append n al f raws [raw]

theorem feedFilter_inv (n : Nat) (al : Bool) (f : Filter) (raws : List Bool) (h2 : 2 ≤ n) (h8 : n ≤ 8)
    (hf : f.Inv n) : (feedFilter n al f raws).Inv n := by
  induction raws generalizing f with
  | nil => exact hf
  | cons x xs ih => exact ih _ (filterStep_inv n al f x h2 h8 hf)

/-- Slot `j` holds the sample taken `(index - 1 - j) mod N` polls before the last one (10_state.md R41, I-e). -/
theorem feedFilter_slots (n : Nat) (al : Bool) (raws : List Bool) (h2 : 2 ≤ n) (h8 : n ≤ 8) :
    (feedFilter n al freshFilter raws).index.toNat = raws.length % n ∧
    ∀ j, j < n → (feedFilter n al freshFilter raws).history.getLsbD j =
      recentSample al raws (((feedFilter n al freshFilter raws).index.toNat + n - 1 - j) % n) := by
  induction raws using List.reverseRecOn with
  | nil =>
    refine ⟨by simp [feedFilter, freshFilter], fun j hj => ?_⟩
    rw [recentSample_nil]
    exact BitVec.getLsbD_zero
  | append_singleton raws raw ih =>
    obtain ⟨hi, hs⟩ := ih
    rw [feedFilter_snoc]
    generalize feedFilter n al freshFilter raws = f at hi hs
    have hlt : f.index.toNat < n := by
      rw [hi]
      exact Nat.mod_lt _ (by omega)
    have hnew : (advanceIndex n f.index).toNat = (f.index.toNat + 1) % n :=
      advanceIndex_toNat n f.index (by omega) h8
    refine ⟨?_, fun j hj => ?_⟩
    · rw [filterStep_index, hnew, hi, List.length_append, List.length_singleton, Nat.mod_add_mod]
    · rw [filterStep_history, filterStep_index, hnew, writeSlot_getLsbD _ _ _ _ (by omega)]
      by_cases hji : j = f.index.toNat
      · have hz : ((f.index.toNat + 1) % n + n - 1 - j) % n = 0 := by
          by_cases hw : f.index.toNat + 1 = n
          · rw [hw, Nat.mod_self]
            rw [show 0 + n - 1 - j = 0 by omega, Nat.zero_mod]
          · rw [Nat.mod_eq_of_lt (show f.index.toNat + 1 < n by omega)]
            rw [show f.index.toNat + 1 + n - 1 - j = n by omega, Nat.mod_self]
        rw [if_pos hji, hz, recentSample_snoc_zero]
      · rw [if_neg hji, hs j hj]
        have hk : ((f.index.toNat + 1) % n + n - 1 - j) % n = (f.index.toNat + n - 1 - j) % n + 1 := by
          by_cases hlj : j < f.index.toNat
          · rw [Nat.mod_eq_sub_mod (show n ≤ f.index.toNat + n - 1 - j by omega),
              Nat.mod_eq_of_lt (show f.index.toNat + n - 1 - j - n < n by omega)]
            by_cases hw : f.index.toNat + 1 = n
            · rw [hw, Nat.mod_self, Nat.mod_eq_of_lt (show 0 + n - 1 - j < n by omega)]
              omega
            · rw [Nat.mod_eq_of_lt (show f.index.toNat + 1 < n by omega),
                Nat.mod_eq_sub_mod (show n ≤ f.index.toNat + 1 + n - 1 - j by omega),
                Nat.mod_eq_of_lt (show f.index.toNat + 1 + n - 1 - j - n < n by omega)]
              omega
          · rw [Nat.mod_eq_of_lt (show f.index.toNat + 1 < n by omega),
              Nat.mod_eq_of_lt (show f.index.toNat + 1 + n - 1 - j < n by omega),
              Nat.mod_eq_of_lt (show f.index.toNat + n - 1 - j < n by omega)]
            omega
        rw [hk, recentSample_snoc_succ]

/-- Every recent sample stands in some slot. -/
theorem exists_slot (n i k : Nat) (hi : i < n) (hk : k < n) : ∃ j, j < n ∧ (i + n - 1 - j) % n = k := by
  by_cases h : k < i
  · refine ⟨i - 1 - k, by omega, ?_⟩
    rw [show i + n - 1 - (i - 1 - k) = n + k by omega, Nat.add_mod_left, Nat.mod_eq_of_lt hk]
  · refine ⟨i + n - 1 - k, by omega, ?_⟩
    rw [show i + n - 1 - (i + n - 1 - k) = k by omega, Nat.mod_eq_of_lt hk]

/-- The history of a run holds one value `b` in all its slots exactly when the last `N` samples are `b`. -/
theorem feedFilter_unanimous (n : Nat) (al b : Bool) (raws : List Bool) (h2 : 2 ≤ n) (h8 : n ≤ 8) :
    (∀ j, j < n → (feedFilter n al freshFilter raws).history.getLsbD j = b) ↔
      ∀ k, k < n → recentSample al raws k = b := by
  obtain ⟨hi, hs⟩ := feedFilter_slots n al raws h2 h8
  have hlt : (feedFilter n al freshFilter raws).index.toNat < n := by
    rw [hi]
    exact Nat.mod_lt _ (by omega)
  constructor
  · intro h k hk
    obtain ⟨j, hj, hjk⟩ := exists_slot n _ k hlt hk
    rw [← hjk, ← hs j hj]
    exact h j hj
  · intro h j hj
    rw [hs j hj]
    exact h _ (Nat.mod_lt _ (by omega))

/-- Two histories with nothing above slot `N - 1` are equal when their slots are. -/
theorem history_eq_of_slots (n : Nat) (x y : BitVec 8) (hx : x.toNat < 2 ^ n) (hy : y.toNat < 2 ^ n)
    (h : ∀ j, j < n → x.getLsbD j = y.getLsbD j) : x = y := by
  apply BitVec.eq_of_getLsbD_eq
  intro j _
  by_cases hj : j < n
  · exact h j hj
  · have hxy : ∀ z : BitVec 8, z.toNat < 2 ^ n → z.getLsbD j = false := fun z hz =>
      Nat.testBit_lt_two_pow (lt_of_lt_of_le hz (Nat.pow_le_pow_right (by omega) (by omega)))
    rw [hxy x hx, hxy y hy]

/-- The comparison with `MASK(N)` asks whether the last `N` samples are all true (40_debounce_filter.md R124). -/
theorem feedFilter_eq_mask_iff (n : Nat) (al : Bool) (raws : List Bool) (h2 : 2 ≤ n) (h8 : n ≤ 8) :
    (feedFilter n al freshFilter raws).history = mask n ↔ ∀ k, k < n → recentSample al raws k = true := by
  rw [← feedFilter_unanimous n al true raws h2 h8]
  have hinv := (feedFilter_inv n al freshFilter raws h2 h8 (freshFilter_inv n h2 h8)).1
  constructor
  · intro h j hj
    rw [h, mask_getLsbD n h8, decide_eq_true hj]
  · intro h
    refine history_eq_of_slots n _ _ hinv ?_ fun j hj => ?_
    · rw [mask_toNat n h8]
      have := Nat.two_pow_pos n
      omega
    · rw [h j hj, mask_getLsbD n h8, decide_eq_true hj]

/-- The comparison with 0 asks whether the last `N` samples are all false (40_debounce_filter.md R124). -/
theorem feedFilter_eq_zero_iff (n : Nat) (al : Bool) (raws : List Bool) (h2 : 2 ≤ n) (h8 : n ≤ 8) :
    (feedFilter n al freshFilter raws).history = 0#8 ↔ ∀ k, k < n → recentSample al raws k = false := by
  rw [← feedFilter_unanimous n al false raws h2 h8]
  have hinv := (feedFilter_inv n al freshFilter raws h2 h8 (freshFilter_inv n h2 h8)).1
  constructor
  · intro h j _
    rw [h]
    exact BitVec.getLsbD_zero
  · intro h
    refine history_eq_of_slots n _ _ hinv (Nat.two_pow_pos n) fun j hj => ?_
    rw [h j hj]
    exact BitVec.getLsbD_zero.symm

end Sys2Proof.Machine
end

