-- ==== Sys2Proof/Laws/PerInstr.lean ====
section
/-!
SUPPORT. Facts about every operation as syntax, one lemma per constructor.
-/

namespace Sys2Proof.Laws

/-- The fields of an operation's command word are legal for its opcode and give the operation back
(30_encoding.md R92, R95): no operand is dropped by the fields, and no unused field is set. -/
def FieldsRoundTrip.Statement (i : Instr) : Prop :=
  (fieldsOfInstr i).op = opcodeBits (opcodeOfInstr i) ∧ (fieldsOfInstr i).z = 0#20 ∧
    unusedFieldsZero (usedFields (opcodeOfInstr i)) (fieldsOfInstr i) = true ∧
    buildInstr (opcodeOfInstr i) (fieldsOfInstr i) = i

/-- The `d` field of a well-formed operation fits its `TW` bits (30_encoding.md R94). -/
def OperandFits.Statement (i : Instr) : Prop :=
  ∀ tw, i.wellFormed tw = true → (fieldsOfInstr i).d < 2 ^ tw

theorem FieldsRoundTrip.dfInit : FieldsRoundTrip.Statement .dfInit := ⟨rfl, rfl, by decide, rfl⟩
theorem FieldsRoundTrip.dfPoll (a : Bool) : FieldsRoundTrip.Statement (.dfPoll a) := ⟨rfl, rfl, by decide +revert, rfl⟩
theorem FieldsRoundTrip.btnInit : FieldsRoundTrip.Statement .btnInit := ⟨rfl, rfl, by decide, rfl⟩
theorem FieldsRoundTrip.btnPoll (a : Bool) (ea : Bool) : FieldsRoundTrip.Statement (.btnPoll a ea) := ⟨rfl, rfl, by decide +revert, rfl⟩
theorem FieldsRoundTrip.btnIsp : FieldsRoundTrip.Statement .btnIsp := ⟨rfl, rfl, by decide, rfl⟩
theorem FieldsRoundTrip.btnIsr : FieldsRoundTrip.Statement .btnIsr := ⟨rfl, rfl, by decide, rfl⟩
theorem FieldsRoundTrip.qdInit : FieldsRoundTrip.Statement .qdInit := ⟨rfl, rfl, by decide, rfl⟩
theorem FieldsRoundTrip.qdPoll (a : Bool) (b : Bool) (ea : Bool) (eb : Bool) : FieldsRoundTrip.Statement (.qdPoll a b ea eb) := ⟨rfl, rfl, by decide +revert, rfl⟩
theorem FieldsRoundTrip.qdTicks : FieldsRoundTrip.Statement .qdTicks := ⟨rfl, rfl, by decide, rfl⟩
theorem FieldsRoundTrip.qdRstt : FieldsRoundTrip.Statement .qdRstt := ⟨rfl, rfl, by decide, rfl⟩
theorem FieldsRoundTrip.vmInit : FieldsRoundTrip.Statement .vmInit := ⟨rfl, rfl, by decide, rfl⟩
theorem FieldsRoundTrip.vmAdd (d : Nat) (w : BitVec 32) : FieldsRoundTrip.Statement (.vmAdd d w) := ⟨rfl, rfl, rfl, rfl⟩
theorem FieldsRoundTrip.vmMap (d : Nat) (a : Bool) (w : BitVec 32) : FieldsRoundTrip.Statement (.vmMap d a w) := ⟨rfl, rfl, rfl, rfl⟩

theorem OperandFits.dfInit : OperandFits.Statement .dfInit := fun _ _ => Nat.two_pow_pos _
theorem OperandFits.dfPoll (a : Bool) : OperandFits.Statement (.dfPoll a) := fun _ _ => Nat.two_pow_pos _
theorem OperandFits.btnInit : OperandFits.Statement .btnInit := fun _ _ => Nat.two_pow_pos _
theorem OperandFits.btnPoll (a : Bool) (ea : Bool) : OperandFits.Statement (.btnPoll a ea) := fun _ _ => Nat.two_pow_pos _
theorem OperandFits.btnIsp : OperandFits.Statement .btnIsp := fun _ _ => Nat.two_pow_pos _
theorem OperandFits.btnIsr : OperandFits.Statement .btnIsr := fun _ _ => Nat.two_pow_pos _
theorem OperandFits.qdInit : OperandFits.Statement .qdInit := fun _ _ => Nat.two_pow_pos _
theorem OperandFits.qdPoll (a : Bool) (b : Bool) (ea : Bool) (eb : Bool) : OperandFits.Statement (.qdPoll a b ea eb) := fun _ _ => Nat.two_pow_pos _
theorem OperandFits.qdTicks : OperandFits.Statement .qdTicks := fun _ _ => Nat.two_pow_pos _
theorem OperandFits.qdRstt : OperandFits.Statement .qdRstt := fun _ _ => Nat.two_pow_pos _
theorem OperandFits.vmInit : OperandFits.Statement .vmInit := fun _ _ => Nat.two_pow_pos _
theorem OperandFits.vmAdd (d : Nat) (w : BitVec 32) : OperandFits.Statement (.vmAdd d w) := fun _ h => of_decide_eq_true h
theorem OperandFits.vmMap (d : Nat) (a : Bool) (w : BitVec 32) : OperandFits.Statement (.vmMap d a w) := fun _ h => of_decide_eq_true h

end Sys2Proof.Laws
end

