-- ==== Sys2Proof/Laws/Scale.lean ====
section
/-!
SUPPORT. The binary32 arithmetic of 43_velocity_map.md R188 and R189: lengths, rounding, exact values.
-/

namespace Sys2Proof.Machine

theorem lt_two_pow_bitLength (n : Nat) : n < 2 ^ bitLength n := by
  unfold bitLength
  split
  · omega
  · exact Nat.lt_log2_self

theorem two_pow_le_of_lt_bitLength (n k : Nat) (h : k < bitLength n) : 2 ^ k ≤ n := by
  unfold bitLength at h
  split at h
  · omega
  · rename_i hn
    exact le_trans (Nat.pow_le_pow_right (by omega) (by omega)) (Nat.log2_self_le hn)

theorem bitLength_le_of_lt (n k : Nat) (h : n < 2 ^ k) : bitLength n ≤ k := by
  by_contra hc
  have := two_pow_le_of_lt_bitLength n k (by omega)
  omega

/-- The rounded quotient is at most half a divisor away. -/
theorem roundHalfEven_near (n d : Nat) (hd : 0 < d) :
    2 * n ≤ 2 * (roundHalfEven n d * d) + d ∧ 2 * (roundHalfEven n d * d) ≤ 2 * n + d := by
  have h := Nat.div_add_mod n d
  have hlt := Nat.mod_lt n hd
  have hm : n / d * d = d * (n / d) := Nat.mul_comm _ _
  have hs : (n / d + 1) * d = d * (n / d) + d := by rw [Nat.add_mul, Nat.one_mul, hm]
  unfold roundHalfEven
  split_ifs <;> (try rw [hs]) <;> (try rw [hm]) <;> omega

/-- A quotient half way between two integers goes to the even one. -/
theorem roundHalfEven_tie_even (n d : Nat) (hd : 0 < d)
    (h : 2 * n = 2 * (roundHalfEven n d * d) + d ∨ 2 * n + d = 2 * (roundHalfEven n d * d)) :
    roundHalfEven n d % 2 = 0 := by
  have hq := Nat.div_add_mod n d
  have hlt := Nat.mod_lt n hd
  have hm : n / d * d = d * (n / d) := Nat.mul_comm _ _
  have hs : (n / d + 1) * d = d * (n / d) + d := by rw [Nat.add_mul, Nat.one_mul, hm]
  unfold roundHalfEven at *
  split_ifs at * <;> (try rw [hs] at h) <;> (try rw [hm] at h) <;> omega

/-- A quotient without a remainder is not rounded. -/
theorem roundHalfEven_exact (n d : Nat) (hd : 0 < d) (h : n % d = 0) : roundHalfEven n d = n / d := by
  unfold roundHalfEven
  rw [h]
  simp [hd]

/-- A value that binary32 holds is not rounded. -/
theorem roundF32_exact (neg : Bool) (x d : Nat) (hd : 0 < d) (hx : representable x = true) :
    roundF32 neg (x * d) d = .fin neg x := by
  simp only [representable, Bool.and_eq_true, decide_eq_true_eq] at hx
  have hq : x / 2 ^ (bitLength x - 24) * 2 ^ (bitLength x - 24) = x :=
    Nat.div_mul_cancel (Nat.dvd_of_mod_eq_zero hx.2)
  have hp : 0 < 2 ^ (bitLength x - 24) := Nat.two_pow_pos _
  unfold roundF32
  rw [Nat.mul_div_cancel x hd]
  have hm : x * d % (d * 2 ^ (bitLength x - 24)) = 0 := by
    rw [Nat.mul_comm x d, Nat.mul_mod_mul_left, hx.2, Nat.mul_zero]
  have hr : roundHalfEven (x * d) (d * 2 ^ (bitLength x - 24)) * 2 ^ (bitLength x - 24) = x := by
    rw [roundHalfEven_exact _ _ (Nat.mul_pos hd hp) hm, Nat.mul_comm x d, Nat.mul_div_mul_left _ _ hd, hq]
  simp only [hr]
  rw [if_neg (by omega)]

/-- A multiple of a power of two with at most 24 significant bits, below `2^128`, is a binary32 value. -/
theorem representable_mul_pow (m k : Nat) (hm : m < 2 ^ 24) (hb : m * 2 ^ k < f32Limit) :
    representable (m * 2 ^ k) = true := by
  have hl : bitLength (m * 2 ^ k) ≤ 24 + k := by
    apply bitLength_le_of_lt
    rw [Nat.pow_add]
    exact Nat.mul_lt_mul_of_pos_right hm (Nat.two_pow_pos k)
  simp only [representable, Bool.and_eq_true, decide_eq_true_eq]
  exact ⟨hb, Nat.mod_eq_zero_of_dvd (Dvd.dvd.mul_left (Nat.pow_dvd_pow 2 (by omega)) m)⟩

/-- A small tick count is a binary32 value. -/
theorem f32OfTick_small (t : Tick) (h : t.toInt.natAbs ≤ 2 ^ 24) :
    f32OfTick t = .fin t.msb (unitsPerOne * t.toInt.natAbs) := by
  have hu : 0 < unitsPerOne := Nat.two_pow_pos 149
  have hb : t.toInt.natAbs * unitsPerOne < f32Limit :=
    Nat.mul_lt_mul_of_pos_right (lt_of_le_of_lt h (Nat.pow_lt_pow_right (by omega) (by omega))) hu
  have hr : representable (t.toInt.natAbs * unitsPerOne) = true := by
    rcases Nat.lt_or_ge t.toInt.natAbs (2 ^ 24) with hlt | hge
    · exact representable_mul_pow _ 149 hlt hb
    · have he : t.toInt.natAbs * unitsPerOne = 2 ^ 23 * 2 ^ 150 := by
        rw [Nat.le_antisymm h hge, unitsPerOne, ← Nat.pow_add, ← Nat.pow_add]
      rw [he] at hb ⊢
      exact representable_mul_pow (2 ^ 23) 150 (Nat.pow_lt_pow_right (by omega) (by omega)) hb
  have := roundF32_exact t.msb _ 1 Nat.one_pos hr
  rwa [Nat.mul_one, Nat.mul_comm] at this

/-- A product of two finite values (43_velocity_map.md R188, step 2). -/
theorem f32Mul_fin (p q : Bool) (u v : Nat) :
    f32Mul (.fin p u) (.fin q v) = roundF32 (p ^^ q) (u * v) unitsPerOne := rfl

theorem f32Mul_fin_nan (p : Bool) (u : Nat) : f32Mul (.fin p u) .nan = .nan := rfl

theorem f32Mul_fin_inf (p q : Bool) (u : Nat) :
    f32Mul (.fin p u) (.inf q) = if u = 0 then .nan else .inf (p ^^ q) := rfl

/-- For a small tick count and a finite scale only the product is rounded. -/
theorem standardScale_small (t : Tick) (s : ScaleBits) (neg : Bool) (u : Nat) (ht : t.toInt.natAbs ≤ 2 ^ 24)
    (hs : f32OfBits s = .fin neg u) :
    standardScale t s = f32ToTick (roundF32 (t.msb ^^ neg) (t.toInt.natAbs * u * unitsPerOne) unitsPerOne) := by
  rw [standardScale, f32OfTick_small t ht, hs, f32Mul_fin, Nat.mul_comm unitsPerOne, Nat.mul_right_comm]

/-- The value of a finite pattern: 24 significant bits and an exponent (30_encoding.md R98). -/
theorem f32OfBits_fin (s : ScaleBits) (neg : Bool) (u : Nat) (h : f32OfBits s = .fin neg u) :
    ∃ m k, u = m * 2 ^ k ∧ m < 2 ^ 24 ∧ k ≤ 253 := by
  have h1 := (s.extractLsb' 23 8).isLt
  have h2 := (s.extractLsb' 0 23).isLt
  unfold f32OfBits at h
  simp only at h
  split_ifs at h
  · cases h
    exact ⟨(s.extractLsb' 0 23).toNat, 0, by rw [Nat.pow_zero, Nat.mul_one], by omega, by omega⟩
  · cases h
    exact ⟨_, _, rfl, by omega, by omega⟩

/-- What the standard leaves to other instantiations is only what P2 does not fix (43_velocity_map.md R187). -/
theorem scaleApply_implementation (k : Nat) (t : Tick) (s : ScaleBits) :
    (∃ v, fixedByP2 t s = some v ∧ scaleApply (.implementation k) t s = v) ∨
    (fixedByP2 t s = none ∧ scaleApply (.implementation k) t s = Config.freeScale k t s) := by
  cases h : fixedByP2 t s with
  | none => exact .inr ⟨rfl, by simp [scaleApply, h]⟩
  | some v => exact .inl ⟨v, rfl, by simp [scaleApply, h]⟩

end Sys2Proof.Machine
end

