-- ==== Sys2Proof/Laws/Step.lean ====
section
/-!
SUPPORT. What a step can do, said once.
-/

namespace Sys2Proof.Machine

/-- What a presented number turns out to be. -/
theorem readCommand_cases (tw w : Nat) :
    (w < 2 ^ (64 + tw) ∧ ∃ i, decode tw (BitVec.ofNat (64 + tw) w) = .ok i ∧ readCommand tw w = .instr i) ∨
    (w < 2 ^ (64 + tw) ∧ ∃ e, decode tw (BitVec.ofNat (64 + tw) w) = .error e ∧ readCommand tw w = .illegal e) ∨
    (2 ^ (64 + tw) ≤ w ∧ readCommand tw w = .tooWide) := by
  unfold readCommand isCommandWord
  by_cases h : w < 2 ^ (64 + tw)
  · cases hd : decode tw (BitVec.ofNat (64 + tw) w) with
    | ok i => exact .inl ⟨h, i, rfl, by rw [if_pos (decide_eq_true h)]⟩
    | error e => exact .inr (.inl ⟨h, e, rfl, by rw [if_pos (decide_eq_true h)]⟩)
  · exact .inr (.inr ⟨not_lt.1 h, by rw [if_neg (by simpa using h)]⟩)

/-- If a step answers a next state, it held, took an idle edge, was reset, answered an illegal word, or ran the
operation of a legal word. -/
theorem step_cases (s t : State) (h : step s = .next t) :
    (s.inp = [] ∧ t = s) ∨
    ∃ x rest, s.inp = x :: rest ∧
      ((x = .idle ∧ t = { s with inp := rest }) ∨
       (x = .reset ∧ t = { State.resetOf s.cfg with inp := rest }) ∨
       ∃ w, x = .command w ∧ w < 2 ^ (64 + s.cfg.tw) ∧
         ((∃ e, decode s.cfg.tw (BitVec.ofNat (64 + s.cfg.tw) w) = .error e ∧
             t = { s with inp := rest, rsp := some (.fault .illegalCommand) }) ∨
          (∃ i, decode s.cfg.tw (BitVec.ofNat (64 + s.cfg.tw) w) = .ok i ∧
             exec i { s with inp := rest } = .next t))) := by
  unfold step takeInput at h
  cases hi : s.inp with
  | nil =>
    rw [hi] at h
    cases h
    exact .inl ⟨rfl, rfl⟩
  | cons x rest =>
    refine .inr ⟨x, rest, rfl, ?_⟩
    rw [hi] at h
    cases x with
    | reset =>
      cases h
      exact .inr (.inl ⟨rfl, rfl⟩)
    | idle =>
      cases h
      exact .inl ⟨rfl, rfl⟩
    | command w =>
      refine .inr (.inr ⟨w, rfl, ?_⟩)
      rcases readCommand_cases s.cfg.tw w with ⟨hw, i, hd, hr⟩ | ⟨hw, e, hd, hr⟩ | ⟨hw, hr⟩
      · simp only [hr] at h
        exact ⟨hw, .inr ⟨i, hd, h⟩⟩
      · simp only [hr] at h
        cases h
        exact ⟨hw, .inl ⟨e, hd, rfl⟩⟩
      · simp only [hr] at h
        cases h

end Sys2Proof.Machine
end

