-- ==== Sys2Proof/Tests/Slice0.lean ====
section
/-!
SUPPORT. Tests of the model on small states, one step each, and for every obligation with hypotheses a witness
that meets them.  Expected values are the spec's: its encodings, its examples, its test vectors.
-/

namespace Sys2Proof.Tests

open Sys2Proof Sys2Proof.Machine

/-! ### Helpers -/

/-- The reset configuration with one size and one polarity for every filter and a map of `m` entries. -/
def cfgOf (n : Nat) (al : Bool) (m : Nat) : Cfg :=
  { Config.resetCfg with dfN := n, dfAL := al, btnN := n, btnAL := al, qdN := n, qdAL := al, mapSize := m }

/-- Right after reset under that configuration. -/
def fresh (n : Nat) (al : Bool) (m : Nat) : State := State.resetOf (cfgOf n al m)

/-- A filter of size 2 that has seen one active sample since its level was 0. -/
def half : Filter := { history := 0x01#8, index := 1#3, stable := false }

/-- The state after an operation. -/
def after (i : Instr) (s : State) : Option State :=
  match exec i s with
  | .next t => some t
  | .fault _ => none
  | .refused _ => none

/-- What an operation answers. -/
def answer (i : Instr) (s : State) : Option Response := (after i s).bind State.rsp

/-- The state after a step. -/
def stepped (s : State) : Option State :=
  match step s with
  | .next t => some t
  | .fault _ => none
  | .refused _ => none

/-- Why a step is refused. -/
def stepRefusal (s : State) : Option Refusal :=
  match step s with
  | .next _ => none
  | .fault _ => none
  | .refused r => some r

/-- A state whose map has these entries and this last instant. -/
def withMap (tbl : List Entry) (last : Option Nat) (m : Nat) : State :=
  { fresh 2 false m with vm := { tbl := tbl, lastValid := last.isSome, lastInstant := last.getD 0, fault := 0#4 } }

/-- The table of 43_velocity_map.md R173. -/
def referenceTable : List Entry :=
  [⟨100000, 0x41000000#32⟩, ⟨250000, 0x40800000#32⟩, ⟨500000, 0x40000000#32⟩, ⟨1000000, 0x3F800000#32⟩]

/-- A state with one unit out of service (a fault of `VM.ADD`). -/
def faultedMap : State :=
  { fresh 2 false 1 with vm := { tbl := [⟨100, 0x41000000#32⟩], lastValid := false, lastInstant := 0, fault := 2#4 } }

/-! ### Well-formedness: one ill-formed term for each check -/

theorem test_wf_vmAdd_refused : (Instr.vmAdd (2 ^ 64) 0#32).wellFormed 64 = false := by decide
theorem test_wf_vmMap_refused : (Instr.vmMap (2 ^ 64) true 0#32).wellFormed 64 = false := by decide
theorem test_wf_vmAdd_accepted : (Instr.vmAdd (2 ^ 64 - 1) 0#32).wellFormed 64 = true := by decide
theorem test_wf_vmMap_accepted : (Instr.vmMap (2 ^ 64 - 1) true 0#32).wellFormed 64 = true := by decide

/-! ### Decoding: one word of each operation, from the table of 30_encoding.md R110 -/

theorem test_decode_dfInit : decode 64 0x10000000000000000000000000000000#128 = .ok .dfInit := by decide +kernel
theorem test_decode_dfPoll : decode 64 0x11000001000000000000000000000000#128 = .ok (.dfPoll true) := by
  decide +kernel
theorem test_decode_btnInit : decode 64 0x20000000000000000000000000000000#128 = .ok .btnInit := by decide +kernel
theorem test_decode_btnPoll : decode 64 0x21000004000000000000000000000000#128 = .ok (.btnPoll false true) := by
  decide +kernel
theorem test_decode_btnIsp : decode 64 0x22000000000000000000000000000000#128 = .ok .btnIsp := by decide +kernel
theorem test_decode_btnIsr : decode 64 0x23000000000000000000000000000000#128 = .ok .btnIsr := by decide +kernel
theorem test_decode_qdInit : decode 64 0x30000000000000000000000000000000#128 = .ok .qdInit := by decide +kernel
/-- `QD.POLL 0, 1`, and 95_test_vectors.md program P5 row 6: `err, err`. -/
theorem test_decode_qdPoll :
    decode 64 0x31000002000000000000000000000000#128 = .ok (.qdPoll false true false false) ∧
    decode 64 0x3100000C000000000000000000000000#128 = .ok (.qdPoll false false true true) := by decide +kernel
theorem test_decode_qdTicks : decode 64 0x32000000000000000000000000000000#128 = .ok .qdTicks := by decide +kernel
theorem test_decode_qdRstt : decode 64 0x33000000000000000000000000000000#128 = .ok .qdRstt := by decide +kernel
theorem test_decode_vmInit : decode 64 0x40000000000000000000000000000000#128 = .ok .vmInit := by decide +kernel
theorem test_decode_vmAdd :
    decode 64 0x410000004100000000000000000186A0#128 = .ok (.vmAdd 100000 0x41000000#32) := by decide +kernel
theorem test_decode_vmMap :
    decode 64 0x42000001FFFFFFFF00000000000AAE60#128 = .ok (.vmMap 700000 true (-1#32)) := by decide +kernel

/-- Illegal words: a reserved opcode, a bit of `z`, and a field the operation does not use (R102, R103). -/
theorem test_decode_illegal :
    decode 64 0x43000000000000000000000000000000#128 = .error .reservedOpcode ∧
    decode 64 0x11000010000000000000000000000000#128 = .error .reservedBitSet ∧
    decode 64 0x11000002000000000000000000000000#128 = .error .unusedFieldSet ∧
    decode 64 0x10000000000000000000000000000001#128 = .error .unusedFieldSet := by decide +kernel

/-- The encoder writes the same words. -/
theorem test_encode :
    encode 64 (.vmAdd 100000 0x41000000#32) = 0x410000004100000000000000000186A0#128 ∧
    encode 64 (.qdPoll false true false false) = 0x31000002000000000000000000000000#128 ∧
    encode 64 (.btnPoll false true) = 0x21000004000000000000000000000000#128 := by decide +kernel

/-- The general bit positions at another `TW`: 8 bits of `d` below `w` (R94). -/
theorem test_decode_tw8 : decode 8 0x4200000100000003FF#72 = .ok (.vmMap 255 true 3#32) := by decide +kernel

theorem test_decodeTableWord :
    decodeTableWord 128 0x21000001000000000000000000000000 = some (.btnPoll true false) ∧
    decodeTableWord 128 0x43000000000000000000000000000000 = none := by decide +kernel

/-! ### Each operation, one step -/

/-- 40_debounce_filter.md R127: sizes 2 and 8 are legal; 0, 1 and 9 fault. -/
theorem test_dfInit_sizes :
    ([2, 8].map fun n => answer .dfInit (fresh n false 4)) = [some (.ok .unit), some (.ok .unit)] ∧
    ([0, 1, 9].map fun n => answer .dfInit (fresh n false 4)) =
      [some (.fault .configFilterSize), some (.fault .configFilterSize), some (.fault .configFilterSize)] := by decide
/-- 40_debounce_filter.md R128, first call of the example. -/
theorem test_dfPoll_first :
    (after (.dfPoll true) (fresh 2 false 4)).map (fun t => (t.rsp, t.df.f)) =
      some (some (.ok (.edge none)), { history := 0x01#8, index := 1#3, stable := false }) := by decide
/-- 40_debounce_filter.md R128, second call: `rose`, the index wraps. -/
theorem test_dfPoll_rose :
    (after (.dfPoll true) { fresh 2 false 4 with df := { f := half, fault := 0#4 } }).map (fun t => (t.rsp, t.df.f)) =
      some (some (.ok (.edge (some .roseStable))), { history := 0x03#8, index := 0#3, stable := true }) := by decide
/-- 41_button_switch.md R141: a fresh button reads released. -/
theorem test_btnInit :
    (after .btnInit { fresh 4 false 4 with btn := { f := { half with stable := true }, fault := 0#4 } }).map
      (fun t => (t.rsp, t.btn)) = some (some (.ok .unit), { f := freshFilter, fault := 0#4 }) := by decide
/-- 41_button_switch.md R142, the second call of the active-low example. -/
theorem test_btnPoll_activeLow :
    answer (.btnPoll false false) { fresh 2 true 4 with btn := { f := half, fault := 0#4 } } =
      some (.ok (.event (some .pressed))) := by decide
/-- 60_exceptions.md R208: on a faulted unit a failed read reports `UnitFaulted`, else `PinError`. -/
theorem test_btnPoll_faultOrder :
    answer (.btnPoll true true) (fresh 9 false 4) = some (.fault .unitFaulted) ∧
    answer (.btnPoll true true) (fresh 4 false 4) = some (.fault .pinError) := by decide
/-- 41_button_switch.md R145: right after reset `BTN.ISP` gives 0. -/
theorem test_btnIsp : answer .btnIsp (fresh 4 true 4) = some (.ok (.bit false)) := by decide
/-- 41_button_switch.md R146: right after reset `BTN.ISR` gives 1. -/
theorem test_btnIsr : answer .btnIsr (fresh 4 true 4) = some (.ok (.bit true)) := by decide
/-- 42_quadrature_decoder.md R151: the accumulator is cleared. -/
theorem test_qdInit :
    (after .qdInit { fresh 2 false 4 with qd := { fa := half, fb := half, ticks := 7#32, fault := 0#4 } }).map State.qd =
      some { fa := freshFilter, fb := freshFilter, ticks := 0#32, fault := 0#4 } := by decide
/-- 42_quadrature_decoder.md R152: A rises while B is 0. -/
theorem test_qdPoll_minusOne :
    (after (.qdPoll true false false false)
        { fresh 2 false 4 with qd := { fa := half, fb := freshFilter, ticks := 0#32, fault := 0#4 } }).map
      (fun t => (t.rsp, t.qd.ticks)) = some (some (.ok (.direction (some .minusOne))), 0xFFFFFFFF#32) := by decide
/-- 42_quadrature_decoder.md R158: the accumulator wraps upward. -/
theorem test_qdPoll_wraps :
    (after (.qdPoll false true false false)
        { fresh 2 false 4 with qd := { fa := freshFilter, fb := half, ticks := 0x7FFFFFFF#32, fault := 0#4 } }).map
      (fun t => (t.rsp, t.qd.ticks)) = some (some (.ok (.direction (some .plusOne))), 0x80000000#32) := by decide
/-- 42_quadrature_decoder.md R161, first answer of the example. -/
theorem test_qdTicks :
    (after .qdTicks { fresh 2 false 4 with qd := { fa := half, fb := half, ticks := -7#32, fault := 0#4 } }).map
      (fun t => (t.rsp, t.qd.ticks)) = some (some (.ok (.ticks (-7#32))), -7#32) := by decide
/-- 42_quadrature_decoder.md R161: only the accumulator is cleared. -/
theorem test_qdRstt :
    (after .qdRstt { fresh 2 false 4 with qd := { fa := half, fb := half, ticks := -7#32, fault := 0#4 } }).map
      (fun t => (t.rsp, t.qd)) =
      some (some (.ok .unit), { fa := half, fb := half, ticks := 0#32, fault := 0#4 }) := by decide
/-- 43_velocity_map.md R171: the one way to empty the map and to leave its faults. -/
theorem test_vmInit :
    (after .vmInit faultedMap).map (fun t => (t.rsp, t.vm)) =
      some (some (.ok .unit), { tbl := [], lastValid := false, lastInstant := 0, fault := 0#4 }) := by decide
/-- 43_velocity_map.md R176, the example. -/
theorem test_vmAdd_sorts :
    (after (.vmAdd 100000 0x41000000#32) (withMap [⟨250000, 0x40800000#32⟩] none 4)).map (fun t => (t.rsp, t.vm.tbl)) =
      some (some (.ok .unit), [⟨100000, 0x41000000#32⟩, ⟨250000, 0x40800000#32⟩]) := by decide
/-- 43_velocity_map.md R177: a duplicate offered to a full table reports the capacity. -/
theorem test_vmAdd_faultOrder :
    answer (.vmAdd 5 0#32) (withMap [⟨5, 0#32⟩] none 1) = some (.fault .configMapCapacity) ∧
    answer (.vmAdd 5 0#32) (withMap [⟨5, 0#32⟩] none 2) = some (.fault .configDuplicateThreshold) := by decide
/-- 43_velocity_map.md R181, the example: 400000 after the last tick falls in the 500000 bucket. -/
theorem test_vmMap_scales :
    (after (.vmMap 700000 true (-1#32)) (withMap referenceTable (some 300000) 4)).map
      (fun t => (t.rsp, t.vm.lastInstant)) = some (some (.ok (.mapped (some (-2#32)))), 700000) := by decide +kernel
/-- 43_velocity_map.md R192 (a) and R185: the largest threshold itself is unscaled; an earlier instant is lost. -/
theorem test_vmMap_edges :
    answer (.vmMap 1300000 true 3#32) (withMap referenceTable (some 300000) 4) = some (.ok (.mapped (some 3#32))) ∧
    answer (.vmMap 299999 true 3#32) (withMap referenceTable (some 300000) 4) = some (.ok (.mapped none)) := by
  decide +kernel

/-! ### The response word, the steps, the ports and the text -/

/-- 30_encoding.md R101, last line. -/
theorem test_responseWord :
    responseWord (.ok (.direction (some .plusOne))) = 0x0100000001#40 ∧
    responseWord (.ok (.direction (some .minusOne))) = 0x01FFFFFFFF#40 ∧
    responseWord (.ok .unit) = 0x0000000000#40 ∧ responseWord (.fault .pinError) = 0x3000000000#40 := by decide

/-- The first operation after reset, placed where the step takes its next input. -/
theorem test_step_first :
    stepped (State.reset.withFetchWord 128 0x23000000000000000000000000000000) =
      some { State.reset with rsp := some (.ok (.bit true)) } := by decide +kernel

/-- 95_test_vectors.md program P5 row 11: the illegal word. -/
theorem test_step_illegal :
    stepped (State.reset.withFetchWord 128 0x43000000000000000000000000000000) =
      some { State.reset with rsp := some (.fault .illegalCommand) } := by decide +kernel

/-- A number of more than 128 bits is no command word (30_encoding.md R93). -/
theorem test_step_tooWide :
    stepRefusal { State.reset with inp := [.command (2 ^ 128)] } = some .notACommandWord := by decide +kernel

/-- The strobe `btn_poll` with `btn_err` is `BTN.POLL` with `ea` (30_encoding.md R107). -/
theorem test_ports_sample :
    samplePorts 64
      { rst := false, dfInit := false, dfPoll := false, dfRaw := false, btnInit := false, btnPoll := true,
        btnRaw := false, btnErr := true, qdInit := false, qdPoll := false, qdA := false, qdB := false,
        qdErrA := false, qdErrB := false, qdRstt := false, vmInit := false, vmAdd := false, vmThr := 0,
        vmScale := 0#32, vmMap := false, vmNow := 0, vmTickValid := false, vmTick := 0#32 } =
      .ok (.command 0x21000004000000000000000000000000) := by decide +kernel

/-- The text forms of 30_encoding.md R110 and R111. -/
theorem test_assemble_operation :
    assemble 64 "VM.ADD 100_000, 8.0 ; => ok" = some [.vmAdd 100000 0x41000000#32] := by decide +kernel
theorem test_assemble_pseudo :
    assemble 64 "RESET\nDF.FEED 110\n.rep 2 QD.POLL 0, err" =
      some [.dfInit, .btnInit, .qdInit, .vmInit, .dfPoll true, .dfPoll true, .dfPoll false,
        .qdPoll false false false true, .qdPoll false false false true] := by decide +kernel
/-- 30_encoding.md R112. -/
theorem test_responseText :
    responseText (.ok (.mapped (some (-8#32)))) = "-8" ∧ responseText (.ok (.direction (some .plusOne))) = "+1" ∧
    responseText (.fault .pinError) = "fault(PinError)" := by decide +kernel

/-! ### Witnesses: the hypotheses of each obligation are met together -/

/-- `ResetLeavesSpecValues`, `ResetInputRestoresResetState`. -/
theorem test_witness_reset : ({ faultedMap with inp := [.reset, .idle] } : State).inp = .reset :: [.idle] := rfl

/-- The four `INIT` statements: sizes at both ends of the legal range, and just outside it. -/
theorem test_witness_init :
    (2 ≤ (fresh 2 false 4).cfg.dfN ∧ (fresh 2 false 4).cfg.dfN ≤ 8) ∧
    (2 ≤ (fresh 8 false 4).cfg.btnN ∧ (fresh 8 false 4).cfg.btnN ≤ 8) ∧
    ¬ (2 ≤ (fresh 1 false 4).cfg.qdN ∧ (fresh 1 false 4).cfg.qdN ≤ 8) ∧
    ¬ (2 ≤ (fresh 9 false 4).cfg.dfN ∧ (fresh 9 false 4).cfg.dfN ≤ 8) ∧
    ¬ (2 ≤ (fresh 0 false 4).cfg.btnN ∧ (fresh 0 false 4).cfg.btnN ≤ 8) := by decide

/-- `DfPollStepsFilter`, `BtnPollRenamesEdges`, `BtnQueriesReadStable`, `QdPollDecodesQuadrature`,
`QdTicksReadsAndRsttClears`, `BtnFailedReadChangesNothing`, `QdFailedReadChangesNothing`: in service and out. -/
theorem test_witness_service :
    (fresh 2 false 4).df.fault = 0#4 ∧ (fresh 2 false 4).btn.fault = 0#4 ∧ (fresh 8 false 4).qd.fault = 0#4 ∧
    (fresh 9 false 4).df.fault ≠ 0#4 ∧ (fresh 1 false 4).btn.fault ≠ 0#4 ∧ (fresh 0 false 4).qd.fault ≠ 0#4 ∧
    (true = true ∨ false = true) ∧ (false = true ∨ true = true) := by decide

/-- `BtnQueriesReadStable`, last clause: polls that answer `Pressed`, `Released` and neither. -/
theorem test_witness_btnEvents :
    answer (.btnPoll true false) { fresh 2 false 4 with btn := { f := half, fault := 0#4 } } =
      some (.ok (.event (some .pressed))) ∧
    answer (.btnPoll false false)
      { fresh 2 false 4 with btn := { f := { history := 0x02#8, index := 1#3, stable := true }, fault := 0#4 } } =
      some (.ok (.event (some .released))) ∧
    answer (.btnPoll true false) (fresh 2 false 4) = some (.ok (.event none)) := by decide

/-- `FilterEdgeExactlyOnStableChange`: a rise, a fall, and neither. -/
theorem test_witness_edges :
    (filterStep 2 false half true).2 = some .roseStable ∧
    (filterStep 2 false { history := 0x02#8, index := 1#3, stable := true } false).2 = some .fellStable ∧
    (filterStep 2 false half false).2 = none := by decide

/-- `CircularFilterEqualsShiftRegister`, `AlternatingSampleGivesNoEdge`, and `HysteresisEdgeOnCompletingCall` with the
level 0 and with the level 1, at both ends of the range of sizes. -/
theorem test_witness_sizes :
    2 ≤ 2 ∧ 2 ≤ 8 ∧ 8 ≤ 8 ∧ (feedFilter 2 false freshFilter []).stable = false ∧
    (feedFilter 8 true freshFilter (List.replicate 8 false)).stable = true := by decide

/-- `EdgesAlternateFromRise`: a run with a first and a second edge. -/
theorem test_witness_alternate :
    ((feedEdges 2 false freshFilter [true, true, false, false]).filterMap id)[0]? = some .roseStable ∧
    ((feedEdges 2 false freshFilter [true, true, false, false]).filterMap id)[1]? = some .fellStable := by decide

/-- `OneTickPerCycle`, at both ends of the range of sizes, with phases of exactly that many polls and longer. -/
theorem test_witness_cycle :
    ([2, 8].all fun n =>
      let s := fresh n false 4
      s.qd.fault == 0#4 && decide (2 ≤ s.cfg.qdN) && decide (s.cfg.qdN ≤ 8) && s.qd.fa.history == 0#8 &&
        s.qd.fa.stable == false && decide (s.qd.fa.index.toNat < s.cfg.qdN) && s.qd.fb.history == 0#8 &&
        s.qd.fb.stable == false && decide (s.qd.fb.index.toNat < s.cfg.qdN) &&
        [n, n + 1, n + 3, n].all fun h => decide (s.cfg.qdN ≤ h)) = true := by decide

/-- `TicksSumEmittedDirections`: a run that emits. -/
theorem test_witness_ticksSum :
    (∀ i ∈ [Instr.qdPoll true false false false, .qdPoll true false false false, .qdTicks],
      i ≠ .qdInit ∧ i ≠ .qdRstt) ∧
    (responses [.qdPoll true false false false, .qdPoll true false false false, .qdTicks] (fresh 2 false 4)).filterMap
      directionOf = [.minusOne] := by decide

/-- `VmAddInsertsOrFaults`: each of its four cases, the last room of the table included. -/
theorem test_witness_vmAdd :
    (5 < 2 ^ 3 ∧ (withMap [⟨4, 0#32⟩] none 2).vm.fault = 0#4 ∧
      (withMap [⟨4, 0#32⟩] none 2).vm.len ≠ (withMap [⟨4, 0#32⟩] none 2).cfg.mapSize ∧
      (∀ e ∈ (withMap [⟨4, 0#32⟩] none 2).vm.tbl, e.thr ≠ 5) ∧ SortedTable (withMap [⟨4, 0#32⟩] none 2).vm.tbl) ∧
    faultedMap.vm.fault ≠ 0#4 ∧
    ((withMap [⟨4, 0#32⟩] none 1).vm.fault = 0#4 ∧
      (withMap [⟨4, 0#32⟩] none 1).vm.len = (withMap [⟨4, 0#32⟩] none 1).cfg.mapSize) ∧
    ((withMap [⟨4, 0#32⟩] none 2).vm.fault = 0#4 ∧ ∃ e ∈ (withMap [⟨4, 0#32⟩] none 2).vm.tbl, e.thr = 4) := by decide

/-- `FaultedMapHoldsUntilInit`: a full map and a duplicate, each with operations to follow. -/
theorem test_witness_faultedMap :
    ((withMap [⟨4, 0#32⟩] none 1).vm.fault = 0#4 ∧
      (withMap [⟨4, 0#32⟩] none 1).vm.len = (withMap [⟨4, 0#32⟩] none 1).cfg.mapSize ∧
      Instr.vmInit ∉ [Instr.vmMap 1 true 1#32, .dfInit]) ∧
    ((withMap [⟨4, 0#32⟩] none 2).vm.fault = 0#4 ∧ (∃ e ∈ (withMap [⟨4, 0#32⟩] none 2).vm.tbl, e.thr = 4) ∧
      unitOf (.vmMap 1 true 1#32) = .vm ∧ Instr.vmMap 1 true 1#32 ≠ .vmInit) := by decide

/-- `AdditionOrderDoesNotMatter`: the reference table and its reverse, on an empty map with just enough room. -/
theorem test_witness_additionOrder :
    (fresh 2 false 4).vm.fault = 0#4 ∧ (fresh 2 false 4).vm.tbl = [] ∧
    referenceTable.length ≤ (fresh 2 false 4).cfg.mapSize ∧ (referenceTable.map Entry.thr).Nodup ∧
    referenceTable.reverse.Perm referenceTable :=
  ⟨by decide, by decide, by decide, by decide, List.reverse_perm _⟩

/-- `VmMapWithoutTickPassesThrough`, `VmMapEmptyOrFirstIsUnscaled` (either way), `VmMapRejectsBackwardInstant`. -/
theorem test_witness_vmMap :
    (2 ^ 64 - 1 < 2 ^ 64 ∧ (withMap [] (some 9) 4).vm.fault = 0#4 ∧ (withMap [] (some 9) 4).vm.tbl = []) ∧
    ((withMap referenceTable none 4).vm.fault = 0#4 ∧ (withMap referenceTable none 4).vm.lastValid = false) ∧
    ((withMap referenceTable (some 9) 4).vm.fault = 0#4 ∧ (withMap referenceTable (some 9) 4).vm.tbl ≠ [] ∧
      (withMap referenceTable (some 9) 4).vm.lastValid = true ∧
      8 < (withMap referenceTable (some 9) 4).vm.lastInstant) := by decide

/-- `VmMapScalesByFirstBucket`: the elapsed time at a threshold (the next entry serves it), and at the largest one
(none does).  `LookupFindsSmallestThreshold`: the table is sorted and the entry is found. -/
theorem test_witness_vmMapScales :
    ((withMap referenceTable (some 9) 4).vm.fault = 0#4 ∧ (withMap referenceTable (some 9) 4).vm.tbl ≠ [] ∧
      (withMap referenceTable (some 9) 4).vm.lastValid = true ∧
      (withMap referenceTable (some 9) 4).vm.lastInstant ≤ 100009) ∧
    ((withMap referenceTable (some 9) 4).vm.tbl =
        [⟨100000, 0x41000000#32⟩] ++ ⟨250000, 0x40800000#32⟩ :: referenceTable.drop 2 ∧
      (∀ x ∈ [(⟨100000, 0x41000000#32⟩ : Entry)], x.thr ≤ 100009 - 9) ∧ 100009 - 9 < 250000) ∧
    (∀ x ∈ referenceTable, x.thr ≤ 1000009 - 9) ∧ SortedTable referenceTable ∧
    lookupEntry referenceTable 100000 = some ⟨250000, 0x40800000#32⟩ := by decide

/-- `LastInstantMovesExactlyWhen`: a call that records and one that does not. -/
theorem test_witness_lastInstant :
    (after (.vmMap 9 true 1#32) (withMap referenceTable (some 9) 4)).isSome = true ∧
    (after (.vmMap 8 true 1#32) (withMap referenceTable (some 9) 4)).isSome = true ∧
    ((withMap referenceTable (some 9) 4).vm.fault = 0#4 ∧ true = true ∧
      (withMap referenceTable (some 9) 4).vm.lastInstant ≤ 9) ∧
    ¬ ((withMap referenceTable (some 9) 4).vm.tbl = [] ∨ (withMap referenceTable (some 9) 4).vm.lastValid = false ∨
      (withMap referenceTable (some 9) 4).vm.lastInstant ≤ 8) := by decide +kernel

/-- `LastValidClearedOnlyByVmInit`: an operation and a step that clear it. -/
theorem test_witness_lastValid :
    (withMap [] (some 9) 4).vm.lastValid = true ∧
    (after .vmInit (withMap [] (some 9) 4)).map (fun t => t.vm.lastValid) = some false ∧
    stepped { withMap [] (some 9) 4 with inp := [.reset] } = some (fresh 2 false 4) := by decide +kernel

/-- `EveryScaleApplyTruncatesExactProduct`: 3 times 2.5, and 1 times 8. -/
theorem test_witness_scale :
    (f32OfBits 0x40200000#32 = .fin false (5 * 2 ^ 148) ∧
      -2 ^ 31 ≤ ((3#32).toInt * ((5 * 2 ^ 148 : Nat) : Int)).tdiv (2 ^ 149) ∧
      ((3#32).toInt * ((5 * 2 ^ 148 : Nat) : Int)).tdiv (2 ^ 149) ≤ 2 ^ 31 - 1 ∧
      (3#32).toInt.natAbs ≤ 2 ^ 24 ∧ (3#32).toInt.natAbs * (5 * 2 ^ 148) = 15 * 2 ^ 148 ∧ 15 < 2 ^ 24 ∧
      (3#32).toInt.natAbs * (5 * 2 ^ 148) < 2 ^ 128 * 2 ^ 149) ∧
    f32OfBits 0x41000000#32 = .fin false (8 * 2 ^ 149) ∧
    ((1#32).toInt * ((8 * 2 ^ 149 : Nat) : Int)).tdiv (2 ^ 149) = 8 := by decide +kernel

/-- `DefaultScaleNonFinite`: a not-a-number and both infinities. -/
theorem test_witness_nonFinite :
    f32OfBits 0x7FC00000#32 = .nan ∧ f32OfBits 0x7F800000#32 = .inf false ∧ f32OfBits 0xFF800000#32 = .inf true := by
  decide +kernel

/-- `RoundingGoesToNearest`: a finite result (a tie, `2^24 + 1`), and an infinity from the least value that gives
one. -/
theorem test_witness_rounding :
    roundF32 true ((2 ^ 24 + 1) * 2 ^ 149) 1 = .fin true (2 ^ 24 * 2 ^ 149) ∧
    roundF32 false ((2 ^ 128 - 2 ^ 103) * 2 ^ 149) 1 = .inf false ∧
    roundF32 false ((2 ^ 128 - 2 ^ 103) * 2 ^ 149 - 1) 1 = .fin false ((2 ^ 128 - 2 ^ 104) * 2 ^ 149) := by
  decide +kernel

/-- `DecodeOfEncode`, `EncodeOfDecode`, `DecodeIsTableSearch`, `StepRunsDecodedInstruction`,
`IllegalWordOnlyAnswers`. -/
theorem test_witness_words :
    (Instr.vmAdd (2 ^ 64 - 1) 0x41000000#32).wellFormed 64 = true ∧
    decode 64 (BitVec.ofNat 128 0x41000000410000000000000000000064) = .ok (.vmAdd 100 0x41000000#32) ∧
    ({ State.reset with inp := [.command 0x41000000410000000000000000000064] } : State).inp =
      [.command 0x41000000410000000000000000000064] ∧
    0x41000000410000000000000000000064 < 2 ^ (64 + State.reset.cfg.tw) ∧ State.reset.cfg.tw = 64 ∧
    decode 64 (BitVec.ofNat 128 (2 ^ 128 - 1)) = .error .reservedOpcode ∧
    (allOpcodes.all fun o => BitVec.ofNat 128 (2 ^ 128 - 1) &&& tableMask o != tableMatch o) = true := by
  decide +kernel

/-- `NoOperationNoChange`, and the third clause of `EveryOperationCompletes`. -/
theorem test_witness_inputs :
    State.reset.inp = [] ∧ ({ State.reset with inp := [.idle] } : State).inp = .idle :: [] ∧
    (Input.command (2 ^ 128 - 1)).wellFormed 64 = true := by decide +kernel

/-- `StepKeepsInvariant`, `StepKeepsConfiguration`: a state with the invariant and a step from it. -/
theorem test_witness_invariant :
    (withMap referenceTable (some 9) 4).Inv ∧
    stepped { withMap referenceTable (some 9) 4 with inp := [.idle] } = some (withMap referenceTable (some 9) 4) :=
  ⟨⟨by decide, by decide, by decide, by decide⟩, by decide⟩

/-- `OperationsOnDifferentUnitsCommute`, `OperationTouchesOnlyItsUnit`. -/
theorem test_witness_units :
    unitOf (.dfPoll true) ≠ unitOf (.vmAdd 1 0#32) ∧ (after (.dfPoll true) faultedMap).isSome = true ∧
    strobeOf .qdTicks = none := by decide

/-- `OperationDependsOnlyOnItsUnit`: two states that agree on `DF` only. -/
theorem test_witness_depends :
    (fresh 2 false 1).cfg = faultedMap.cfg ∧ (fresh 2 false 1).df = faultedMap.df ∧
    (fresh 2 false 1).vm ≠ faultedMap.vm ∧ (after (.dfPoll true) (fresh 2 false 1)).isSome = true := by decide

/-- `FaultedUnitRefusesAllButInit`, `RecordedFaultLeftOnlyByInit`. -/
theorem test_witness_faulted :
    isInit (.vmMap 1 true 1#32) = false ∧ unitFault (unitOf (.vmMap 1 true 1#32)) faultedMap ≠ 0#4 ∧
    (after .vmInit faultedMap).map (unitFault .vm) = some 0#4 ∧ isInit .vmInit = true ∧ unitOf .vmInit = .vm := by
  decide

/-- `FaultsArePrecise`: a sticky code, another code, and an `INIT` that faults. -/
theorem test_witness_precise :
    (isInit (.vmAdd 5 0#32) = false ∧
      answer (.vmAdd 5 0#32) (withMap [⟨5, 0#32⟩] none 1) = some (.fault .configMapCapacity)) ∧
    (isInit (.btnPoll true true) = false ∧ answer (.btnPoll true true) (fresh 2 false 4) = some (.fault .pinError)) ∧
    (isInit .dfInit = true ∧ answer .dfInit (fresh 9 false 4) = some (.fault .configFilterSize)) := by decide

/-- `ResultPortsHoldResponse`: an operation of each unit (the outputs of 30_encoding.md R107). -/
theorem test_witness_ports :
    strobeOf (.dfPoll true) = some .df ∧ strobeOf (.btnPoll true true) = some .btn ∧
    strobeOf (.qdPoll true true false false) = some .qd ∧ strobeOf (.vmMap 9 true 3#32) = some .vm ∧
    (after (.dfPoll true) (fresh 2 false 4)).map (fun t => t.ports.df) = some (some (.ok (.edge none))) ∧
    (after (.btnPoll true true) (fresh 2 false 4)).map (fun t => (portOutputs t).btnFault) = some 3#4 ∧
    (after (.vmMap 9 true 3#32) (fresh 2 false 4)).map (fun t => ((portOutputs t).vmOutValid, (portOutputs t).vmOut)) =
      some (true, 3#32) := by decide

/-- `DefaultScaleRoundsThenTruncates`: a normal scale, the greatest finite one and the smallest subnormal. -/
theorem test_witness_finiteScale :
    [0x41000000#32, 0x7F7FFFFF#32, 0x00000001#32].all (fun s => s.extractLsb' 23 8 != 0xFF#8) = true ∧
    standardScale 3#32 0x40200000#32 = 7#32 := by decide +kernel

end Sys2Proof.Tests
end

section
/-!
PROOF. What a step does with each kind of input (00_scope.md R9), and that the decoder answers well-formed
operations only.
-/

namespace Sys2Proof

/-- An operation built from fields is well-formed where `d` fits its field (30_encoding.md R97, R98). -/
theorem buildInstr_wellFormed (tw : Nat) (o : Opcode) (f : CmdFields) (hd : f.d < 2 ^ tw) :
    (buildInstr o f).wellFormed tw = true := by
  cases o with
  | vmAdd => exact decide_eq_true hd
  | vmMap => exact decide_eq_true hd
  | _ => rfl

theorem decode_wellFormed (tw : Nat) (c : CmdWord tw) (i : Instr) (h : decode tw c = .ok i) :
    i.wellFormed tw = true := by
  obtain ⟨o, -, -, -, rfl⟩ := (decodeFields_eq_ok_iff (splitWord tw c) i).1 h
  exact buildInstr_wellFormed tw o _ (splitWord_d_lt tw c)

end Sys2Proof

namespace Sys2Proof.Machine

theorem readCommand_of_decode_ok (tw w : Nat) (i : Instr) (hw : w < 2 ^ (64 + tw))
    (hd : decode tw (BitVec.ofNat (64 + tw) w) = .ok i) : readCommand tw w = .instr i := by
  simp only [readCommand, isCommandWord, hw, decide_true, if_true, hd]

theorem step_of_nil (s : State) (hi : s.inp = []) : step s = .next s := by
  simp only [step, takeInput, hi]

theorem step_of_idle (s : State) (rest : List Input) (hi : s.inp = .idle :: rest) :
    step s = .next { s with inp := rest } := by
  simp only [step, takeInput, hi]

theorem step_of_decode_ok (s : State) (w : Nat) (rest : List Input) (i : Instr)
    (hi : s.inp = .command w :: rest) (hw : w < 2 ^ (64 + s.cfg.tw))
    (hd : decode s.cfg.tw (BitVec.ofNat (64 + s.cfg.tw) w) = .ok i) :
    step s = exec i { s with inp := rest } := by
  simp only [step, takeInput, hi, readCommand_of_decode_ok s.cfg.tw w i hw hd]

/-- Settles O44: the decoder accepts well-formed operations only, and the step's branch for a legal word. -/
theorem stepRunsDecodedInstruction : Obligations.StepRunsDecodedInstruction :=
  fun s w rest i hi hw hd => ⟨decode_wellFormed s.cfg.tw _ i hd, step_of_decode_ok s w rest i hi hw hd⟩

/-- Settles O46: the step's branches for an empty stream and for an idle edge. -/
theorem noOperationNoChange : Obligations.NoOperationNoChange :=
  fun s => ⟨step_of_nil s, step_of_idle s⟩

end Sys2Proof.Machine
end

section
/-!
PROOF. Every operation completes and leaves the configuration and the caller's stream (00_scope.md R17,
10_state.md R33): one lemma per shared operation, then the operations.
-/

namespace Sys2Proof.Machine

@[simp] theorem construct_cfg (u : UnitId) (n : Nat) (s : State) : (construct u n s).cfg = s.cfg := by
  simp [construct_eq]

@[simp] theorem construct_inp (u : UnitId) (n : Nat) (s : State) : (construct u n s).inp = s.inp := by
  simp [construct_eq]

@[simp] theorem mapTick_cfg (now : Nat) (t : Tick) (s : State) : (mapTick now t s).2.cfg = s.cfg := by
  obtain ⟨-, e⟩ | ⟨-, -, -, e⟩ | ⟨-, -, -, e⟩ := mapTick_cases now t s <;> simp [e]

@[simp] theorem mapTick_inp (now : Nat) (t : Tick) (s : State) : (mapTick now t s).2.inp = s.inp := by
  obtain ⟨-, e⟩ | ⟨-, -, -, e⟩ | ⟨-, -, -, e⟩ := mapTick_cases now t s <;> simp [e]

/-- An operation keeps the configuration and the stream if what it does in service keeps them. -/
theorem inService_keeps (u : UnitId) (p : Option UnitId) (s k : State) (hk : k.cfg = s.cfg ∧ k.inp = s.inp) :
    (inService u p s k).cfg = s.cfg ∧ (inService u p s k).inp = s.inp := by
  obtain ⟨-, e⟩ | ⟨-, e⟩ := inService_cases u p s k
  · rwa [e]
  · simp [e]

/-- Every operation answers a next state, with the same configuration and the same stream. -/
theorem exec_next_keeps (i : Instr) (s : State) :
    ∃ t, exec i s = .next t ∧ t.cfg = s.cfg ∧ t.inp = s.inp := by
  cases i with
  | dfInit => exact ⟨_, rfl, by simp⟩
  | btnInit => exact ⟨_, rfl, by simp⟩
  | qdInit => exact ⟨_, rfl, by simp⟩
  | vmInit => exact ⟨_, rfl, by simp⟩
  | dfPoll a => exact ⟨_, rfl, inService_keeps _ _ _ _ (by simp)⟩
  | btnPoll a ea => exact ⟨_, rfl, inService_keeps _ _ _ _ (by split <;> simp)⟩
  | btnIsp => exact ⟨_, rfl, inService_keeps _ _ _ _ (by simp)⟩
  | btnIsr => exact ⟨_, rfl, inService_keeps _ _ _ _ (by simp)⟩
  | qdPoll a b ea eb => exact ⟨_, rfl, inService_keeps _ _ _ _ (by split <;> simp)⟩
  | qdTicks => exact ⟨_, rfl, inService_keeps _ _ _ _ (by simp)⟩
  | qdRstt => exact ⟨_, rfl, inService_keeps _ _ _ _ (by simp)⟩
  | vmAdd d w => exact ⟨_, rfl, inService_keeps _ _ _ _ (by split_ifs <;> simp)⟩
  | vmMap d a w => exact ⟨_, rfl, inService_keeps _ _ _ _ (by split <;> simp)⟩

theorem exec_keeps_cfg_inp (i : Instr) (s t : State) (h : exec i s = .next t) :
    t.cfg = s.cfg ∧ t.inp = s.inp := by
  obtain ⟨r, hr, keeps⟩ := exec_next_keeps i s
  cases hr.symm.trans h
  exact keeps

/-- Settles O50, by the cases of a step; only the case of an operation asks what the operation does. -/
theorem stepKeepsConfiguration : Obligations.StepKeepsConfiguration := by
  intro s t h
  obtain ⟨hi, rfl⟩ | ⟨x, rest, hi, hx⟩ := step_cases s t h
  · simp [hi]
  · rw [hi, List.tail_cons]
    obtain ⟨-, rfl⟩ | ⟨-, rfl⟩ | ⟨w, -, -, ⟨e, -, rfl⟩ | ⟨i, -, ht⟩⟩ := hx
    case inr.inr.inr => exact exec_keeps_cfg_inp i _ t ht
    all_goals exact ⟨rfl, rfl⟩

end Sys2Proof.Machine
end

section
/-!
PROOF. An operation depends only on its unit's registers and the configuration (00_scope.md R8, R9): the shared
operations take states that agree on the unit to ends that answer alike, and each operation is built from them.
-/

namespace Sys2Proof.Machine

/-- Two ends of an operation on the unit `u`: the same response, and the same registers of that unit. -/
def EndAlike (u : UnitId) (t t' : State) : Prop := t'.rsp = t.rsp ∧ SameUnit u t t'

theorem unitFault_congr (u : UnitId) (s s' : State) (hu : SameUnit u s s') : unitFault u s' = unitFault u s := by
  cases u <;> simp_all

theorem sameUnit_setFault (u : UnitId) (v : FaultBits) (s s' : State) (hu : SameUnit u s s') :
    SameUnit u (setFault u v s) (setFault u v s') := by
  cases u <;> simp_all

theorem sameUnit_respond_iff (u : UnitId) (p : Option UnitId) (r r' : Response) (k k' : State) :
    SameUnit u (respond p r k) (respond p r' k') ↔ SameUnit u k k' := by
  cases u <;> simp

theorem respond_alike (u : UnitId) (p : Option UnitId) (r : Response) (k k' : State) (hu : SameUnit u k k') :
    EndAlike u (respond p r k) (respond p r k') :=
  ⟨by simp, (sameUnit_respond_iff u p r r k k').2 hu⟩

theorem raise_alike (u : UnitId) (c : FaultCode) (s s' : State) (hu : SameUnit u s s') :
    EndAlike u (raise (some u) c s) (raise (some u) c s') := by
  cases hc : isSticky c
  · rw [raise_of_not_sticky _ c s hc, raise_of_not_sticky _ c s' hc]
    exact respond_alike u _ _ s s' hu
  · rw [raise_of_sticky u c s hc, raise_of_sticky u c s' hc]
    exact respond_alike u _ _ _ _ (sameUnit_setFault u _ s s' hu)

theorem construct_alike (u : UnitId) (n : Nat) (s s' : State) (hu : SameUnit u s s') :
    EndAlike u (construct u n s) (construct u n s') := by
  rw [construct_eq, construct_eq]
  exact respond_alike u _ _ _ _ (sameUnit_setFault u _ s s' hu)

theorem inService_alike (u : UnitId) (p : Option UnitId) (s s' k k' : State) (hu : SameUnit u s s')
    (hk : EndAlike u k k') : EndAlike u (inService u p s k) (inService u p s' k') := by
  have hf := unitFault_congr u s s' hu
  obtain ⟨h, e⟩ | ⟨h, e⟩ := inService_cases u p s k
  · rwa [e, inService_of_ok u p s' k' (hf.trans h)]
  · rw [e, inService_of_faulted u p s' k' (hf ▸ h)]
    exact respond_alike u p _ s s' hu

theorem mapTick_alike (now : Nat) (t : Tick) (s s' : State) (hc : s'.cfg = s.cfg) (hv : s'.vm = s.vm) :
    (mapTick now t s').1 = (mapTick now t s).1 ∧ (mapTick now t s').2.vm = (mapTick now t s).2.vm := by
  unfold mapTick
  rw [hc, hv]
  split_ifs <;> simp [hv]

/-- From states that agree on the configuration and on its unit, an operation ends alike. -/
theorem exec_alike (i : Instr) (s s' : State) (hc : s'.cfg = s.cfg) (hu : SameUnit (unitOf i) s s') :
    ∃ t t', exec i s = .next t ∧ exec i s' = .next t' ∧ EndAlike (unitOf i) t t' := by
  cases i with
  | dfInit =>
    refine ⟨_, _, rfl, rfl, ?_⟩
    rw [hc, show s'.df = s.df from hu]
    exact construct_alike .df _ _ _ rfl
  | btnInit =>
    refine ⟨_, _, rfl, rfl, ?_⟩
    rw [hc, show s'.btn = s.btn from hu]
    exact construct_alike .btn _ _ _ rfl
  | qdInit =>
    refine ⟨_, _, rfl, rfl, ?_⟩
    rw [hc, show s'.qd = s.qd from hu]
    exact construct_alike .qd _ _ _ rfl
  | vmInit => exact ⟨_, _, rfl, rfl, respond_alike .vm _ _ _ _ rfl⟩
  | dfPoll a =>
    refine ⟨_, _, rfl, rfl, inService_alike .df _ s s' _ _ hu ?_⟩
    rw [hc, show s'.df = s.df from hu]
    exact respond_alike .df _ _ _ _ rfl
  | btnPoll a ea =>
    refine ⟨_, _, rfl, rfl, inService_alike .btn _ s s' _ _ hu ?_⟩
    rw [hc, show s'.btn = s.btn from hu]
    split
    · exact raise_alike .btn _ s s' hu
    · exact respond_alike .btn _ _ _ _ rfl
  | btnIsp =>
    refine ⟨_, _, rfl, rfl, inService_alike .btn _ s s' _ _ hu ?_⟩
    rw [show s'.btn = s.btn from hu]
    exact respond_alike .btn _ _ s s' hu
  | btnIsr =>
    refine ⟨_, _, rfl, rfl, inService_alike .btn _ s s' _ _ hu ?_⟩
    rw [show s'.btn = s.btn from hu]
    exact respond_alike .btn _ _ s s' hu
  | qdPoll a b ea eb =>
    refine ⟨_, _, rfl, rfl, inService_alike .qd _ s s' _ _ hu ?_⟩
    rw [hc, show s'.qd = s.qd from hu]
    split
    · exact raise_alike .qd _ s s' hu
    · exact respond_alike .qd _ _ _ _ rfl
  | qdTicks =>
    refine ⟨_, _, rfl, rfl, inService_alike .qd _ s s' _ _ hu ?_⟩
    rw [show s'.qd = s.qd from hu]
    exact respond_alike .qd _ _ s s' hu
  | qdRstt =>
    refine ⟨_, _, rfl, rfl, inService_alike .qd _ s s' _ _ hu ?_⟩
    rw [show s'.qd = s.qd from hu]
    exact respond_alike .qd _ _ _ _ rfl
  | vmAdd d w =>
    refine ⟨_, _, rfl, rfl, inService_alike .vm _ s s' _ _ hu ?_⟩
    rw [hc, show s'.vm = s.vm from hu]
    split_ifs
    · exact raise_alike .vm _ s s' hu
    · exact raise_alike .vm _ s s' hu
    · exact respond_alike .vm _ _ _ _ rfl
  | vmMap d a w =>
    refine ⟨_, _, rfl, rfl, inService_alike .vm _ s s' _ _ hu ?_⟩
    split
    · exact respond_alike .vm _ _ s s' hu
    · next t _ =>
      obtain ⟨hr, hv⟩ := mapTick_alike d t s s' hc hu
      rw [hr]
      exact respond_alike .vm _ _ _ _ hv

/-- Settles O53: the two runs of the operation are those of `exec_alike`. -/
theorem operationDependsOnlyOnItsUnit : Obligations.OperationDependsOnlyOnItsUnit := by
  intro i s s' t t' hc hu ht ht'
  obtain ⟨r, r', hr, hr', alike⟩ := exec_alike i s s' hc hu
  cases hr.symm.trans ht
  cases hr'.symm.trans ht'
  exact alike

end Sys2Proof.Machine
end

section
/-!
PROOF. An operation touches only its unit (10_state.md R56): the shared operations keep the frame, and each
operation is built from them.
-/

namespace Sys2Proof.Machine

/-- The registers and the result ports of every unit but `u` are as they were. -/
def TouchesOnly (u : UnitId) (s t : State) : Prop :=
  ∀ v, v ≠ u → SameUnit v s t ∧ heldBy v t.ports = heldBy v s.ports

theorem touchesOnly_refl (u : UnitId) (s : State) : TouchesOnly u s s :=
  fun v _ => ⟨by cases v <;> rfl, rfl⟩

theorem touchesOnly_df (s : State) (d : DF) : TouchesOnly .df s { s with df := d } := by
  intro v hv
  cases v <;> simp at hv ⊢

theorem touchesOnly_btn (s : State) (b : BTN) : TouchesOnly .btn s { s with btn := b } := by
  intro v hv
  cases v <;> simp at hv ⊢

theorem touchesOnly_qd (s : State) (q : QD) : TouchesOnly .qd s { s with qd := q } := by
  intro v hv
  cases v <;> simp at hv ⊢

theorem touchesOnly_vm (s : State) (m : VM) : TouchesOnly .vm s { s with vm := m } := by
  intro v hv
  cases v <;> simp at hv ⊢

theorem heldBy_latchPorts_of_ne (u v : UnitId) (r : Response) (p : ResultPorts) (h : v ≠ u) :
    heldBy v (latchPorts u r p) = heldBy v p := by
  cases u <;> cases v <;> simp at h ⊢

theorem sameUnit_respond (v : UnitId) (p : Option UnitId) (r : Response) (s k : State) :
    SameUnit v s (respond p r k) ↔ SameUnit v s k := by
  cases v <;> simp

theorem sameUnit_setFault_of_ne (u v : UnitId) (x : FaultBits) (s k : State) (h : v ≠ u) :
    SameUnit v s (setFault u x k) ↔ SameUnit v s k := by
  cases u <;> cases v <;> simp at h ⊢

/-- Answering on the unit's own strobe. -/
theorem respond_touchesOnly (u : UnitId) (r : Response) (s k : State) (hk : TouchesOnly u s k) :
    TouchesOnly u s (respond (some u) r k) := by
  intro v hv
  obtain ⟨hreg, hport⟩ := hk v hv
  rw [respond_ports_some, heldBy_latchPorts_of_ne u v r k.ports hv]
  exact ⟨(sameUnit_respond v _ r s k).2 hreg, hport⟩

/-- Answering without a strobe. -/
theorem respond_none_touchesOnly (u : UnitId) (r : Response) (s : State) :
    TouchesOnly u s (respond none r s) := touchesOnly_refl u s

theorem setFault_touchesOnly (u : UnitId) (x : FaultBits) (s k : State) (hk : TouchesOnly u s k) :
    TouchesOnly u s (setFault u x k) := by
  intro v hv
  obtain ⟨hreg, hport⟩ := hk v hv
  rw [setFault_ports]
  exact ⟨(sameUnit_setFault_of_ne u v x s k hv).2 hreg, hport⟩

theorem raise_touchesOnly (u : UnitId) (c : FaultCode) (s : State) : TouchesOnly u s (raise (some u) c s) := by
  cases hc : isSticky c
  · rw [raise_of_not_sticky _ c s hc]
    exact respond_touchesOnly u _ s s (touchesOnly_refl u s)
  · rw [raise_of_sticky u c s hc]
    exact respond_touchesOnly u _ s _ (setFault_touchesOnly u _ s s (touchesOnly_refl u s))

theorem construct_touchesOnly (u : UnitId) (n : Nat) (s k : State) (hk : TouchesOnly u s k) :
    TouchesOnly u s (construct u n k) := by
  rw [construct_eq]
  exact respond_touchesOnly u _ s _ (setFault_touchesOnly u _ s k hk)

theorem inService_touchesOnly (u : UnitId) (s k : State) (hk : TouchesOnly u s k) :
    TouchesOnly u s (inService u (some u) s k) := by
  obtain ⟨-, e⟩ | ⟨-, e⟩ := inService_cases u (some u) s k
  · rwa [e]
  · rw [e]
    exact respond_touchesOnly u _ s s (touchesOnly_refl u s)

theorem mapTick_touchesOnly (now : Nat) (w : Tick) (s : State) : TouchesOnly .vm s (mapTick now w s).2 := by
  obtain ⟨-, e⟩ | ⟨-, -, -, e⟩ | ⟨-, -, -, e⟩ := mapTick_cases now w s
  · rw [e]
    exact touchesOnly_vm s _
  · rw [e]
    exact touchesOnly_refl .vm s
  · rw [e]
    exact touchesOnly_vm s _

/-- A query, in service or out, only answers. -/
theorem inService_respond_self (u : UnitId) (p : Option UnitId) (r : Response) (s : State) :
    ∃ r', inService u p s (respond p r s) = respond p r' s := by
  obtain ⟨-, e⟩ | ⟨-, e⟩ := inService_cases u p s (respond p r s)
  · exact ⟨r, e⟩
  · exact ⟨.fault .unitFaulted, e⟩

/-- An operation without a strobe only answers (30_encoding.md R107). -/
theorem exec_of_no_strobe (i : Instr) (s t : State) (hp : strobeOf i = none) (h : exec i s = .next t) :
    ∃ r, t = respond none r s := by
  cases i with
  | btnIsp =>
    cases h
    exact inService_respond_self .btn none _ s
  | btnIsr =>
    cases h
    exact inService_respond_self .btn none _ s
  | qdTicks =>
    cases h
    exact inService_respond_self .qd none _ s
  | _ => cases hp

theorem exec_touchesOnly (i : Instr) (s t : State) (h : exec i s = .next t) : TouchesOnly (unitOf i) s t := by
  cases hp : strobeOf i with
  | none =>
    obtain ⟨r, rfl⟩ := exec_of_no_strobe i s t hp h
    exact respond_none_touchesOnly _ r s
  | some u =>
    cases i with
    | btnIsp | btnIsr | qdTicks => cases hp
    | dfInit =>
      cases h
      exact construct_touchesOnly .df _ s _ (touchesOnly_df s _)
    | btnInit =>
      cases h
      exact construct_touchesOnly .btn _ s _ (touchesOnly_btn s _)
    | qdInit =>
      cases h
      exact construct_touchesOnly .qd _ s _ (touchesOnly_qd s _)
    | vmInit =>
      cases h
      exact respond_touchesOnly .vm _ s _ (touchesOnly_vm s _)
    | dfPoll a =>
      cases h
      exact inService_touchesOnly .df s _ (respond_touchesOnly .df _ s _ (touchesOnly_df s _))
    | btnPoll a ea =>
      cases h
      refine inService_touchesOnly .btn s _ ?_
      split
      · exact raise_touchesOnly .btn _ s
      · exact respond_touchesOnly .btn _ s _ (touchesOnly_btn s _)
    | qdPoll a b ea eb =>
      cases h
      refine inService_touchesOnly .qd s _ ?_
      split
      · exact raise_touchesOnly .qd _ s
      · exact respond_touchesOnly .qd _ s _ (touchesOnly_qd s _)
    | qdRstt =>
      cases h
      exact inService_touchesOnly .qd s _ (respond_touchesOnly .qd _ s _ (touchesOnly_qd s _))
    | vmAdd d w =>
      cases h
      refine inService_touchesOnly .vm s _ ?_
      split_ifs
      · exact raise_touchesOnly .vm _ s
      · exact raise_touchesOnly .vm _ s
      · exact respond_touchesOnly .vm _ s _ (touchesOnly_vm s _)
    | vmMap d a w =>
      cases h
      refine inService_touchesOnly .vm s _ ?_
      split
      · exact respond_touchesOnly .vm _ s s (touchesOnly_refl .vm s)
      · exact respond_touchesOnly .vm _ s _ (mapTick_touchesOnly d _ s)

theorem exec_keeps_other_unit (i : Instr) (u : UnitId) (s t : State) (h : exec i s = .next t)
    (hu : unitOf i ≠ u) : SameUnit u s t :=
  (exec_touchesOnly i s t h u hu.symm).1

/-- Settles O51: the frame of `exec_touchesOnly`, and for a query that it only answers. -/
theorem operationTouchesOnlyItsUnit : Obligations.OperationTouchesOnlyItsUnit := by
  intro i s t h
  obtain ⟨hcfg, hinp⟩ := exec_keeps_cfg_inp i s t h
  refine ⟨exec_touchesOnly i s t h, hcfg, hinp, fun hp => ?_⟩
  obtain ⟨r, rfl⟩ := exec_of_no_strobe i s t hp h
  simp [SameRegisters]

end Sys2Proof.Machine
end

section
/-!
PROOF. What an operation can do to the registers of one unit, said once for each unit, whatever unit the
operation names (10_state.md R56 for the operations of the other units).
-/

namespace Sys2Proof.Machine

/-- `DF` holds, is constructed, or takes a sample in service. -/
theorem df_after_exec (i : Instr) (s t : State) (h : exec i s = .next t) :
    t.df = s.df ∨ (i = .dfInit ∧ t.df = (State.resetOf s.cfg).df) ∨
    (s.df.fault = 0#4 ∧ ∃ a, i = .dfPoll a ∧
      t.df = { s.df with f := (filterStep s.cfg.dfN s.cfg.dfAL s.df.f a).1 }) := by
  by_cases hu : unitOf i = .df
  · cases i with
    | dfInit =>
      cases h
      exact .inr (.inl ⟨rfl, by rw [construct_eq]; rfl⟩)
    | dfPoll a =>
      obtain ⟨hf, e⟩ | ⟨-, e⟩ := execDfPoll_cases a s
      · cases e.symm.trans h
        exact .inr (.inr ⟨hf, a, rfl, rfl⟩)
      · cases e.symm.trans h
        exact .inl rfl
    | _ => cases hu
  · exact .inl (exec_keeps_other_unit i .df s t h hu)

/-- `BTN` holds, is constructed, or takes a sample in service. -/
theorem btn_after_exec (i : Instr) (s t : State) (h : exec i s = .next t) :
    t.btn = s.btn ∨ (i = .btnInit ∧ t.btn = (State.resetOf s.cfg).btn) ∨
    (s.btn.fault = 0#4 ∧ ∃ a, i = .btnPoll a false ∧
      t.btn = { s.btn with f := (filterStep s.cfg.btnN s.cfg.btnAL s.btn.f a).1 }) := by
  by_cases hu : unitOf i = .btn
  · cases i with
    | btnInit =>
      cases h
      exact .inr (.inl ⟨rfl, by rw [construct_eq]; rfl⟩)
    | btnPoll a ea =>
      obtain ⟨hf, rfl, e⟩ | ⟨-, -, e⟩ | ⟨-, e⟩ := execBtnPoll_cases a ea s
      · cases e.symm.trans h
        exact .inr (.inr ⟨hf, a, rfl, rfl⟩)
      · cases e.symm.trans h
        exact .inl rfl
      · cases e.symm.trans h
        exact .inl rfl
    | btnIsp | btnIsr =>
      obtain ⟨r, rfl⟩ := exec_of_no_strobe _ s t rfl h
      exact .inl rfl
    | _ => cases hu
  · exact .inl (exec_keeps_other_unit i .btn s t h hu)

/-- An operation answers no direction if what it does in service answers none. -/
theorem directionOf_inService (u : UnitId) (p : Option UnitId) (s k : State)
    (hk : directionOf k.rsp = none) : directionOf (inService u p s k).rsp = none := by
  obtain ⟨-, e⟩ | ⟨-, e⟩ := inService_cases u p s k
  · rwa [e]
  · simp [e, directionOf]

theorem directionOf_construct (u : UnitId) (n : Nat) (s : State) :
    directionOf (construct u n s).rsp = none := by
  obtain ⟨-, e⟩ | ⟨-, e⟩ := construct_cases u n s <;> simp [e, directionOf]

/-- An operation of another unit than `QD` answers no direction. -/
theorem directionOf_exec_of_ne_qd (i : Instr) (s t : State) (h : exec i s = .next t) (hu : unitOf i ≠ .qd) :
    directionOf t.rsp = none := by
  cases i with
  | qdInit | qdPoll | qdTicks | qdRstt => exact absurd rfl hu
  | dfInit | btnInit =>
    cases h
    exact directionOf_construct _ _ _
  | vmInit =>
    cases h
    rfl
  | dfPoll | btnIsp | btnIsr =>
    cases h
    exact directionOf_inService _ _ _ _ (by simp [directionOf])
  | btnPoll | vmMap =>
    cases h
    exact directionOf_inService _ _ _ _ (by split <;> simp [directionOf])
  | vmAdd =>
    cases h
    exact directionOf_inService _ _ _ _ (by split_ifs <;> simp [directionOf])

/-- `QD` holds and answers no direction, is constructed, has its accumulator cleared, or takes two samples in service
and answers what they emit. -/
theorem qd_after_exec (i : Instr) (s t : State) (h : exec i s = .next t) :
    (t.qd = s.qd ∧ directionOf t.rsp = none) ∨ (i = .qdInit ∧ t.qd = (State.resetOf s.cfg).qd) ∨
    (i = .qdRstt ∧ t.qd = { s.qd with ticks := 0#32 }) ∨
    (s.qd.fault = 0#4 ∧ ∃ a b, i = .qdPoll a b false false ∧ directionOf t.rsp = emitted a b s ∧ t.qd = { s.qd with
      fa := (filterStep s.cfg.qdN s.cfg.qdAL s.qd.fa a).1
      fb := (filterStep s.cfg.qdN s.cfg.qdAL s.qd.fb b).1
      ticks := accumulate s.qd.ticks (emitted a b s) }) := by
  by_cases hu : unitOf i = .qd
  · cases i with
    | qdInit =>
      cases h
      exact .inr (.inl ⟨rfl, by rw [construct_eq]; rfl⟩)
    | qdPoll a b ea eb =>
      obtain ⟨hf, rfl, rfl, e⟩ | ⟨-, -, e⟩ | ⟨-, e⟩ := execQdPoll_cases a b ea eb s
      · cases e.symm.trans h
        exact .inr (.inr (.inr ⟨hf, a, b, rfl, rfl, rfl⟩))
      · cases e.symm.trans h
        exact .inl ⟨rfl, rfl⟩
      · cases e.symm.trans h
        exact .inl ⟨rfl, rfl⟩
    | qdTicks =>
      obtain ⟨-, e⟩ | ⟨-, e⟩ := execQdTicks_cases s
      · cases e.symm.trans h
        exact .inl ⟨rfl, rfl⟩
      · cases e.symm.trans h
        exact .inl ⟨rfl, rfl⟩
    | qdRstt =>
      obtain ⟨-, e⟩ | ⟨-, e⟩ := execQdRstt_cases s
      · cases e.symm.trans h
        exact .inr (.inr (.inl ⟨rfl, rfl⟩))
      · cases e.symm.trans h
        exact .inl ⟨rfl, rfl⟩
    | _ => cases hu
  · exact .inl ⟨exec_keeps_other_unit i .qd s t h hu, directionOf_exec_of_ne_qd i s t h hu⟩

/-- What `VM.ADD` does to the map in service: it takes the entry, or records the fault of a full table or of a
duplicate (43_velocity_map.md R176, R178, R179). -/
def AddsOrFaults (d : Nat) (w : ScaleBits) (c : Cfg) (v v' : VM) : Prop :=
  (v.len ≠ c.mapSize ∧ hasThreshold v.tbl d = false ∧
    v' = { v with tbl := insertEntry v.tbl { thr := d, scale := w } }) ∨
  (v.len = c.mapSize ∧ v' = { v with fault := faultBits .configMapCapacity }) ∨
  (v.len ≠ c.mapSize ∧ hasThreshold v.tbl d = true ∧ v' = { v with fault := faultBits .configDuplicateThreshold })

theorem mapTick_vm (now : Nat) (t : Tick) (s : State) :
    (mapTick now t s).2.vm = s.vm ∨
    (mapTick now t s).2.vm = { s.vm with lastValid := true, lastInstant := now } := by
  obtain ⟨-, e⟩ | ⟨-, -, -, e⟩ | ⟨-, -, -, e⟩ := mapTick_cases now t s <;> simp [e]

/-- `VM` holds, is constructed, or takes an addition or a tick in service. -/
theorem vm_after_exec (i : Instr) (s t : State) (h : exec i s = .next t) :
    t.vm = s.vm ∨ (i = .vmInit ∧ t.vm = (State.resetOf s.cfg).vm) ∨
    (s.vm.fault = 0#4 ∧ ∃ d w, i = .vmAdd d w ∧ AddsOrFaults d w s.cfg s.vm t.vm) ∨
    (s.vm.fault = 0#4 ∧ ∃ d w, i = .vmMap d true w ∧
      t.vm = { s.vm with lastValid := true, lastInstant := d }) := by
  by_cases hu : unitOf i = .vm
  · cases i with
    | vmInit =>
      cases h
      exact .inr (.inl ⟨rfl, rfl⟩)
    | vmAdd d w =>
      obtain ⟨hf, hl, hd, e⟩ | ⟨hf, hl, e⟩ | ⟨hf, hl, hd, e⟩ | ⟨-, e⟩ := execVmAdd_cases d w s
      · cases e.symm.trans h
        exact .inr (.inr (.inl ⟨hf, d, w, rfl, .inl ⟨hl, hd, rfl⟩⟩))
      · cases e.symm.trans h
        exact .inr (.inr (.inl ⟨hf, d, w, rfl, .inr (.inl ⟨hl, rfl⟩)⟩))
      · cases e.symm.trans h
        exact .inr (.inr (.inl ⟨hf, d, w, rfl, .inr (.inr ⟨hl, hd, rfl⟩)⟩))
      · cases e.symm.trans h
        exact .inl rfl
    | vmMap d a w =>
      obtain ⟨-, -, e⟩ | ⟨hf, rfl, e⟩ | ⟨-, e⟩ := execVmMap_cases d a w s
      · cases e.symm.trans h
        exact .inl rfl
      · cases e.symm.trans h
        obtain kept | recorded := mapTick_vm d w s
        · exact .inl kept
        · exact .inr (.inr (.inr ⟨hf, d, w, rfl, recorded⟩))
      · cases e.symm.trans h
        exact .inl rfl
    | _ => cases hu
  · exact .inl (exec_keeps_other_unit i .vm s t h hu)

end Sys2Proof.Machine
end

section
/-!
PROOF. Only `VM.INIT` and reset forget the last instant (10_state.md R50).
-/

namespace Sys2Proof.Machine

theorem addsOrFaults_lastValid (d : Nat) (w : ScaleBits) (c : Cfg) (v v' : VM) (h : AddsOrFaults d w c v v') :
    v'.lastValid = v.lastValid := by
  obtain ⟨-, -, rfl⟩ | ⟨-, rfl⟩ | ⟨-, -, rfl⟩ := h <;> rfl

/-- Of all an operation can do to the map, only construction clears `last_valid` (10_state.md R50). -/
theorem eq_vmInit_of_lastValid_cleared (i : Instr) (s t : State) (h : exec i s = .next t)
    (hs : s.vm.lastValid = true) (ht : t.vm.lastValid = false) : i = .vmInit := by
  obtain e | ⟨hi, -⟩ | ⟨-, d, w, -, e⟩ | ⟨-, d, w, -, e⟩ := vm_after_exec i s t h
  · simp [e, hs] at ht
  · exact hi
  · simp [addsOrFaults_lastValid d w s.cfg s.vm t.vm e, hs] at ht
  · simp [e] at ht

/-- Settles O34: a step that clears `last_valid` took a reset or ran an operation that cleared it. -/
theorem lastValidClearedOnlyByVmInit : Obligations.LastValidClearedOnlyByVmInit := by
  refine ⟨eq_vmInit_of_lastValid_cleared, fun s t h hs ht => ?_⟩
  have absurd_kept (hk : t.vm = s.vm) : False := by simp [hk, hs] at ht
  obtain ⟨-, rfl⟩ | ⟨x, rest, hi, hx⟩ := step_cases s t h
  · exact (absurd_kept rfl).elim
  · refine ⟨rest, ?_⟩
    obtain ⟨-, rfl⟩ | ⟨rfl, -⟩ | ⟨w, rfl, -, ⟨e, -, rfl⟩ | ⟨i, hd, he⟩⟩ := hx
    · exact (absurd_kept rfl).elim
    · exact .inl hi
    · exact (absurd_kept rfl).elim
    · have hinit := eq_vmInit_of_lastValid_cleared i { s with inp := rest } t he hs ht
      exact .inr ⟨w, hi, hinit ▸ hd⟩

end Sys2Proof.Machine
end

section
/-!
PROOF. The invariant of 10_state.md R41, R48, R49 and R51 (with log 16): each change a unit can undergo keeps that
unit's part of it.
-/

namespace Sys2Proof.Machine

/-- A unit as construction leaves it, of any size. -/
theorem filterUnitInv_fresh (n : Nat) (fs : List Filter) (h : ∀ f ∈ fs, f = freshFilter) :
    FilterUnitInv n (constructionFault n) fs := by
  refine ⟨rfl, fun hn f hf => ?_, fun _ => h⟩
  obtain ⟨h2, h8⟩ := (sizeLegal_iff n).1 hn
  rw [h f hf]
  exact freshFilter_inv n h2 h8

/-- A unit in service whose filters take one sample each. -/
theorem filterUnitInv_filterStep (n : Nat) (fault : FaultBits) (fs gs : List Filter)
    (hinv : FilterUnitInv n fault fs) (hf : fault = 0#4)
    (hg : ∀ g ∈ gs, ∃ f ∈ fs, ∃ al a, g = (filterStep n al f a).1) : FilterUnitInv n fault gs := by
  obtain ⟨hfault, hlegal, -⟩ := hinv
  have hn : sizeLegal n = true := (constructionFault_eq_zero_iff n).1 (hfault.symm.trans hf)
  obtain ⟨h2, h8⟩ := (sizeLegal_iff n).1 hn
  refine ⟨hfault, fun _ g hgm => ?_, fun hn' => by simp [hn] at hn'⟩
  obtain ⟨f, hfm, al, a, rfl⟩ := hg g hgm
  exact filterStep_inv n al f a h2 h8 (hlegal hn f hfm)

theorem resetOf_vm_inv (c : Cfg) : (State.resetOf c).vm.Inv c :=
  ⟨Nat.zero_le _, List.Pairwise.nil, by simp [State.resetOf], Nat.two_pow_pos _, .inl rfl⟩

/-- Settles O49: three units just constructed and an empty map. -/
theorem resetHasInvariant : Obligations.ResetHasInvariant := fun c =>
  ⟨filterUnitInv_fresh c.dfN _ (by simp [State.resetOf]), filterUnitInv_fresh c.btnN _ (by simp [State.resetOf]),
    filterUnitInv_fresh c.qdN _ (by simp [State.resetOf]), resetOf_vm_inv c⟩

/-- An addition, refused or not, by an operation whose threshold fits `TW` bits. -/
theorem addsOrFaults_keeps_inv (d : Nat) (w : ScaleBits) (c : Cfg) (v v' : VM) (hv : v.Inv c)
    (hf : v.fault = 0#4) (hd : d < 2 ^ c.tw) (h : AddsOrFaults d w c v v') : v'.Inv c := by
  obtain ⟨hlen, hsorted, hthr, hlast, -⟩ := hv
  obtain ⟨hl, hnew, rfl⟩ | ⟨hl, rfl⟩ | ⟨-, -, rfl⟩ := h
  · refine ⟨?_, insertEntry_sorted v.tbl _ hsorted hnew, fun x hx => ?_, hlast, .inl hf⟩
    · have hgrow := insertEntry_length v.tbl { thr := d, scale := w }
      simp only [VM.len] at hlen hl ⊢
      omega
    · obtain rfl | hx := (mem_insertEntry v.tbl _ x).1 hx
      · exact hd
      · exact hthr x hx
  · exact ⟨hlen, hsorted, hthr, hlast, .inr (.inl ⟨rfl, hl⟩)⟩
  · exact ⟨hlen, hsorted, hthr, hlast, .inr (.inr rfl)⟩

theorem exec_keeps_df_inv (i : Instr) (s t : State) (hinv : FilterUnitInv s.cfg.dfN s.df.fault [s.df.f])
    (h : exec i s = .next t) : FilterUnitInv s.cfg.dfN t.df.fault [t.df.f] := by
  obtain e | ⟨-, e⟩ | ⟨hf, a, -, e⟩ := df_after_exec i s t h <;> rw [e]
  · exact hinv
  · exact filterUnitInv_fresh _ _ (by simp [State.resetOf])
  · exact filterUnitInv_filterStep _ _ _ _ hinv hf fun g hg =>
      ⟨s.df.f, by simp, s.cfg.dfAL, a, List.mem_singleton.1 hg⟩

theorem exec_keeps_btn_inv (i : Instr) (s t : State) (hinv : FilterUnitInv s.cfg.btnN s.btn.fault [s.btn.f])
    (h : exec i s = .next t) : FilterUnitInv s.cfg.btnN t.btn.fault [t.btn.f] := by
  obtain e | ⟨-, e⟩ | ⟨hf, a, -, e⟩ := btn_after_exec i s t h <;> rw [e]
  · exact hinv
  · exact filterUnitInv_fresh _ _ (by simp [State.resetOf])
  · exact filterUnitInv_filterStep _ _ _ _ hinv hf fun g hg =>
      ⟨s.btn.f, by simp, s.cfg.btnAL, a, List.mem_singleton.1 hg⟩

theorem exec_keeps_qd_inv (i : Instr) (s t : State)
    (hinv : FilterUnitInv s.cfg.qdN s.qd.fault [s.qd.fa, s.qd.fb]) (h : exec i s = .next t) :
    FilterUnitInv s.cfg.qdN t.qd.fault [t.qd.fa, t.qd.fb] := by
  obtain ⟨e, -⟩ | ⟨-, e⟩ | ⟨-, e⟩ | ⟨hf, a, b, -, -, e⟩ := qd_after_exec i s t h <;> rw [e]
  · exact hinv
  · exact filterUnitInv_fresh _ _ (by simp [State.resetOf])
  · exact hinv
  · refine filterUnitInv_filterStep _ _ _ _ hinv hf fun g hg => ?_
    obtain rfl | rfl := List.mem_pair.1 hg
    · exact ⟨s.qd.fa, by simp, s.cfg.qdAL, a, rfl⟩
    · exact ⟨s.qd.fb, by simp, s.cfg.qdAL, b, rfl⟩

theorem exec_keeps_vm_inv (i : Instr) (s t : State) (hw : i.wellFormed s.cfg.tw = true)
    (hinv : s.vm.Inv s.cfg) (h : exec i s = .next t) : t.vm.Inv s.cfg := by
  obtain e | ⟨-, e⟩ | ⟨hf, d, w, rfl, e⟩ | ⟨-, d, w, rfl, e⟩ := vm_after_exec i s t h
  · rwa [e]
  · rw [e]
    exact resetOf_vm_inv s.cfg
  · exact addsOrFaults_keeps_inv d w s.cfg s.vm t.vm hinv hf (of_decide_eq_true hw) e
  · obtain ⟨hlen, hsorted, hthr, -, hfault⟩ := hinv
    rw [e]
    exact ⟨hlen, hsorted, hthr, of_decide_eq_true hw, hfault⟩

/-- An operation that a command word can carry keeps the invariant, unit by unit. -/
theorem exec_keeps_inv (i : Instr) (s t : State) (hw : i.wellFormed s.cfg.tw = true) (hinv : s.Inv)
    (h : exec i s = .next t) : t.Inv := by
  obtain ⟨hdf, hbtn, hqd, hvm⟩ := hinv
  unfold State.Inv
  rw [(exec_keeps_cfg_inp i s t h).1]
  exact ⟨exec_keeps_df_inv i s t hdf h, exec_keeps_btn_inv i s t hbtn h, exec_keeps_qd_inv i s t hqd h,
    exec_keeps_vm_inv i s t hw hvm h⟩

/-- Settles O48, by the cases of a step: the invariant does not speak of the stream or of the response, reset
establishes it, and the decoder gives well-formed operations only. -/
theorem stepKeepsInvariant : Obligations.StepKeepsInvariant := by
  intro s t hinv h
  obtain ⟨-, rfl⟩ | ⟨x, rest, -, hx⟩ := step_cases s t h
  · exact hinv
  · obtain ⟨-, rfl⟩ | ⟨-, rfl⟩ | ⟨w, -, -, ⟨e, -, rfl⟩ | ⟨i, hd, he⟩⟩ := hx
    · exact hinv
    · exact resetHasInvariant s.cfg
    · exact hinv
    · exact exec_keeps_inv i { s with inp := rest } t (decode_wellFormed s.cfg.tw _ i hd) hinv he

end Sys2Proof.Machine
end

section
/-!
PROOF. The accumulator is the sum of the emitted directions (10_state.md R45): one operation adds the direction
it answers, and a run is an induction over its operations.
-/

namespace Sys2Proof.Machine

/-- An operation other than `QD.INIT` and `QD.RSTT` moves the accumulator by the direction it answers
(42_quadrature_decoder.md R158). -/
theorem ticks_after_exec (i : Instr) (s t : State) (h : exec i s = .next t) (hinit : i ≠ .qdInit)
    (hrstt : i ≠ .qdRstt) : t.qd.ticks = accumulate s.qd.ticks (directionOf t.rsp) := by
  obtain ⟨e, hd⟩ | ⟨hi, -⟩ | ⟨hi, -⟩ | ⟨-, a, b, -, hd, e⟩ := qd_after_exec i s t h
  · rw [e, hd, accumulate]
  · exact absurd hi hinit
  · exact absurd hi hrstt
  · rw [e, hd]

theorem execAll_cons (i : Instr) (is : List Instr) (s u : State) (h : exec i s = .next u) :
    execAll (i :: is) s = execAll is u := by
  simp only [execAll, h]

theorem responses_cons (i : Instr) (is : List Instr) (s u : State) (h : exec i s = .next u) :
    responses (i :: is) s = u.rsp :: responses is u := by
  simp only [responses, h]

/-- The directions that a run of operations answers, as tick counts (30_encoding.md R101). -/
def answeredTicks (is : List Instr) (s : State) : List Tick :=
  ((responses is s).filterMap directionOf).map directionTick

theorem accumulate_add_answeredTicks (i : Instr) (is : List Instr) (s u : State) (h : exec i s = .next u)
    (x : Tick) :
    accumulate x (directionOf u.rsp) + (answeredTicks is u).sum = x + (answeredTicks (i :: is) s).sum := by
  unfold answeredTicks
  rw [responses_cons i is s u h]
  cases hd : directionOf u.rsp with
  | none => simp [hd, accumulate]
  | some d => simp [hd, accumulate, BitVec.add_assoc]

/-- A run completes, and the accumulator moves by the sum of the directions answered. -/
theorem execAll_ticks (is : List Instr) (s : State) (hops : ∀ i ∈ is, i ≠ .qdInit ∧ i ≠ .qdRstt) :
    ∃ t, execAll is s = .next t ∧ t.qd.ticks = s.qd.ticks + (answeredTicks is s).sum := by
  induction is generalizing s with
  | nil => exact ⟨s, rfl, by simp [answeredTicks, responses]⟩
  | cons i is ih =>
    obtain ⟨⟨hinit, hrstt⟩, hrest⟩ := List.forall_mem_cons.1 hops
    obtain ⟨u, hu, -⟩ := exec_next_keeps i s
    obtain ⟨t, ht, hsum⟩ := ih u hrest
    refine ⟨t, (execAll_cons i is s u hu).trans ht, ?_⟩
    calc t.qd.ticks = u.qd.ticks + (answeredTicks is u).sum := hsum
      _ = accumulate s.qd.ticks (directionOf u.rsp) + (answeredTicks is u).sum := by
        rw [ticks_after_exec i s u hu hinit hrstt]
      _ = s.qd.ticks + (answeredTicks (i :: is) s).sum := accumulate_add_answeredTicks i is s u hu _

/-- Settles O24, by induction on the operations; the statement's value of a direction is `directionTick`. -/
theorem ticksSumEmittedDirections : Obligations.TicksSumEmittedDirections := by
  intro is s hops
  obtain ⟨t, ht, hsum⟩ := execAll_ticks is s hops
  refine ⟨t, ht, hsum.trans ?_⟩
  refine congrArg (fun value => _ + (List.map value _).sum) (funext fun d => ?_)
  cases d <;> rfl

end Sys2Proof.Machine
end

section
/-!
PROOF. Operations on different units commute (20_memory.md R81). On each unit at most one of the two operations
acts, and it acts alike whether the other went before it (`exec_alike`) and is undisturbed by it after
(`exec_touchesOnly`). The result ports need one fact more: a strobed operation overwrites its unit's ports.
-/

namespace Sys2Proof.Machine

/-- The result ports of the unit hold the answer of the last operation (30_encoding.md R107). -/
def PortsHoldAnswer (u : UnitId) (t : State) : Prop := heldBy u t.ports = t.rsp

theorem respond_portsHoldAnswer (u : UnitId) (r : Response) (s : State) :
    PortsHoldAnswer u (respond (some u) r s) := by
  cases u <;> rfl

theorem raise_portsHoldAnswer (u : UnitId) (c : FaultCode) (s : State) :
    PortsHoldAnswer u (raise (some u) c s) :=
  respond_portsHoldAnswer u _ _

theorem construct_portsHoldAnswer (u : UnitId) (n : Nat) (s : State) : PortsHoldAnswer u (construct u n s) := by
  rw [construct_eq]
  exact respond_portsHoldAnswer u _ _

theorem inService_portsHoldAnswer (u : UnitId) (s k : State) (hk : PortsHoldAnswer u k) :
    PortsHoldAnswer u (inService u (some u) s k) := by
  obtain ⟨-, e⟩ | ⟨-, e⟩ := inService_cases u (some u) s k
  · rwa [e]
  · rw [e]
    exact respond_portsHoldAnswer u _ s

/-- An operation with a strobe leaves its answer in its unit's result ports, whatever they held. -/
theorem exec_portsHoldAnswer (i : Instr) (u : UnitId) (s t : State) (h : exec i s = .next t)
    (hp : strobeOf i = some u) : PortsHoldAnswer u t := by
  cases i with
  | btnIsp | btnIsr | qdTicks => cases hp
  | dfInit | btnInit | qdInit =>
    cases hp
    cases h
    exact construct_portsHoldAnswer _ _ _
  | vmInit =>
    cases hp
    cases h
    exact respond_portsHoldAnswer .vm _ _
  | dfPoll _ | qdRstt =>
    cases hp
    cases h
    exact inService_portsHoldAnswer _ s _ (respond_portsHoldAnswer _ _ _)
  | btnPoll _ _ | qdPoll _ _ _ _ =>
    cases hp
    cases h
    refine inService_portsHoldAnswer _ s _ ?_
    split
    · exact raise_portsHoldAnswer _ _ s
    · exact respond_portsHoldAnswer _ _ _
  | vmAdd _ _ =>
    cases hp
    cases h
    refine inService_portsHoldAnswer .vm s _ ?_
    split_ifs
    · exact raise_portsHoldAnswer .vm _ s
    · exact raise_portsHoldAnswer .vm _ s
    · exact respond_portsHoldAnswer .vm _ _
  | vmMap _ _ _ =>
    cases hp
    cases h
    refine inService_portsHoldAnswer .vm s _ ?_
    split <;> exact respond_portsHoldAnswer .vm _ _

theorem strobeOf_eq_none_or (i : Instr) : strobeOf i = none ∨ strobeOf i = some (unitOf i) := by
  cases i <;> simp [strobeOf, unitOf]

/-- Two states hold the same registers and the same result ports of one unit. -/
def AgreeOn (u : UnitId) (s t : State) : Prop := SameUnit u s t ∧ heldBy u t.ports = heldBy u s.ports

theorem AgreeOn.symm {u : UnitId} {s t : State} (h : AgreeOn u s t) : AgreeOn u t s :=
  ⟨sameUnit_symm u s t h.1, h.2.symm⟩

theorem AgreeOn.trans {u : UnitId} {s t r : State} (h : AgreeOn u s t) (h' : AgreeOn u t r) : AgreeOn u s r :=
  ⟨sameUnit_trans u s t r h.1 h'.1, h'.2.trans h.2⟩

theorem ports_eq_of_heldBy (p q : ResultPorts) (h : ∀ u, heldBy u q = heldBy u p) : q = p := by
  cases p
  cases q
  rw [ResultPorts.mk.injEq]
  exact ⟨h .df, h .btn, h .qd, h .vm⟩

/-- Off its unit, an operation changes neither registers nor result ports. -/
theorem exec_agreeOn_of_ne (i : Instr) (v : UnitId) (s t : State) (h : exec i s = .next t) (hv : v ≠ unitOf i) :
    AgreeOn v s t := exec_touchesOnly i s t h v hv

/-- On its unit, an operation takes states that agree there to states that agree there, with one answer. -/
theorem exec_agreeOn_self (i : Instr) (s s' t t' : State) (h : exec i s = .next t) (h' : exec i s' = .next t')
    (hc : s'.cfg = s.cfg) (ha : AgreeOn (unitOf i) s s') : AgreeOn (unitOf i) t t' ∧ t'.rsp = t.rsp := by
  obtain ⟨hr, hu⟩ := operationDependsOnlyOnItsUnit i s s' t t' hc ha.1 h h'
  refine ⟨⟨hu, ?_⟩, hr⟩
  obtain hp | hp := strobeOf_eq_none_or i
  · obtain ⟨r, rfl⟩ := exec_of_no_strobe i s t hp h
    obtain ⟨r', rfl⟩ := exec_of_no_strobe i s' t' hp h'
    exact ha.2
  · calc heldBy (unitOf i) t'.ports = t'.rsp := exec_portsHoldAnswer i _ s' t' h' hp
      _ = t.rsp := hr
      _ = heldBy (unitOf i) t.ports := (exec_portsHoldAnswer i _ s t h hp).symm

/-- An operation `i` after an operation `j` of another unit: it answers as it does alone, and wherever `j` does
not act it ends as it does alone. -/
theorem exec_after_other_unit (i j : Instr) (s a b t : State) (hij : unitOf i ≠ unitOf j)
    (ha : exec i s = .next a) (hb : exec j s = .next b) (ht : exec i b = .next t) :
    t.rsp = a.rsp ∧ ∀ v, v ≠ unitOf j → AgreeOn v a t := by
  have hcfg : b.cfg = s.cfg := (exec_keeps_cfg_inp j s b hb).1
  obtain ⟨hself, hrsp⟩ :=
    exec_agreeOn_self i s b a t ha ht hcfg (exec_agreeOn_of_ne j _ s b hb hij)
  refine ⟨hrsp, fun v hv => ?_⟩
  by_cases hvi : v = unitOf i
  · rw [hvi]
    exact hself
  · have hsa : AgreeOn v s a := exec_agreeOn_of_ne i v s a ha hvi
    have hsb : AgreeOn v s b := exec_agreeOn_of_ne j v s b hb hv
    have hbt : AgreeOn v b t := exec_agreeOn_of_ne i v b t ht hvi
    exact hsa.symm.trans (hsb.trans hbt)

/-- Wherever `j` does not act, both orders of `i` and `j` end as `i` alone does. -/
theorem exec_orders_agreeOn (i j : Instr) (v : UnitId) (s a b t t' : State) (hij : unitOf i ≠ unitOf j)
    (ha : exec i s = .next a) (hb : exec j s = .next b) (ht : exec j a = .next t) (ht' : exec i b = .next t')
    (hv : v ≠ unitOf j) : AgreeOn v t t' :=
  have hat : AgreeOn v a t := exec_agreeOn_of_ne j v a t ht hv
  have hat' : AgreeOn v a t' := (exec_after_other_unit i j s a b t' hij ha hb ht').2 v hv
  hat.symm.trans hat'

/-- Settles O52: no unit is that of both operations, so `exec_orders_agreeOn` for one order or the other covers
it. -/
theorem operationsOnDifferentUnitsCommute : Obligations.OperationsOnDifferentUnitsCommute := by
  intro i j s hij
  obtain ⟨a, ha, -⟩ := exec_next_keeps i s
  obtain ⟨b, hb, -⟩ := exec_next_keeps j s
  obtain ⟨t, ht, -⟩ := exec_next_keeps j a
  obtain ⟨t', ht', -⟩ := exec_next_keeps i b
  have hends : ∀ v, AgreeOn v t t' := by
    intro v
    by_cases hv : v = unitOf j
    · have hvi : v ≠ unitOf i := hv ▸ hij.symm
      exact (exec_orders_agreeOn j i v s b a t' t hij.symm hb ha ht' ht hvi).symm
    · exact exec_orders_agreeOn i j v s a b t t' hij ha hb ht ht' hv
  have hi : t'.rsp = a.rsp := (exec_after_other_unit i j s a b t' hij ha hb ht').1
  have hj : t.rsp = b.rsp := (exec_after_other_unit j i s b a t hij.symm hb ha ht).1
  refine ⟨t, t', a.rsp, b.rsp, ?_, ?_, (sameRegisters_iff t t').2 fun v => (hends v).1,
    ports_eq_of_heldBy _ _ fun v => (hends v).2, ?_, ?_⟩
  · rw [execAll_cons i _ s a ha, execAll_cons j _ a t ht, execAll]
  · rw [execAll_cons j _ s b hb, execAll_cons i _ b t' ht', execAll]
  · rw [responses_cons i _ s a ha, responses_cons j _ a t ht, responses, hj]
  · rw [responses_cons j _ s b hb, responses_cons i _ b t' ht', responses, hi]

end Sys2Proof.Machine
end

section
/-!
PROOF. The command word, both ways and at every `TW` (30_encoding.md R92 to R103): an operation's fields are legal
and give it back, legal fields are those of the operation they stand for, and a word and its fields determine each
other (Laws/Decode.lean).
-/

namespace Sys2Proof

theorem fieldsRoundTrip (i : Instr) : Laws.FieldsRoundTrip.Statement i := by
  cases i with
  | dfInit => exact Laws.FieldsRoundTrip.dfInit
  | dfPoll a => exact Laws.FieldsRoundTrip.dfPoll a
  | btnInit => exact Laws.FieldsRoundTrip.btnInit
  | btnPoll a ea => exact Laws.FieldsRoundTrip.btnPoll a ea
  | btnIsp => exact Laws.FieldsRoundTrip.btnIsp
  | btnIsr => exact Laws.FieldsRoundTrip.btnIsr
  | qdInit => exact Laws.FieldsRoundTrip.qdInit
  | qdPoll a b ea eb => exact Laws.FieldsRoundTrip.qdPoll a b ea eb
  | qdTicks => exact Laws.FieldsRoundTrip.qdTicks
  | qdRstt => exact Laws.FieldsRoundTrip.qdRstt
  | vmInit => exact Laws.FieldsRoundTrip.vmInit
  | vmAdd d w => exact Laws.FieldsRoundTrip.vmAdd d w
  | vmMap d a w => exact Laws.FieldsRoundTrip.vmMap d a w

theorem operandFits (i : Instr) : Laws.OperandFits.Statement i := by
  cases i with
  | vmAdd d w => exact Laws.OperandFits.vmAdd d w
  | vmMap d a w => exact Laws.OperandFits.vmMap d a w
  | _ => exact fun tw _ => Nat.two_pow_pos tw

theorem decodeFields_fieldsOfInstr (i : Instr) : decodeFields (fieldsOfInstr i) = .ok i := by
  obtain ⟨hop, hz, hunused, hbuild⟩ := fieldsRoundTrip i
  refine (decodeFields_eq_ok_iff _ i).2 ⟨opcodeOfInstr i, ?_, hz, hunused, hbuild.symm⟩
  rw [hop, opcodeOf_opcodeBits]

/-- Settles O39: the fields come back out of the word, and the operation out of the fields. -/
theorem decodeOfEncode : Obligations.DecodeOfEncode := by
  intro tw i hwf
  calc decode tw (encode tw i)
      = decodeFields (fieldsOfInstr i) := by
        rw [decode, encode, splitWord_joinWord tw _ (operandFits i tw hwf)]
    _ = .ok i := decodeFields_fieldsOfInstr i

/-- The fields an opcode's row admits (30_encoding.md R95, R103). -/
def LegalFields (o : Opcode) (f : CmdFields) : Prop :=
  f.op = opcodeBits o ∧ f.z = 0#20 ∧ unusedFieldsZero (usedFields o) f = true

theorem opcodeOf_eq_some_iff (op : BitVec 8) (o : Opcode) : opcodeOf op = some o ↔ op = opcodeBits o :=
  ⟨fun h => (opcodeBits_of_opcodeOf op o h).symm, fun h => by rw [h, opcodeOf_opcodeBits]⟩

theorem decodeFields_eq_ok_iff_legalFields (f : CmdFields) (i : Instr) :
    decodeFields f = .ok i ↔ ∃ o, LegalFields o f ∧ i = buildInstr o f := by
  simp only [decodeFields_eq_ok_iff, opcodeOf_eq_some_iff, LegalFields, and_assoc]

theorem unusedFieldsZero_iff (u : UsedFields) (f : CmdFields) :
    unusedFieldsZero u f = true ↔
      (u.a = false → f.a = false) ∧ (u.b = false → f.b = false) ∧ (u.ea = false → f.ea = false) ∧
        (u.eb = false → f.eb = false) ∧ (u.w = false → f.w = 0#32) ∧ (u.d = false → f.d = 0) := by
  simp only [unusedFieldsZero, Bool.and_eq_true, Bool.or_eq_true, Bool.not_eq_true', beq_iff_eq, and_assoc,
    ← Bool.not_eq_true, imp_iff_not_or, not_not]

/-- An operation keeps every field it uses, and the fields it does not use are 0 in a legal word. -/
theorem fieldsOfInstr_buildInstr (o : Opcode) (f : CmdFields) (h : LegalFields o f) :
    fieldsOfInstr (buildInstr o f) = f := by
  obtain ⟨hop, hz, hunused⟩ := h
  obtain ⟨ha, hb, hea, heb, hw, hd⟩ := (unusedFieldsZero_iff _ f).1 hunused
  obtain ⟨op, z, eb, ea, b, a, w, d⟩ := f
  cases o <;> simp_all [fieldsOfInstr, buildInstr, usedFields, opcodeOfInstr]

/-- Settles O40: the decoded operation has the fields of the word, and the word is the join of its fields. -/
theorem encodeOfDecode : Obligations.EncodeOfDecode := by
  intro tw c i h
  refine ⟨decode_wellFormed tw c i h, ?_⟩
  obtain ⟨o, hlegal, rfl⟩ := (decodeFields_eq_ok_iff_legalFields (splitWord tw c) i).1 h
  calc encode tw (buildInstr o (splitWord tw c))
      = joinWord tw (splitWord tw c) := by rw [encode, fieldsOfInstr_buildInstr o _ hlegal]
    _ = c := joinWord_splitWord tw c

end Sys2Proof
end

section
/-!
PROOF. What a step does with an illegal command word (30_encoding.md R102, R103; 60_exceptions.md R207).
-/

namespace Sys2Proof.Machine

theorem readCommand_of_decode_error (tw w : Nat) (e : DecodeError) (hw : w < 2 ^ (64 + tw))
    (hd : decode tw (BitVec.ofNat (64 + tw) w) = .error e) : readCommand tw w = .illegal e := by
  simp only [readCommand, isCommandWord, hw, decide_true, if_true, hd]

theorem step_of_decode_error (s : State) (w : Nat) (rest : List Input) (e : DecodeError)
    (hi : s.inp = .command w :: rest) (hw : w < 2 ^ (64 + s.cfg.tw))
    (hd : decode s.cfg.tw (BitVec.ofNat (64 + s.cfg.tw) w) = .error e) :
    step s = .next (illegalCommand { s with inp := rest }) := by
  simp only [step, takeInput, hi, readCommand_of_decode_error s.cfg.tw w e hw hd]

theorem illegalCommand_sameRegisters (s : State) : SameRegisters s (illegalCommand s) := by
  rw [illegalCommand_eq]
  exact ⟨rfl, rfl, rfl, rfl⟩

/-- Settles O45: the step's branch for an illegal word, which only answers. -/
theorem illegalWordOnlyAnswers : Obligations.IllegalWordOnlyAnswers :=
  fun s w rest e hi hw hd =>
    ⟨illegalCommand { s with inp := rest }, step_of_decode_error s w rest e hi hw hd, raise_rsp none _ _,
      illegalCommand_sameRegisters { s with inp := rest }⟩

end Sys2Proof.Machine
end

section
/-!
PROOF. The decoder is the mask and match search of the opcode table (30_encoding.md R103).  A row's mask and match are
words with fields, at `TW = 64` those of the table; AND acts field by field, and a masked word is the match exactly
when its fields are legal for the row's opcode.
-/

namespace Sys2Proof

theorem opcodeOfInstr_buildInstr (o : Opcode) (f : CmdFields) : opcodeOfInstr (buildInstr o f) = o := by
  cases o <;> rfl

/-- The AND of two words, field by field. -/
def CmdFields.and (f g : CmdFields) : CmdFields where
  op := f.op &&& g.op
  z := f.z &&& g.z
  eb := f.eb && g.eb
  ea := f.ea && g.ea
  b := f.b && g.b
  a := f.a && g.a
  w := f.w &&& g.w
  d := f.d &&& g.d

theorem joinWord_and (tw : Nat) (f g : CmdFields) :
    joinWord tw (f.and g) = joinWord tw f &&& joinWord tw g := by
  apply BitVec.eq_of_getLsbD_eq
  intro j _
  simp only [BitVec.getLsbD_and, joinWord_getLsbD, CmdFields.and, Nat.testBit_and]
  split_ifs <;> rfl

/-- The fields of a row's mask: ones in every field that the row fixes (30_encoding.md R103). -/
def maskFields (tw : Nat) (o : Opcode) : CmdFields where
  op := BitVec.allOnes 8
  z := BitVec.allOnes 20
  eb := !(usedFields o).eb
  ea := !(usedFields o).ea
  b := !(usedFields o).b
  a := !(usedFields o).a
  w := if (usedFields o).w then 0#32 else BitVec.allOnes 32
  d := if (usedFields o).d then 0 else 2 ^ tw - 1

/-- The fields of a row's match: the opcode, and 0 elsewhere (30_encoding.md R103). -/
def matchFields (o : Opcode) : CmdFields where
  op := opcodeBits o
  z := 0#20
  eb := false
  ea := false
  b := false
  a := false
  w := 0#32
  d := 0

theorem tableMask_eq_joinWord (o : Opcode) : tableMask o = joinWord 64 (maskFields 64 o) := by
  cases o <;> rfl

theorem tableMatch_eq_joinWord (o : Opcode) : tableMatch o = joinWord 64 (matchFields o) := by
  cases o <;> rfl

theorem joinWord_inj (tw : Nat) (f g : CmdFields) (hf : f.d < 2 ^ tw) (hg : g.d < 2 ^ tw) :
    joinWord tw f = joinWord tw g ↔ f = g := by
  refine ⟨fun h => ?_, fun h => h ▸ rfl⟩
  rw [← splitWord_joinWord tw f hf, h, splitWord_joinWord tw g hg]

theorem and_not_eq_false_iff (x used : Bool) : (x && !used) = false ↔ (used = false → x = false) := by
  cases used <;> simp

theorem and_maskFields_w_eq_zero_iff (tw : Nat) (o : Opcode) (x : BitVec 32) :
    x &&& (maskFields tw o).w = 0#32 ↔ ((usedFields o).w = false → x = 0#32) := by
  unfold maskFields
  cases (usedFields o).w
  · simp only [Bool.false_eq_true, if_false, BitVec.and_allOnes, true_imp_iff]
  · simp

theorem and_maskFields_d_eq_zero_iff (tw : Nat) (o : Opcode) (x : Nat) (hx : x < 2 ^ tw) :
    x &&& (maskFields tw o).d = 0 ↔ ((usedFields o).d = false → x = 0) := by
  unfold maskFields
  cases (usedFields o).d
  · simp only [Bool.false_eq_true, if_false, Nat.and_two_pow_sub_one_of_lt_two_pow hx, true_imp_iff]
  · simp

/-- Masking the fields leaves the match exactly when they are legal: it keeps what the row fixes and no more. -/
theorem and_maskFields_eq_matchFields_iff (tw : Nat) (o : Opcode) (f : CmdFields) (hd : f.d < 2 ^ tw) :
    f.and (maskFields tw o) = matchFields o ↔ LegalFields o f := by
  have hop : f.op &&& (maskFields tw o).op = f.op := BitVec.and_allOnes
  have hz : f.z &&& (maskFields tw o).z = f.z := BitVec.and_allOnes
  rw [LegalFields, unusedFieldsZero_iff, CmdFields.and, matchFields, CmdFields.mk.injEq, hop, hz,
    and_maskFields_w_eq_zero_iff, and_maskFields_d_eq_zero_iff tw o f.d hd]
  simp only [maskFields, and_not_eq_false_iff]
  tauto

/-- At the table's width, a word is in an opcode's row exactly when its fields are legal for the opcode. -/
theorem and_tableMask_eq_tableMatch_iff (c : BitVec 128) (o : Opcode) :
    c &&& tableMask o = tableMatch o ↔ LegalFields o (splitWord 64 c) := by
  have hd : (splitWord 64 c).d < 2 ^ 64 := splitWord_d_lt 64 c
  have hand : ((splitWord 64 c).and (maskFields 64 o)).d < 2 ^ 64 := lt_of_le_of_lt Nat.and_le_left hd
  calc c &&& tableMask o = tableMatch o
      ↔ joinWord 64 ((splitWord 64 c).and (maskFields 64 o)) = joinWord 64 (matchFields o) := by
        rw [joinWord_and, joinWord_splitWord, tableMask_eq_joinWord, tableMatch_eq_joinWord]
    _ ↔ (splitWord 64 c).and (maskFields 64 o) = matchFields o :=
        joinWord_inj 64 _ _ hand (Nat.two_pow_pos 64)
    _ ↔ LegalFields o (splitWord 64 c) := and_maskFields_eq_matchFields_iff 64 o _ hd

theorem LegalFields.opcode_unique {o o' : Opcode} {f : CmdFields} (h : LegalFields o f) (h' : LegalFields o' f) :
    o = o' :=
  Option.some.inj (((opcodeOf_eq_some_iff f.op o).2 h.1).symm.trans ((opcodeOf_eq_some_iff f.op o').2 h'.1))

/-- The decoder finds an operation of an opcode exactly on the words whose fields are legal for it. -/
theorem decode_to_opcode_iff (tw : Nat) (c : CmdWord tw) (o : Opcode) :
    (∃ i, decode tw c = .ok i ∧ opcodeOfInstr i = o) ↔ LegalFields o (splitWord tw c) := by
  simp only [decode, decodeFields_eq_ok_iff_legalFields]
  constructor
  · rintro ⟨_, ⟨o', hlegal, rfl⟩, ho⟩
    rwa [← ho, opcodeOfInstr_buildInstr]
  · intro hlegal
    exact ⟨buildInstr o (splitWord tw c), ⟨o, hlegal, rfl⟩, opcodeOfInstr_buildInstr o _⟩

theorem decode_eq_error_of_no_row (c : BitVec 128) (h : ∀ o : Opcode, c &&& tableMask o ≠ tableMatch o) :
    ∃ e, decode 64 c = .error e := by
  cases hd : decode 64 c with
  | error e => exact ⟨e, rfl⟩
  | ok i =>
    have hlegal := (decode_to_opcode_iff 64 c (opcodeOfInstr i)).1 ⟨i, hd, rfl⟩
    exact absurd ((and_tableMask_eq_tableMatch_iff c _).2 hlegal) (h _)

/-- Settles O41: the rows' words are those with legal fields, so the decoder searches the table, the opcode tells the
row, and a word of no row is illegal. -/
theorem decodeIsTableSearch : Obligations.DecodeIsTableSearch := by
  refine ⟨fun c o => ?_, fun c o o' h h' => ?_, fun s w rest htw hi hw hrow => ?_⟩
  · rw [and_tableMask_eq_tableMatch_iff]
    exact decode_to_opcode_iff 64 c o
  · rw [and_tableMask_eq_tableMatch_iff] at h h'
    exact h.opcode_unique h'
  · obtain ⟨e, he⟩ := decode_eq_error_of_no_row _ hrow
    refine Machine.illegalWordOnlyAnswers s w rest e hi ?_ ?_
    · rwa [htw]
    · rwa [htw]

end Sys2Proof
end

section
/-!
PROOF. The response word, bit by bit and then field by field (30_encoding.md R100, R101).
-/

namespace Sys2Proof.Machine

/-- A fault and a result have one layout: `some` and `val` are those of the response's result ports. -/
theorem responseWord_eq (r : Response) :
    responseWord r =
      responseFault r ++ 0#3 ++ BitVec.ofBool (heldFields (some r)).1 ++ (heldFields (some r)).2 := by
  cases r with
  | ok v => rfl
  | fault c => cases c <;> rfl

theorem responseLayout_getLsbD (fault : FaultBits) (present : Bool) (val : BitVec 32) (j : Nat) :
    (fault ++ 0#3 ++ BitVec.ofBool present ++ val).getLsbD j =
      if j < 32 then val.getLsbD j
      else if j < 33 then present
      else if j < 36 then false
      else fault.getLsbD (j - 36) := by
  simp only [BitVec.getLsbD_append, BitVec.getLsbD_ofBool, BitVec.getLsbD_zero, Nat.sub_sub]
  by_cases hval : j < 32
  · rw [if_pos hval, if_pos hval]
  rw [if_neg hval, if_neg hval]
  by_cases hpresent : j < 33
  · obtain rfl : j = 32 := by omega
    rfl
  rw [if_neg hpresent, if_neg (show ¬ j - 32 < 1 by omega)]
  by_cases hreserved : j < 36
  · rw [if_pos hreserved, if_pos (show j - (32 + 1) < 3 by omega)]
  · rw [if_neg hreserved, if_neg (show ¬ j - (32 + 1) < 3 by omega)]

theorem responseWord_getLsbD (r : Response) (j : Nat) :
    (responseWord r).getLsbD j =
      if j < 32 then (heldFields (some r)).2.getLsbD j
      else if j < 33 then (heldFields (some r)).1
      else if j < 36 then false
      else (responseFault r).getLsbD (j - 36) := by
  rw [responseWord_eq]
  exact responseLayout_getLsbD _ _ _ j

theorem responseWord_fault_field (r : Response) : (responseWord r).extractLsb' 36 4 = responseFault r := by
  ext j hj
  rw [BitVec.getElem_extractLsb', responseWord_getLsbD, if_neg (by omega), if_neg (by omega), if_neg (by omega),
    Nat.add_sub_cancel_left, BitVec.getLsbD_eq_getElem hj]

theorem responseWord_reserved_field (r : Response) : (responseWord r).extractLsb' 33 3 = 0#3 := by
  ext j hj
  rw [BitVec.getElem_extractLsb', responseWord_getLsbD, if_neg (by omega), if_neg (by omega), if_pos (by omega),
    BitVec.getElem_zero]

theorem responseWord_some_field (r : Response) : (responseWord r).getLsbD 32 = (heldFields (some r)).1 := by
  rw [responseWord_getLsbD, if_neg (by omega), if_pos (by omega)]

theorem responseWord_val_field (r : Response) :
    (responseWord r).extractLsb' 0 32 = (heldFields (some r)).2 := by
  ext j hj
  rw [BitVec.getElem_extractLsb', responseWord_getLsbD, if_pos (by omega), Nat.zero_add,
    BitVec.getLsbD_eq_getElem hj]

theorem responseFault_eq_zero_iff (r : Response) : responseFault r = 0#4 ↔ ∃ v, r = .ok v := by
  cases r with
  | ok v => exact ⟨fun _ => ⟨v, rfl⟩, fun _ => rfl⟩
  | fault c => cases c <;> simp [responseFault, faultBits]

theorem heldFields_of_fault (r : Response) (h : responseFault r ≠ 0#4) : heldFields (some r) = (false, 0#32) := by
  cases r with
  | ok v => exact absurd rfl h
  | fault c => rfl

/-- Settles O43: the fields of the word are the response's, and the table of R101 is read off result by result. -/
theorem responseWordLayout : Obligations.ResponseWordLayout := by
  refine ⟨fun r => ⟨responseWord_fault_field r, responseWord_reserved_field r, fun h => ?_,
    responseFault_eq_zero_iff r⟩, fun c => ?_, fun v => ⟨?_, ?_⟩⟩
  · rw [responseWord_some_field, responseWord_val_field, heldFields_of_fault r h]
    exact ⟨rfl, rfl⟩
  · rw [responseWord_fault_field]
    cases c <;> rfl
  · rw [responseWord_some_field]
    cases v with
    | unit | bit _ | ticks _ => rfl
    | edge e => rcases e with _ | (_ | _) <;> rfl
    | event e => rcases e with _ | (_ | _) <;> rfl
    | direction d => cases d <;> rfl
    | mapped t => cases t <;> rfl
  · rw [responseWord_val_field]
    cases v with
    | unit | ticks _ => rfl
    | bit b => cases b <;> rfl
    | edge e => rcases e with _ | (_ | _) <;> rfl
    | event e => rcases e with _ | (_ | _) <;> rfl
    | direction d => rcases d with _ | (_ | _) <;> rfl
    | mapped t => cases t <;> rfl

end Sys2Proof.Machine
end

section
/-!
PROOF. What the output ports show after an operation with a strobe (30_encoding.md R107).  A unit's operations with a
strobe answer a fault, the unit result, or the result of its poll and nothing else (30_encoding.md R91).
-/

namespace Sys2Proof.Machine

/-- The results that the operations with a strobe of a unit return (30_encoding.md R91). -/
def IsStrobedResult : UnitId → Value → Prop
  | _, .unit => True
  | .df, .edge _ => True
  | .btn, .event _ => True
  | .qd, .direction _ => True
  | .vm, .mapped _ => True
  | _, _ => False

theorem isStrobedResult_qd_iff (v : Value) :
    IsStrobedResult .qd v ↔ v = .unit ∨ ∃ d, v = .direction d := by
  cases v <;> simp [IsStrobedResult]

theorem isStrobedResult_vm_iff (v : Value) :
    IsStrobedResult .vm v ↔ v = .unit ∨ ∃ w, v = .mapped w := by
  cases v <;> simp [IsStrobedResult]

/-- There is an answer, and where it is a result it is one of the unit's. -/
def AnswersStrobe (u : UnitId) (t : State) : Prop :=
  ∃ r, t.rsp = some r ∧ ∀ v, r = .ok v → IsStrobedResult u v

theorem respond_ok_answersStrobe (u : UnitId) (p : Option UnitId) (v : Value) (s : State)
    (hv : IsStrobedResult u v) : AnswersStrobe u (respond p (.ok v) s) :=
  ⟨.ok v, respond_rsp p _ s, fun _ h => Response.ok.inj h ▸ hv⟩

theorem respond_fault_answersStrobe (u : UnitId) (p : Option UnitId) (c : FaultCode) (s : State) :
    AnswersStrobe u (respond p (.fault c) s) :=
  ⟨.fault c, respond_rsp p _ s, fun _ h => nomatch h⟩

theorem raise_answersStrobe (u : UnitId) (p : Option UnitId) (c : FaultCode) (s : State) :
    AnswersStrobe u (raise p c s) :=
  respond_fault_answersStrobe u p c _

theorem construct_answersStrobe (u : UnitId) (n : Nat) (s : State) : AnswersStrobe u (construct u n s) := by
  obtain ⟨-, e⟩ | ⟨-, e⟩ := construct_cases u n s
  · rw [e]
    exact respond_ok_answersStrobe u _ .unit _ trivial
  · rw [e]
    exact respond_fault_answersStrobe u _ _ _

theorem inService_answersStrobe (u : UnitId) (p : Option UnitId) (s k : State) (hk : AnswersStrobe u k) :
    AnswersStrobe u (inService u p s k) := by
  obtain ⟨-, e⟩ | ⟨-, e⟩ := inService_cases u p s k
  · rwa [e]
  · rw [e]
    exact respond_fault_answersStrobe u p _ s

theorem exec_answersStrobe (i : Instr) (u : UnitId) (s t : State) (h : exec i s = .next t)
    (hp : strobeOf i = some u) : AnswersStrobe u t := by
  cases i with
  | btnIsp | btnIsr | qdTicks => cases hp
  | dfInit | btnInit | qdInit =>
    cases hp
    cases h
    exact construct_answersStrobe _ _ _
  | vmInit =>
    cases hp
    cases h
    exact respond_ok_answersStrobe .vm _ .unit _ trivial
  | dfPoll _ | qdRstt =>
    cases hp
    cases h
    exact inService_answersStrobe _ _ s _ (respond_ok_answersStrobe _ _ _ _ trivial)
  | btnPoll _ _ | qdPoll _ _ _ _ =>
    cases hp
    cases h
    refine inService_answersStrobe _ _ s _ ?_
    split
    · exact raise_answersStrobe _ _ _ s
    · exact respond_ok_answersStrobe _ _ _ _ trivial
  | vmAdd _ _ =>
    cases hp
    cases h
    refine inService_answersStrobe .vm _ s _ ?_
    split_ifs
    · exact raise_answersStrobe .vm _ _ s
    · exact raise_answersStrobe .vm _ _ s
    · exact respond_ok_answersStrobe .vm _ .unit _ trivial
  | vmMap _ _ _ =>
    cases hp
    cases h
    refine inService_answersStrobe .vm _ s _ ?_
    split <;> exact respond_ok_answersStrobe .vm _ (.mapped _) _ trivial

theorem portOutputs_df (t : State) (r : Response) (h : t.ports.df = some r) :
    (portOutputs t).dfFault = responseFault r ∧
    ((portOutputs t).dfRose = true ↔ r = .ok (.edge (some .roseStable))) ∧
    ((portOutputs t).dfFell = true ↔ r = .ok (.edge (some .fellStable))) := by
  simp [portOutputs, heldFault, h]

theorem portOutputs_btn (t : State) (r : Response) (h : t.ports.btn = some r) :
    (portOutputs t).btnFault = responseFault r ∧
    ((portOutputs t).btnPressedEv = true ↔ r = .ok (.event (some .pressed))) ∧
    ((portOutputs t).btnReleasedEv = true ↔ r = .ok (.event (some .released))) := by
  simp [portOutputs, heldFault, h]

theorem portOutputs_qd (t : State) (r : Response) (h : t.ports.qd = some r) :
    (portOutputs t).qdFault = responseFault r ∧
    ((portOutputs t).qdDirValid, (portOutputs t).qdDir) = heldFields (some r) := by
  simp [portOutputs, heldFault, h]

theorem portOutputs_vm (t : State) (r : Response) (h : t.ports.vm = some r) :
    (portOutputs t).vmFault = responseFault r ∧
    ((portOutputs t).vmOutValid, (portOutputs t).vmOut) = heldFields (some r) := by
  simp [portOutputs, heldFault, h]

/-- Settles O57: the unit's ports hold the answer, and the two value ports of `QD` and `VM` show `some` and `val` of
it, which are those of a direction or a mapped count since the unit answers no other result on its strobes. -/
theorem resultPortsHoldResponse : Obligations.ResultPortsHoldResponse := by
  refine ⟨fun i u s t h hp => ?_, fun s => ⟨rfl, rfl, rfl, rfl, rfl, rfl⟩⟩
  obtain ⟨r, hr, hresult⟩ := exec_answersStrobe i u s t h hp
  have hheld : heldBy u t.ports = some r := (exec_portsHoldAnswer i u s t h hp).trans hr
  refine ⟨r, hr, hheld, ?_⟩
  cases u with
  | df => exact portOutputs_df t r hheld
  | btn => exact portOutputs_btn t r hheld
  | qd =>
    obtain ⟨hfault, hfields⟩ := portOutputs_qd t r hheld
    refine ⟨hfault, hfields.trans ?_⟩
    cases r with
    | fault c => rfl
    | ok v =>
      obtain rfl | ⟨d, rfl⟩ := (isStrobedResult_qd_iff v).1 (hresult v rfl)
      · rfl
      · rcases d with _ | (_ | _) <;> rfl
  | vm =>
    obtain ⟨hfault, hfields⟩ := portOutputs_vm t r hheld
    refine ⟨hfault, hfields.trans ?_⟩
    cases r with
    | fault c => rfl
    | ok v =>
      obtain rfl | ⟨w, rfl⟩ := (isStrobedResult_vm_iff v).1 (hresult v rfl)
      · rfl
      · cases w <;> rfl

end Sys2Proof.Machine
end

section
/-!
PROOF. The example words of 30_encoding.md R110.
-/

namespace Sys2Proof

/-- Settles O42, by evaluating the decoder on each word. -/
theorem exampleWordsDecode : Obligations.ExampleWordsDecode :=
  ⟨rfl, rfl, rfl, rfl, rfl, rfl, rfl, rfl, rfl, rfl, rfl, rfl, rfl, rfl, rfl, rfl⟩

end Sys2Proof
end

section
/-!
PROOF. The filter step of 40_debounce_filter.md R121 to R124 in the direction of the level it can move to, and the
two operations of the Debounce Filter.
-/

namespace Sys2Proof

/-- The word of a well-formed operation holds the operation's fields (30_encoding.md R94). -/
theorem splitWord_encode (tw : Nat) (i : Instr) (h : i.wellFormed tw = true) :
    splitWord tw (encode tw i) = fieldsOfInstr i :=
  splitWord_joinWord tw _ (operandFits i tw h)

end Sys2Proof

namespace Sys2Proof.Machine

/-- The edge that reports a change to the level `b`. -/
def edgeTo (b : Bool) : Edge := if b then .roseStable else .fellStable

@[simp] theorem edgeTo_true : edgeTo true = .roseStable := rfl
@[simp] theorem edgeTo_false : edgeTo false = .fellStable := rfl

/-- The history whose `n` slots all hold `b`: what the comparison asks for before it moves the level to `b`. -/
def unanimousHistory (n : Nat) (b : Bool) : BitVec 8 := if b then mask n else 0#8

@[simp] theorem unanimousHistory_true (n : Nat) : unanimousHistory n true = mask n := rfl
@[simp] theorem unanimousHistory_false (n : Nat) : unanimousHistory n false = 0#8 := rfl

/-- The filter step moves the level to its opposite and reports it, exactly when the history just written is
unanimous for that opposite (40_debounce_filter.md R124). -/
theorem filterStep_cases (n : Nat) (al : Bool) (f : Filter) (raw : Bool) :
    ((filterStep n al f raw).1.history = unanimousHistory n (!f.stable) ∧
      (filterStep n al f raw).1.stable = !f.stable ∧ (filterStep n al f raw).2 = some (edgeTo (!f.stable))) ∨
    ((filterStep n al f raw).1.history ≠ unanimousHistory n (!f.stable) ∧
      (filterStep n al f raw).1.stable = f.stable ∧ (filterStep n al f raw).2 = none) := by
  rw [filterStep_stable, filterStep_edge, filterStep_history]
  obtain ⟨hh, hst, e⟩ | ⟨-, hh, hst, e⟩ | ⟨hrise, hfall, e⟩ :=
    compareHistory_cases n (writeSlot f.history f.index (normalise al raw)) f.stable
  · exact .inl (by rw [e, hh, hst]; exact ⟨rfl, rfl, rfl⟩)
  · exact .inl (by rw [e, hh, hst]; exact ⟨rfl, rfl, rfl⟩)
  · refine .inr ⟨?_, by rw [e], by rw [e]⟩
    cases hst : f.stable with
    | false => exact fun hh => hrise ⟨hh, hst⟩
    | true => exact fun hh => hfall ⟨hh, hst⟩

/-- The filter step meets the bit-by-bit reading of 40_debounce_filter.md R121 to R124. -/
theorem filterStep_stepsFilter (n : Nat) (al : Bool) (f : Filter) (raw : Bool) :
    StepsFilter n al raw f (filterStep n al f raw).1 (filterStep n al f raw).2 := by
  refine ⟨fun j hj => writeSlot_getLsbD f.history f.index (normalise al raw) j hj, rfl, ?_⟩
  rw [filterStep_stable, filterStep_edge, filterStep_history]
  obtain ⟨hh, hst, e⟩ | ⟨hrise, hh, hst, e⟩ | ⟨hrise, hfall, e⟩ :=
    compareHistory_cases n (writeSlot f.history f.index (normalise al raw)) f.stable
  · rw [e]
    exact ⟨fun _ => ⟨rfl, rfl⟩, fun h => absurd ⟨hh, hst⟩ h.1, fun h => absurd ⟨hh, hst⟩ h.1⟩
  · rw [e]
    exact ⟨fun h => absurd h hrise, fun _ => ⟨rfl, rfl⟩, fun h => absurd ⟨hh, hst⟩ h.2⟩
  · rw [e]
    exact ⟨fun h => absurd h hrise, fun h => absurd h.2 hfall, fun _ => ⟨rfl, rfl⟩⟩

/-- Settles O4: both ends of `DF.INIT`. -/
theorem dfInitConstructsUnit : Obligations.DfInitConstructsUnit := by
  refine ⟨fun tw => splitWord_encode tw .dfInit rfl, fun s => ?_⟩
  rw [← sizeLegal_iff]
  obtain ⟨hn, e⟩ | ⟨hn, e⟩ := execDfInit_cases s
  · exact ⟨fun _ => ⟨_, e, rfl, rfl, rfl, rfl, rfl⟩, fun h => absurd hn h⟩
  · exact ⟨fun h => by simp [hn] at h, fun _ => ⟨_, e, rfl, rfl, rfl, rfl, rfl⟩⟩

/-- Settles O8: both ends of `DF.POLL`, the record and the edge being those of the filter step. -/
theorem dfPollStepsFilter : Obligations.DfPollStepsFilter := by
  refine fun a => ⟨fun tw => splitWord_encode tw (.dfPoll a) rfl, fun s => ?_⟩
  obtain ⟨hf, e⟩ | ⟨hf, e⟩ := execDfPoll_cases a s
  · refine ⟨fun _ => ?_, fun h => absurd hf h⟩
    refine ⟨_, _, _, filterStep_stepsFilter s.cfg.dfN s.cfg.dfAL s.df.f a, e, rfl, ?_, rfl, rfl, rfl⟩
    simp [hf]
  · exact ⟨fun h => absurd h hf, fun _ => ⟨_, e, rfl, rfl, rfl, rfl, rfl⟩⟩

/-- Settles O9: the two cases of the filter step. -/
theorem filterEdgeExactlyOnStableChange : Obligations.FilterEdgeExactlyOnStableChange := by
  intro n al raw f
  obtain ⟨hh, hst, e⟩ | ⟨-, hst, e⟩ := filterStep_cases n al f raw
  · rw [hh, hst, e]
    cases f.stable <;> simp [mask]
  · simp [hst, e]

end Sys2Proof.Machine
end

section
/-!
PROOF. Runs of one filter from any record (40_debounce_filter.md R121, R131).
-/

namespace Sys2Proof.Machine

/-- The normalised sample is all that the step reads of the raw level and the polarity. -/
theorem filterStep_activeLow (n : Nat) (f : Filter) (raw : Bool) :
    filterStep n true f raw = filterStep n false f (!raw) := by
  have hs : normalise true raw = normalise false (!raw) := by cases raw <;> rfl
  simp only [filterStep, hs]

/-- Settles O10, by induction on the samples. -/
theorem activeLowFeedsComplement : Obligations.ActiveLowFeedsComplement := by
  intro n f raws
  induction raws generalizing f with
  | nil => exact ⟨rfl, rfl⟩
  | cons raw raws ih =>
    obtain ⟨hedges, hfilter⟩ := ih (filterStep n true f raw).1
    simp only [feedEdges, feedFilter, List.map_cons, ← filterStep_activeLow]
    exact ⟨congrArg _ hedges, hfilter⟩

/-- From any record the `j`-th edge of a run reports the level opposite to the record's for even `j`, and the
record's level for odd `j`. -/
theorem feedEdges_alternate (n : Nat) (al : Bool) (f : Filter) (raws : List Bool) (j : Nat) (e : Edge)
    (h : ((feedEdges n al f raws).filterMap id)[j]? = some e) : e = edgeTo (xor f.stable (j % 2 == 0)) := by
  induction raws generalizing f j with
  | nil => simp [feedEdges] at h
  | cons raw raws ih =>
    rw [feedEdges] at h
    obtain ⟨-, hst, he⟩ | ⟨-, hst, he⟩ := filterStep_cases n al f raw
    · rw [he, List.filterMap_cons_some (f := id) rfl] at h
      cases j with
      | zero => simpa using h.symm
      | succ j =>
        have hflip : ((j + 1) % 2 == 0) = !(j % 2 == 0) := by
          rcases Nat.mod_two_eq_zero_or_one j with hj | hj <;> simp [Nat.add_mod, hj]
        rw [ih _ j h, hst, hflip, Bool.not_xor, Bool.xor_not]
    · rw [he, List.filterMap_cons_none (f := id) rfl] at h
      rw [ih _ j h, hst]

/-- Settles O14: the fresh filter's level is 0. -/
theorem edgesAlternateFromRise : Obligations.EdgesAlternateFromRise := by
  intro n al raws j e h
  rw [feedEdges_alternate n al freshFilter raws j e h]
  rcases Nat.mod_two_eq_zero_or_one j with hj | hj <;> simp [hj, freshFilter]

end Sys2Proof.Machine
end

section
/-!
PROOF. Runs of a filter of legal size from the fresh record: the comparison asks for the last `N` samples
(Laws/History.lean), so an edge is a fact about the samples alone (40_debounce_filter.md R129, R130).
-/

namespace Sys2Proof.Machine

/-- The last `n` normalised samples of a run are all `b`, where the samples before the first count as 0. -/
def LastSamplesAre (n : Nat) (al b : Bool) (raws : List Bool) : Prop := ∀ k, k < n → recentSample al raws k = b

theorem feedFilter_eq_unanimousHistory_iff (n : Nat) (al b : Bool) (raws : List Bool) (h2 : 2 ≤ n) (h8 : n ≤ 8) :
    (feedFilter n al freshFilter raws).history = unanimousHistory n b ↔ LastSamplesAre n al b raws := by
  cases b with
  | false => exact feedFilter_eq_zero_iff n al raws h2 h8
  | true => exact feedFilter_eq_mask_iff n al raws h2 h8

/-- One more poll of a run: the level moves to its opposite, with the edge that says so, exactly when the last `n`
samples are that opposite. -/
theorem poll_after_run_cases (n : Nat) (al : Bool) (past : List Bool) (raw : Bool) (h2 : 2 ≤ n) (h8 : n ≤ 8) :
    (LastSamplesAre n al (!(feedFilter n al freshFilter past).stable) (past ++ [raw]) ∧
      (feedFilter n al freshFilter (past ++ [raw])).stable = !(feedFilter n al freshFilter past).stable ∧
      (filterStep n al (feedFilter n al freshFilter past) raw).2 =
        some (edgeTo (!(feedFilter n al freshFilter past).stable))) ∨
    (¬ LastSamplesAre n al (!(feedFilter n al freshFilter past).stable) (past ++ [raw]) ∧
      (feedFilter n al freshFilter (past ++ [raw])).stable = (feedFilter n al freshFilter past).stable ∧
      (filterStep n al (feedFilter n al freshFilter past) raw).2 = none) := by
  rw [← feedFilter_eq_unanimousHistory_iff n al _ _ h2 h8, feedFilter_snoc]
  exact filterStep_cases n al (feedFilter n al freshFilter past) raw

/-- The results after a run, one poll at a time. -/
theorem feedEdges_after_run_cons (n : Nat) (al : Bool) (past : List Bool) (raw : Bool) (raws : List Bool) :
    feedEdges n al (feedFilter n al freshFilter past) (raw :: raws) =
      (filterStep n al (feedFilter n al freshFilter past) raw).2 ::
        feedEdges n al (feedFilter n al freshFilter (past ++ [raw])) raws := by
  rw [feedEdges, feedFilter_snoc]

/-- Settles O13: the last two samples differ, so the last `n` are not all equal. -/
theorem alternatingSampleGivesNoEdge : Obligations.AlternatingSampleGivesNoEdge := by
  intro n al x past h2 h8
  have hlast : (feedEdges n al freshFilter (past ++ [x, !x])).getLast? =
      some (filterStep n al (feedFilter n al freshFilter (past ++ [x])) (!x)).2 := by
    rw [List.append_cons, feedEdges_append, feedEdges, feedEdges, List.getLast?_concat]
  rw [hlast]
  obtain ⟨hall, -⟩ | ⟨-, -, he⟩ := poll_after_run_cases n al (past ++ [x]) (!x) h2 h8
  · have hnew := hall 0 (by omega)
    have hprev := hall 1 (by omega)
    rw [recentSample_snoc_zero] at hnew
    rw [recentSample_snoc_succ, recentSample_snoc_zero, ← hnew] at hprev
    simp [normalise] at hprev
  · rw [he]

/-- A filter at level `!b` has met the sample `!b` among its last `n`. -/
theorem exists_recentSample_of_stable (n : Nat) (al b : Bool) (past : List Bool) (h2 : 2 ≤ n) (h8 : n ≤ 8)
    (hst : (feedFilter n al freshFilter past).stable = !b) : ∃ i, i < n ∧ recentSample al past i = !b := by
  by_contra hnone
  have hall : LastSamplesAre n al b past := fun k hk => by
    by_contra hne
    exact hnone ⟨k, hk, Bool.eq_not.2 hne⟩
  have hhist := (feedFilter_eq_unanimousHistory_iff n al b past h2 h8).2 hall
  obtain ⟨-, -, hrise, hfall⟩ := feedFilter_inv n al freshFilter past h2 h8 (freshFilter_inv n h2 h8)
  cases b with
  | false => exact absurd (hst.symm.trans (hfall hhist)) (by decide)
  | true => exact absurd (hst.symm.trans (hrise hhist)) (by decide)

/-- The unanimous samples `b` at the end of a run are `k` in number, and the one before them is `!b`. -/
def EndsWithRun (al b : Bool) (raws : List Bool) (k : Nat) : Prop :=
  LastSamplesAre k al b raws ∧ recentSample al raws k = !b

theorem EndsWithRun.snoc {al b raw : Bool} {raws : List Bool} {k : Nat} (h : EndsWithRun al b raws k)
    (hraw : normalise al raw = b) : EndsWithRun al b (raws ++ [raw]) (k + 1) := by
  obtain ⟨hrun, hbefore⟩ := h
  refine ⟨fun i hi => ?_, by rw [recentSample_snoc_succ, hbefore]⟩
  cases i with
  | zero => rw [recentSample_snoc_zero, hraw]
  | succ i => rw [recentSample_snoc_succ, hrun i (by omega)]

theorem EndsWithRun.le_of_recentSample {al b : Bool} {raws : List Bool} {k i : Nat} (h : EndsWithRun al b raws k)
    (hi : recentSample al raws i = !b) : k ≤ i := by
  by_contra hlt
  have := h.1 i (by omega)
  simp [this] at hi

theorem EndsWithRun.lastSamplesAre_iff {al b : Bool} {raws : List Bool} {k : Nat} (h : EndsWithRun al b raws k)
    (n : Nat) : LastSamplesAre n al b raws ↔ n ≤ k := by
  refine ⟨fun hall => ?_, fun hn i hi => h.1 i (by omega)⟩
  by_contra hlt
  have := hall k (by omega)
  simp [h.2] at this

/-- The number of unanimous samples that 40_debounce_filter.md R129 counts, where an opposite sample was met. -/
theorem endsWithRun_takeWhile (al b : Bool) (raws : List Bool) (h : ∃ i, recentSample al raws i = !b) :
    EndsWithRun al b raws (raws.reverse.takeWhile fun r => normalise al r == b).length := by
  induction raws using List.reverseRecOn with
  | nil =>
    obtain ⟨i, hi⟩ := h
    exact ⟨fun k hk => by simp at hk, hi⟩
  | append_singleton raws raw ih =>
    rw [List.reverse_append, List.reverse_singleton, List.singleton_append, List.takeWhile_cons]
    by_cases hraw : normalise al raw = b
    · rw [if_pos (by simp [hraw]), List.length_cons]
      refine (ih ?_).snoc hraw
      obtain ⟨i, hi⟩ := h
      cases i with
      | zero => simp [recentSample_snoc_zero, hraw] at hi
      | succ i => exact ⟨i, (recentSample_snoc_succ al raws raw i).symm.trans hi⟩
    · rw [if_neg (by simp [hraw])]
      exact ⟨fun k hk => by simp at hk, (recentSample_snoc_zero al raws raw).trans (Bool.eq_not.2 hraw)⟩

/-- Samples that agree with the level give no edge. -/
theorem feedEdges_replicate_of_agree (n : Nat) (al b raw : Bool) (past : List Bool) (m : Nat) (h2 : 2 ≤ n)
    (h8 : n ≤ 8) (hraw : normalise al raw = b) (hst : (feedFilter n al freshFilter past).stable = b) :
    feedEdges n al (feedFilter n al freshFilter past) (List.replicate m raw) = List.replicate m none := by
  induction m generalizing past with
  | zero => rfl
  | succ m ih =>
    rw [List.replicate_succ, List.replicate_succ, feedEdges_after_run_cons]
    obtain ⟨hall, -⟩ | ⟨-, hst', he⟩ := poll_after_run_cases n al past raw h2 h8
    · have hnew := hall 0 (by omega)
      rw [recentSample_snoc_zero, hraw, hst] at hnew
      simp at hnew
    · rw [he, ih _ (hst'.trans hst)]

/-- `d + 1` samples short of `n` equal ones, opposite to the level: the edge comes on the last of these calls, and
nothing before it or after it. -/
theorem feedEdges_replicate_of_run (n : Nat) (al b raw : Bool) (past : List Bool) (k d m : Nat) (h2 : 2 ≤ n)
    (h8 : n ≤ 8) (hraw : normalise al raw = b) (hst : (feedFilter n al freshFilter past).stable = !b)
    (hrun : EndsWithRun al b past k) (hk : k + d + 1 = n) :
    feedEdges n al (feedFilter n al freshFilter past) (List.replicate (d + 1 + m) raw) =
      List.replicate d none ++ some (edgeTo b) :: List.replicate m none := by
  induction d generalizing past k with
  | zero =>
    rw [show 0 + 1 + m = m + 1 by omega, List.replicate_succ, feedEdges_after_run_cons]
    obtain ⟨-, hst', he⟩ | ⟨hnot, -⟩ := poll_after_run_cases n al past raw h2 h8
    · rw [hst, Bool.not_not] at hst' he
      rw [he, feedEdges_replicate_of_agree n al b raw _ m h2 h8 hraw hst']
      rfl
    · rw [hst, Bool.not_not] at hnot
      exact absurd (((hrun.snoc hraw).lastSamplesAre_iff n).2 (by omega)) hnot
  | succ d ih =>
    rw [show d + 1 + 1 + m = d + 1 + m + 1 by omega, List.replicate_succ, feedEdges_after_run_cons]
    obtain ⟨hall, -⟩ | ⟨-, hst', he⟩ := poll_after_run_cases n al past raw h2 h8
    · rw [hst, Bool.not_not] at hall
      have := ((hrun.snoc hraw).lastSamplesAre_iff n).1 hall
      omega
    · rw [he, ih _ _ (hst'.trans hst) (hrun.snoc hraw) (by omega)]
      rfl

/-- 40_debounce_filter.md R129 toward the level `b`, for either `b`. -/
theorem edge_on_completing_call (n : Nat) (al b raw : Bool) (past : List Bool) (m : Nat) (h2 : 2 ≤ n) (h8 : n ≤ 8)
    (hraw : normalise al raw = b) (hst : (feedFilter n al freshFilter past).stable = !b) :
    (past.reverse.takeWhile fun r => normalise al r == b).length < n ∧
    feedEdges n al (feedFilter n al freshFilter past)
        (List.replicate (n - (past.reverse.takeWhile fun r => normalise al r == b).length + m) raw) =
      List.replicate (n - (past.reverse.takeWhile fun r => normalise al r == b).length - 1) none ++
        some (edgeTo b) :: List.replicate m none := by
  obtain ⟨i, hi, hopp⟩ := exists_recentSample_of_stable n al b past h2 h8 hst
  have hrun := endsWithRun_takeWhile al b past ⟨i, hopp⟩
  generalize (past.reverse.takeWhile fun r => normalise al r == b).length = k at hrun
  have hk : k < n := lt_of_le_of_lt (hrun.le_of_recentSample hopp) hi
  refine ⟨hk, ?_⟩
  have hd : n - k = n - k - 1 + 1 := by omega
  rw [hd]
  exact feedEdges_replicate_of_run n al b raw past k (n - k - 1) m h2 h8 hraw hst hrun (by omega)

/-- Settles O12: the level 0 with true samples, and the level 1 with false ones. -/
theorem hysteresisEdgeOnCompletingCall : Obligations.HysteresisEdgeOnCompletingCall := by
  intro n al past m h2 h8
  have htrue : (fun r => xor r al) = fun r => normalise al r == true := by simp [normalise]
  have hfalse : (fun r => !(xor r al)) = fun r => normalise al r == false := by simp [normalise]
  rw [htrue, hfalse]
  exact ⟨edge_on_completing_call n al true (!al) past m h2 h8 (by simp [normalise]),
    edge_on_completing_call n al false al past m h2 h8 (by simp [normalise])⟩

end Sys2Proof.Machine
end

section
/-!
PROOF. The shift register of 40_debounce_filter.md R133 and the circular filter hold the same last `N` samples and
the same level, and every poll keeps it so.
-/

namespace Sys2Proof.Machine

/-- The last `n` normalised samples of a run, newest first. -/
def recentWindow (n : Nat) (al : Bool) (raws : List Bool) : List Bool := (List.range n).map (recentSample al raws)

theorem recentWindow_nil (n : Nat) (al : Bool) : recentWindow n al [] = List.replicate n false :=
  List.eq_replicate_iff.2 ⟨by simp [recentWindow], by simp [recentWindow, recentSample_nil]⟩

/-- A sample moves every stored one by one place and the oldest falls out. -/
theorem recentWindow_snoc (n : Nat) (al : Bool) (raws : List Bool) (raw : Bool) :
    recentWindow n al (raws ++ [raw]) = (normalise al raw :: recentWindow n al raws).take n := by
  cases n with
  | zero => rfl
  | succ n =>
    have hold : (recentWindow (n + 1) al raws).take n = recentWindow n al raws := by
      rw [recentWindow, ← List.map_take, List.take_range, Nat.min_eq_left (Nat.le_succ n), recentWindow]
    rw [List.take_succ_cons, hold, recentWindow, List.range_succ_eq_map, List.map_cons, List.map_map,
      recentSample_snoc_zero]
    exact congrArg _ (List.map_congr_left fun k _ => recentSample_snoc_succ al raws raw k)

theorem forall_mem_recentWindow_iff (n : Nat) (al b : Bool) (raws : List Bool) :
    (∀ x ∈ recentWindow n al raws, x = b) ↔ LastSamplesAre n al b raws := by
  simp [recentWindow, LastSamplesAre]

/-- The two branches of the shift register's poll, in the direction of the level it can move to. -/
theorem shiftStep_cases (n : Nat) (al : Bool) (f : ShiftFilter) (raw : Bool) :
    ((∀ x ∈ (normalise al raw :: f.window).take n, x = !f.stable) ∧ shiftStep n al f raw =
      ({ window := (normalise al raw :: f.window).take n, stable := !f.stable }, some (edgeTo (!f.stable)))) ∨
    (¬ (∀ x ∈ (normalise al raw :: f.window).take n, x = !f.stable) ∧ shiftStep n al f raw =
      ({ window := (normalise al raw :: f.window).take n, stable := f.stable }, none)) := by
  by_cases hall : ∀ x ∈ (normalise al raw :: f.window).take n, x = !f.stable
  · refine .inl ⟨hall, ?_⟩
    cases hst : f.stable <;> simpa [shiftStep, hst] using hall
  · refine .inr ⟨hall, ?_⟩
    cases hst : f.stable <;> simpa [shiftStep, hst] using hall

/-- The shift register `g` stands where the circular filter stands after the samples `past`. -/
def TracksRun (n : Nat) (al : Bool) (past : List Bool) (g : ShiftFilter) : Prop :=
  g.window = recentWindow n al past ∧ g.stable = (feedFilter n al freshFilter past).stable

theorem tracksRun_freshShift (n : Nat) (al : Bool) : TracksRun n al [] (freshShift n) :=
  ⟨(recentWindow_nil n al).symm, rfl⟩

/-- One poll of both: the same result, and the shift register still stands where the filter does. -/
theorem shiftStep_tracksRun (n : Nat) (al : Bool) (past : List Bool) (g : ShiftFilter) (raw : Bool) (h2 : 2 ≤ n)
    (h8 : n ≤ 8) (h : TracksRun n al past g) :
    (shiftStep n al g raw).2 = (filterStep n al (feedFilter n al freshFilter past) raw).2 ∧
    TracksRun n al (past ++ [raw]) (shiftStep n al g raw).1 := by
  obtain ⟨hwindow, hst⟩ := h
  have hstep := shiftStep_cases n al g raw
  rw [hwindow, ← recentWindow_snoc, forall_mem_recentWindow_iff, hst] at hstep
  obtain ⟨hall, hst', he⟩ | ⟨hnot, hst', he⟩ := poll_after_run_cases n al past raw h2 h8
  · obtain ⟨-, hshift⟩ | ⟨hnot, -⟩ := hstep
    · rw [hshift]
      exact ⟨he.symm, rfl, hst'.symm⟩
    · exact absurd hall hnot
  · obtain ⟨hall, -⟩ | ⟨-, hshift⟩ := hstep
    · exact absurd hall hnot
    · rw [hshift]
      exact ⟨he.symm, rfl, hst'.symm⟩

/-- A run of both from where they stand together. -/
theorem run_of_tracksRun (n : Nat) (al : Bool) (past raws : List Bool) (g : ShiftFilter) (h2 : 2 ≤ n) (h8 : n ≤ 8)
    (h : TracksRun n al past g) :
    feedEdges n al (feedFilter n al freshFilter past) raws = shiftEdges n al g raws ∧
    (feedFilter n al (feedFilter n al freshFilter past) raws).stable = (feedShift n al g raws).stable := by
  induction raws generalizing past g with
  | nil => exact ⟨rfl, h.2.symm⟩
  | cons raw raws ih =>
    obtain ⟨he, h'⟩ := shiftStep_tracksRun n al past g raw h2 h8 h
    obtain ⟨hedges, hstable⟩ := ih _ _ h'
    rw [feedEdges_after_run_cons, shiftEdges, feedFilter, feedShift, he, hedges, ← feedFilter_snoc]
    exact ⟨rfl, hstable⟩

/-- Settles O11: the two start together. -/
theorem circularFilterEqualsShiftRegister : Obligations.CircularFilterEqualsShiftRegister :=
  fun n al raws h2 h8 => run_of_tracksRun n al [] raws (freshShift n) h2 h8 (tracksRun_freshShift n al)

end Sys2Proof.Machine
end

section
/-!
PROOF. What an answer alone leaves behind: no register moves, and the next operation on the same strobe runs as if
it had not been given, since that operation overwrites the response and its unit's result ports
(60_exceptions.md R212, 41_button_switch.md R144).
-/

namespace Sys2Proof.Machine

/-- The operation completes, answers `r`, and changes no register of any unit. -/
def AnswersOnly (o : StepOutcome) (r : Response) (s : State) : Prop :=
  ∃ t, o = .next t ∧ t.rsp = some r ∧ SameRegisters s t

theorem respond_sameRegisters (p : Option UnitId) (r : Response) (s : State) : SameRegisters s (respond p r s) :=
  ⟨respond_df p r s, respond_btn p r s, respond_qd p r s, respond_vm p r s⟩

theorem answersOnly_of_respond {o : StepOutcome} {p : Option UnitId} {r : Response} {s : State}
    (h : o = .next (respond p r s)) : AnswersOnly o r s :=
  ⟨_, h, respond_rsp p r s, respond_sameRegisters p r s⟩

/-- A query, in service or out, only answers. -/
theorem answersOnly_of_query {o : StepOutcome} {u : UnitId} {p : Option UnitId} {r : Response} {s : State}
    (h : (unitFault u s = 0#4 ∧ o = .next (respond p r s)) ∨
      (unitFault u s ≠ 0#4 ∧ o = .next (respond p (.fault .unitFaulted) s))) :
    (unitFault u s = 0#4 → AnswersOnly o r s) ∧ (unitFault u s ≠ 0#4 → AnswersOnly o (.fault .unitFaulted) s) := by
  obtain ⟨hf, e⟩ | ⟨hf, e⟩ := h
  · exact ⟨fun _ => answersOnly_of_respond e, fun h => absurd hf h⟩
  · exact ⟨fun h => absurd h hf, fun _ => answersOnly_of_respond e⟩

/-- A state is its units with their result ports, its response, its configuration and its stream. -/
theorem state_eq_of_agreeOn (s t : State) (hu : ∀ u, AgreeOn u s t) (hr : t.rsp = s.rsp) (hc : t.cfg = s.cfg)
    (hi : t.inp = s.inp) : t = s := by
  obtain ⟨hdf, hbtn, hqd, hvm⟩ := (sameRegisters_iff s t).2 fun u => (hu u).1
  have hp : t.ports = s.ports := ports_eq_of_heldBy _ _ fun u => (hu u).2
  cases s
  cases t
  rw [State.mk.injEq]
  exact ⟨hc, hdf, hbtn, hqd, hvm, hr, hp, hi⟩

theorem unitOf_of_strobeOf (i : Instr) (u : UnitId) (hp : strobeOf i = some u) : unitOf i = u := by
  obtain h | h := strobeOf_eq_none_or i
  · cases h.symm.trans hp
  · exact Option.some.inj (h.symm.trans hp)

/-- After an answer on the strobe of `i`, the operation `i` ends exactly as without it. -/
theorem exec_after_respond (i : Instr) (u : UnitId) (r : Response) (s : State) (hp : strobeOf i = some u) :
    exec i (respond (some u) r s) = exec i s := by
  obtain ⟨t, ht, hc, hi⟩ := exec_next_keeps i s
  obtain ⟨t', ht', hc', hi'⟩ := exec_next_keeps i (respond (some u) r s)
  have hsame (v : UnitId) : SameUnit v s (respond (some u) r s) :=
    (sameRegisters_iff _ _).1 (respond_sameRegisters (some u) r s) v
  obtain ⟨hr, hself⟩ :=
    operationDependsOnlyOnItsUnit i s _ t t' (respond_cfg (some u) r s) (hsame (unitOf i)) ht ht'
  have hunit : unitOf i = u := unitOf_of_strobeOf i u hp
  have hends (v : UnitId) : AgreeOn v t t' := by
    by_cases hv : v = u
    · rw [hunit] at hself
      rw [hv]
      refine ⟨hself, ?_⟩
      calc heldBy u t'.ports = t'.rsp := exec_portsHoldAnswer i u _ t' ht' hp
        _ = t.rsp := hr
        _ = heldBy u t.ports := (exec_portsHoldAnswer i u s t ht hp).symm
    · have hst : AgreeOn v s t := exec_agreeOn_of_ne i v s t ht (hunit.symm ▸ hv)
      have hs : AgreeOn v s (respond (some u) r s) := ⟨hsame v, heldBy_latchPorts_of_ne u v r s.ports hv⟩
      have hst' : AgreeOn v _ t' := exec_agreeOn_of_ne i v _ t' ht' (hunit.symm ▸ hv)
      exact hst.symm.trans (hs.trans hst')
  rw [ht, ht', state_eq_of_agreeOn t t' hends hr (by rw [hc', hc, respond_cfg]) (by rw [hi', hi, respond_inp])]

theorem execAll_singleton (i : Instr) (s : State) : execAll [i] s = exec i s := by
  obtain ⟨t, ht, -⟩ := exec_next_keeps i s
  rw [execAll_cons i [] s t ht, execAll, ht]

/-- An operation that only answers leaves no trace for the next one on its strobe. -/
theorem execAll_pair_of_respond (i j : Instr) (u : UnitId) (r : Response) (s : State)
    (hi : exec i s = .next (respond (some u) r s)) (hj : strobeOf j = some u) : execAll [i, j] s = exec j s := by
  rw [execAll_cons i [j] s _ hi, execAll_singleton, exec_after_respond j u r s hj]

end Sys2Proof.Machine
end

section
/-!
PROOF. The operations of the Button/Switch (41_button_switch.md R141 to R146).
-/

namespace Sys2Proof.Machine

/-- The spec's list of events is the renaming that `BTN.POLL` applies (41_button_switch.md R142). -/
theorem renamedEdge_eq_map (e : Option Edge) : renamedEdge e = e.map eventOfEdge := by
  obtain _ | _ | _ := e <;> rfl

/-- Settles O5: both ends of `BTN.INIT`. -/
theorem btnInitConstructsUnit : Obligations.BtnInitConstructsUnit := by
  refine ⟨fun tw => splitWord_encode tw .btnInit rfl, fun s => ?_⟩
  rw [← sizeLegal_iff]
  obtain ⟨hn, e⟩ | ⟨hn, e⟩ := execBtnInit_cases s
  · exact ⟨fun _ => ⟨_, e, rfl, rfl, rfl, rfl, rfl⟩, fun h => absurd hn h⟩
  · exact ⟨fun h => by simp [hn] at h, fun _ => ⟨_, e, rfl, rfl, rfl, rfl, rfl⟩⟩

/-- Settles O15: the three ends of `BTN.POLL`, the record and the edge of a good read being those of the filter
step. -/
theorem btnPollRenamesEdges : Obligations.BtnPollRenamesEdges := by
  refine fun a ea => ⟨fun tw => splitWord_encode tw (.btnPoll a ea) rfl, fun s => ?_⟩
  obtain ⟨hf, rfl, e⟩ | ⟨hf, rfl, e⟩ | ⟨hf, e⟩ := execBtnPoll_cases a ea s
  · refine ⟨fun _ => ?_, fun ⟨_, h⟩ => absurd h Bool.false_ne_true, fun h => absurd hf h⟩
    refine ⟨_, _, _, filterStep_stepsFilter s.cfg.btnN s.cfg.btnAL s.btn.f a, e, ?_, ?_, rfl, rfl, rfl⟩
    · rw [renamedEdge_eq_map, respond_rsp]
    · simp [hf]
  · exact ⟨fun ⟨_, h⟩ => absurd h.symm Bool.false_ne_true, fun _ => answersOnly_of_respond e, fun h => absurd hf h⟩
  · exact ⟨fun h => absurd h.1 hf, fun h => absurd h.1 hf, fun _ => answersOnly_of_respond e⟩

theorem btnPoll_of_failed_read (a : Bool) (s : State) (hf : s.btn.fault = 0#4) :
    exec (.btnPoll a true) s = .next (respond (some .btn) (.fault .pinError) s) := by
  obtain ⟨-, h, -⟩ | ⟨-, -, e⟩ | ⟨h, -⟩ := execBtnPoll_cases a true s
  · cases h
  · exact e
  · exact absurd hf h

/-- Settles O16: a failed read only answers, and every `BTN.POLL` goes by the same strobe. -/
theorem btnFailedReadChangesNothing : Obligations.BtnFailedReadChangesNothing := by
  intro a s hf
  have e := btnPoll_of_failed_read a s hf
  exact ⟨answersOnly_of_respond e, fun b eb => execAll_pair_of_respond _ (.btnPoll b eb) .btn _ s e rfl⟩

/-- The level after a poll is the one its answer names, or the one before it where it names none
(41_button_switch.md R145). -/
theorem btnPoll_stable_eq (a ea : Bool) (s t : State) (h : exec (.btnPoll a ea) s = .next t) :
    t.btn.f.stable =
      if t.rsp = some (.ok (.event (some .pressed))) then true
      else if t.rsp = some (.ok (.event (some .released))) then false
      else s.btn.f.stable := by
  obtain ⟨-, -, e⟩ | ⟨-, -, e⟩ | ⟨-, e⟩ := execBtnPoll_cases a ea s <;> cases e.symm.trans h
  · obtain ⟨-, hst, he⟩ | ⟨-, hst, he⟩ := filterStep_cases s.cfg.btnN s.cfg.btnAL s.btn.f a
    · cases hlevel : s.btn.f.stable <;> simp [hst, he, hlevel, eventOfEdge]
    · simp [hst, he]
  · simp
  · simp

/-- Settles O17: the two queries only answer, and `btnPoll_stable_eq`. -/
theorem btnQueriesReadStable : Obligations.BtnQueriesReadStable := by
  refine ⟨fun tw => splitWord_encode tw .btnIsp rfl, fun tw => splitWord_encode tw .btnIsr rfl, fun s => ?_,
    btnPoll_stable_eq⟩
  obtain ⟨hisp, hisp'⟩ := answersOnly_of_query (u := .btn) (execBtnIsp_cases s)
  obtain ⟨hisr, hisr'⟩ := answersOnly_of_query (u := .btn) (execBtnIsr_cases s)
  exact ⟨fun hf => ⟨hisp hf, hisr hf⟩, fun hf => ⟨hisp' hf, hisr' hf⟩⟩

end Sys2Proof.Machine
end

section
/-!
PROOF. The decode rule of the rotary decoder, as a table and on the edges of its filters (42_quadrature_decoder.md
R154, R155, R162, R165).
-/

namespace Sys2Proof.Machine

/-- Settles O19, by the sixteen rows. -/
theorem directionFollowsTable : Obligations.DirectionFollowsTable := by
  unfold Obligations.DirectionFollowsTable
  decide

/-- The decode rule in the words of 42_quadrature_decoder.md R154 and R155. -/
theorem pollDirection_eq_guarded (pa pb sa sb : Bool) :
    pollDirection pa pb sa sb =
      if sa ≠ sb ∧ ¬ (sa ≠ pa ↔ sb ≠ pb) then
        if pa = false ∧ sa = true then some Direction.minusOne
        else if pb = false ∧ sb = true then some Direction.plusOne
        else none
      else none := by
  have hguard : ((sa ^^ sb) && ((sa ^^ pa) ^^ (sb ^^ pb))) = true ↔ sa ≠ sb ∧ ¬ (sa ≠ pa ↔ sb ≠ pb) := by
    decide +revert
  simp only [pollDirection, hguard, Bool.and_eq_true, Bool.not_eq_true']

/-- Stable states that do not change emit nothing. -/
theorem pollDirection_self (a b : Bool) : pollDirection a b a b = none := by
  simp [pollDirection]

/-- The edge that a change of the stable level from `p` to `s` is reported by. -/
def edgeBetween (p s : Bool) : Option Edge := if s = p then none else some (edgeTo s)

/-- The edge of a filter step is the change of its stable level (40_debounce_filter.md R132). -/
theorem filterStep_edge_eq_edgeBetween (n : Nat) (al : Bool) (f : Filter) (raw : Bool) :
    (filterStep n al f raw).2 = edgeBetween f.stable (filterStep n al f raw).1.stable := by
  obtain ⟨-, hst, e⟩ | ⟨-, hst, e⟩ := filterStep_cases n al f raw
  · rw [hst, e, edgeBetween, if_neg (Bool.not_ne_self _)]
  · rw [hst, e, edgeBetween, if_pos rfl]

/-- The two designs agree on every pair of changes of level. -/
theorem pollDirection_eq_edgeDirection (pa pb sa sb : Bool) :
    pollDirection pa pb sa sb = edgeDirection (edgeBetween pa sa) (edgeBetween pb sb) sa sb := by
  decide +revert

/-- Settles O20: each filter's edge is the change of its level, and on those the two designs agree. -/
theorem levelDesignEqualsEdgeDesign : Obligations.LevelDesignEqualsEdgeDesign := by
  intro n al a b fa fb
  rw [filterStep_edge_eq_edgeBetween, filterStep_edge_eq_edgeBetween]
  exact pollDirection_eq_edgeDirection _ _ _ _

end Sys2Proof.Machine
end

section
/-!
PROOF. The operations of the Rotary Decoder (42_quadrature_decoder.md R151 to R161).
-/

namespace Sys2Proof.Machine

@[simp] theorem accumulate_none (x : Tick) : accumulate x none = x := rfl

@[simp] theorem accumulate_plusOne (x : Tick) : accumulate x (some .plusOne) = x + 1#32 := rfl

/-- Adding the pattern of `-1` takes one off, modulo `2^32` (42_quadrature_decoder.md R158). -/
@[simp] theorem accumulate_minusOne (x : Tick) : accumulate x (some .minusOne) = x - 1#32 :=
  (BitVec.sub_eq_add_neg x 1#32).symm

/-- Settles O6: both ends of `QD.INIT`. -/
theorem qdInitConstructsUnit : Obligations.QdInitConstructsUnit := by
  refine ⟨fun tw => splitWord_encode tw .qdInit rfl, fun s => ?_⟩
  rw [← sizeLegal_iff]
  obtain ⟨hn, e⟩ | ⟨hn, e⟩ := execQdInit_cases s
  · exact ⟨fun _ => ⟨_, e, rfl, rfl, rfl, rfl, rfl⟩, fun h => absurd hn h⟩
  · exact ⟨fun h => by simp [hn] at h, fun _ => ⟨_, e, rfl, rfl, rfl, rfl, rfl⟩⟩

/-- Settles O18: the three ends of `QD.POLL`, the records of a good read being those of the two filter steps. -/
theorem qdPollDecodesQuadrature : Obligations.QdPollDecodesQuadrature := by
  refine fun a b ea eb => ⟨fun tw => splitWord_encode tw (.qdPoll a b ea eb) rfl, fun s => ?_⟩
  obtain ⟨hf, rfl, rfl, e⟩ | ⟨hf, hread, e⟩ | ⟨hf, e⟩ := execQdPoll_cases a b ea eb s
  · refine ⟨fun _ => ?_, fun ⟨_, h⟩ => by simp at h, fun h => absurd hf h⟩
    refine ⟨_, _, _, _, emitted a b s, _, filterStep_stepsFilter s.cfg.qdN s.cfg.qdAL s.qd.fa a,
      filterStep_stepsFilter s.cfg.qdN s.cfg.qdAL s.qd.fb b, pollDirection_eq_guarded _ _ _ _, e,
      respond_rsp _ _ _, ?_, rfl, rfl, rfl⟩
    rw [respond_qd, QD.mk.injEq]
    refine ⟨rfl, rfl, ?_, hf⟩
    obtain _ | _ | _ := emitted a b s
    · exact accumulate_none _
    · exact accumulate_minusOne _
    · exact accumulate_plusOne _
  · exact ⟨fun ⟨_, ha, hb⟩ => by simp [ha, hb] at hread, fun _ => answersOnly_of_respond e, fun h => absurd hf h⟩
  · exact ⟨fun h => absurd h.1 hf, fun h => absurd h.1 hf, fun _ => answersOnly_of_respond e⟩

theorem qdPoll_of_failed_read (a b ea eb : Bool) (s : State) (hf : s.qd.fault = 0#4) (hread : ea = true ∨ eb = true) :
    exec (.qdPoll a b ea eb) s = .next (respond (some .qd) (.fault .pinError) s) := by
  obtain ⟨-, rfl, rfl, -⟩ | ⟨-, -, e⟩ | ⟨h, -⟩ := execQdPoll_cases a b ea eb s
  · simp at hread
  · exact e
  · exact absurd hf h

/-- Settles O21: a failed read only answers, and every `QD.POLL` goes by the same strobe. -/
theorem qdFailedReadChangesNothing : Obligations.QdFailedReadChangesNothing := by
  intro a b ea eb s hf hread
  have e := qdPoll_of_failed_read a b ea eb s hf hread
  exact ⟨answersOnly_of_respond e,
    fun a' b' ea' eb' => execAll_pair_of_respond _ (.qdPoll a' b' ea' eb') .qd _ s e rfl⟩

/-- Settles O22: the query only answers, and both ends of `QD.RSTT`. -/
theorem qdTicksReadsAndRsttClears : Obligations.QdTicksReadsAndRsttClears := by
  refine ⟨fun tw => splitWord_encode tw .qdTicks rfl, fun tw => splitWord_encode tw .qdRstt rfl, fun s => ?_⟩
  obtain ⟨hticks, hticks'⟩ := answersOnly_of_query (u := .qd) (execQdTicks_cases s)
  obtain ⟨hf, e⟩ | ⟨hf, e⟩ := execQdRstt_cases s
  · exact ⟨fun _ => ⟨hticks hf, _, e, rfl, rfl, rfl, rfl, rfl⟩, fun h => absurd hf h⟩
  · exact ⟨fun h => absurd h hf, fun _ => ⟨hticks' hf, answersOnly_of_respond e⟩⟩

end Sys2Proof.Machine
end

section
/-!
PROOF. A filter at rest: its history is unanimous for its level.  It stands where a run from the fresh record stands
whose last `N` samples are that level, so a level held for at least `N` polls brings it to rest there, and it changes
on the `N`th of them.
-/

namespace Sys2Proof.Machine

/-- All `n` slots hold `b`, and `b` is the stable level. -/
def Filter.RestsAt (n : Nat) (b : Bool) (f : Filter) : Prop :=
  f.history = unanimousHistory n b ∧ f.stable = b ∧ f.index.toNat < n

theorem recentSample_append_replicate (al raw : Bool) (past : List Bool) (k i : Nat) :
    recentSample al (past ++ List.replicate k raw) i =
      if i < k then normalise al raw else recentSample al past (i - k) := by
  induction k generalizing i with
  | zero => simp
  | succ k ih =>
    rw [List.replicate_succ', ← List.append_assoc]
    cases i with
    | zero => rw [recentSample_snoc_zero, if_pos (Nat.succ_pos k)]
    | succ i => simp only [recentSample_snoc_succ, ih, Nat.add_sub_add_right, Nat.add_lt_add_iff_right]

theorem lastSamplesAre_append_replicate (n : Nat) (al b raw : Bool) (past : List Bool) (h : Nat) (hn : n ≤ h)
    (hraw : normalise al raw = b) : LastSamplesAre n al b (past ++ List.replicate h raw) := by
  intro i hi
  rw [recentSample_append_replicate, if_pos (by omega), hraw]

theorem stable_of_lastSamplesAre (n : Nat) (al b : Bool) (past : List Bool) (h2 : 2 ≤ n) (h8 : n ≤ 8)
    (h : LastSamplesAre n al b past) : (feedFilter n al freshFilter past).stable = b := by
  by_contra hne
  obtain ⟨i, hi, hopp⟩ := exists_recentSample_of_stable n al b past h2 h8 (Bool.eq_not.2 hne)
  simp [h i hi] at hopp

/-- After a run whose last `n` samples agree the filter rests. -/
theorem restsAt_of_lastSamplesAre (n : Nat) (al b : Bool) (past : List Bool) (h2 : 2 ≤ n) (h8 : n ≤ 8)
    (h : LastSamplesAre n al b past) : (feedFilter n al freshFilter past).RestsAt n b := by
  obtain ⟨-, hi, -⟩ := feedFilter_inv n al freshFilter past h2 h8 (freshFilter_inv n h2 h8)
  exact ⟨(feedFilter_eq_unanimousHistory_iff n al b past h2 h8).2 h, stable_of_lastSamplesAre n al b past h2 h8 h, hi⟩

/-- The raw level that normalises to `b`. -/
theorem normalise_xor (al b : Bool) : normalise al (xor b al) = b := by
  simp [normalise]

/-- A filter record is its three registers. -/
theorem filter_eq_of_registers (f g : Filter) (hhist : f.history = g.history) (hi : f.index = g.index)
    (hst : f.stable = g.stable) : f = g := by
  cases f
  cases g
  rw [Filter.mk.injEq]
  exact ⟨hhist, hi, hst⟩

/-- Every filter at rest stands after such a run: one long enough, and of the length that leaves the index where
it is. -/
theorem exists_run_of_restsAt (n : Nat) (al b : Bool) (f : Filter) (h2 : 2 ≤ n) (h8 : n ≤ 8) (hf : f.RestsAt n b) :
    ∃ past, LastSamplesAre n al b past ∧ f = feedFilter n al freshFilter past := by
  obtain ⟨hhist, hst, hi⟩ := hf
  have hlast : LastSamplesAre n al b (List.replicate (n + f.index.toNat) (xor b al)) :=
    lastSamplesAre_append_replicate n al b _ [] _ (Nat.le_add_right _ _) (normalise_xor al b)
  refine ⟨_, hlast, ?_⟩
  obtain ⟨hhist', hst', -⟩ := restsAt_of_lastSamplesAre n al b _ h2 h8 hlast
  have hi' := (feedFilter_slots n al (List.replicate (n + f.index.toNat) (xor b al)) h2 h8).1
  rw [List.length_replicate, Nat.add_mod_left, Nat.mod_eq_of_lt hi] at hi'
  exact filter_eq_of_registers _ _ (hhist.trans hhist'.symm) (BitVec.eq_of_toNat_eq hi'.symm) (hst.trans hst'.symm)

/-- A level held for at least `n` polls brings a filter at rest to rest at that level. -/
theorem feedFilter_replicate_restsAt (n : Nat) (al p b raw : Bool) (f : Filter) (h : Nat) (h2 : 2 ≤ n) (h8 : n ≤ 8)
    (hf : f.RestsAt n p) (hraw : normalise al raw = b) (hn : n ≤ h) :
    (feedFilter n al f (List.replicate h raw)).RestsAt n b := by
  obtain ⟨past, -, rfl⟩ := exists_run_of_restsAt n al p f h2 h8 hf
  rw [← feedFilter_append]
  exact restsAt_of_lastSamplesAre n al b _ h2 h8 (lastSamplesAre_append_replicate n al b raw past h hn hraw)

/-- For fewer than `n` polls one sample of the old level is still among the last `n`, so the level stays. -/
theorem feedFilter_replicate_stable_of_lt (n : Nat) (al p raw : Bool) (f : Filter) (k : Nat) (h2 : 2 ≤ n) (h8 : n ≤ 8)
    (hf : f.RestsAt n p) (hk : k < n) : (feedFilter n al f (List.replicate k raw)).stable = p := by
  obtain ⟨past, hlast, rfl⟩ := exists_run_of_restsAt n al p f h2 h8 hf
  rw [← feedFilter_append]
  induction k with
  | zero => rw [List.replicate_zero, List.append_nil, stable_of_lastSamplesAre n al p past h2 h8 hlast]
  | succ k ih =>
    have hbefore := ih (by omega)
    have hold : recentSample al (past ++ List.replicate (k + 1) raw) (k + 1) = p := by
      rw [recentSample_append_replicate, if_neg (lt_irrefl _), Nat.sub_self, hlast 0 (by omega)]
    rw [List.replicate_succ', ← List.append_assoc] at hold ⊢
    obtain ⟨hall, -⟩ | ⟨-, hst, -⟩ := poll_after_run_cases n al (past ++ List.replicate k raw) raw h2 h8
    · have hnew := hall (k + 1) hk
      rw [hold, hbefore] at hnew
      exact absurd hnew.symm (Bool.not_ne_self p)
    · rw [hst, hbefore]

/-- A held level `b` takes over from the old one, `p`, on poll `n`. -/
theorem feedFilter_replicate_stable (n : Nat) (al p b raw : Bool) (f : Filter) (k : Nat) (h2 : 2 ≤ n) (h8 : n ≤ 8)
    (hf : f.RestsAt n p) (hraw : normalise al raw = b) :
    (feedFilter n al f (List.replicate k raw)).stable = if k < n then p else b := by
  split
  case isTrue hk => exact feedFilter_replicate_stable_of_lt n al p raw f k h2 h8 hf hk
  case isFalse hk =>
    obtain ⟨-, hst, -⟩ := feedFilter_replicate_restsAt n al p b raw f k h2 h8 hf hraw (by omega)
    exact hst

end Sys2Proof.Machine
end

section
/-!
PROOF. One tick per cycle (42_quadrature_decoder.md R163).  A decoder at rest whose two levels are held for at least
`QD_N` polls changes both on the same poll, the `QD_N`th, and so emits what the decode rule says of the two pairs of
levels, once; a cycle is four such phases.
-/

namespace Sys2Proof.Machine

/-- The run completes under the same configuration, and the directions it answers are `ds`. -/
structure RunEmits (is : List Instr) (ds : List Direction) (s t : State) : Prop where
  completes : execAll is s = .next t
  answers : (responses is s).filterMap directionOf = ds
  keepsCfg : t.cfg = s.cfg

theorem RunEmits.cons {i : Instr} {is : List Instr} {ds : List Direction} {s u t : State} (h : exec i s = .next u)
    (h' : RunEmits is ds u t) : RunEmits (i :: is) ((directionOf u.rsp).toList ++ ds) s t := by
  obtain ⟨hrun, rfl, hc⟩ := h'
  refine ⟨(execAll_cons i is s u h).trans hrun, ?_, hc.trans (exec_keeps_cfg_inp i s u h).1⟩
  rw [responses_cons i is s u h, List.filterMap_eq_flatMap_toList, List.filterMap_eq_flatMap_toList,
    List.flatMap_cons]

/-- A run goes on where its first part ends. -/
theorem run_append (is js : List Instr) (s u : State) (h : execAll is s = .next u) :
    execAll (is ++ js) s = execAll js u ∧ responses (is ++ js) s = responses is s ++ responses js u := by
  induction is generalizing s with
  | nil =>
    cases h
    exact ⟨rfl, rfl⟩
  | cons i is ih =>
    obtain ⟨v, hv, -⟩ := exec_next_keeps i s
    rw [execAll_cons i is s v hv] at h
    obtain ⟨hrun, hrsp⟩ := ih v h
    rw [List.cons_append, execAll_cons i _ s v hv, responses_cons i _ s v hv, responses_cons i _ s v hv, hrun, hrsp]
    exact ⟨rfl, rfl⟩

theorem RunEmits.append {is js : List Instr} {ds es : List Direction} {s u t : State} (h : RunEmits is ds s u)
    (h' : RunEmits js es u t) : RunEmits (is ++ js) (ds ++ es) s t := by
  obtain ⟨hrun, rfl, hc⟩ := h
  obtain ⟨hrun', rfl, hc'⟩ := h'
  obtain ⟨happ, hrsp⟩ := run_append is js s u hrun
  exact ⟨happ.trans hrun', by rw [hrsp, List.filterMap_append], hc'.trans hc⟩

/-- The accumulator after a run without `QD.INIT` and `QD.RSTT` that emits one direction. -/
theorem RunEmits.ticks_of_singleton {is : List Instr} {d : Direction} {s t : State} (h : RunEmits is [d] s t)
    (hops : ∀ i ∈ is, i ≠ .qdInit ∧ i ≠ .qdRstt) : t.qd.ticks = accumulate s.qd.ticks (some d) := by
  obtain ⟨hrun, hds, -⟩ := h
  obtain ⟨t', ht', hsum⟩ := execAll_ticks is s hops
  cases ht'.symm.trans hrun
  rw [hsum, answeredTicks, hds, List.map_singleton, List.sum_singleton, accumulate]

/-- A good poll in service: each filter takes its step. -/
theorem exec_qdPoll_in_service (a b : Bool) (s : State) (hf : s.qd.fault = 0#4) :
    ∃ u, exec (.qdPoll a b false false) s = .next u ∧ directionOf u.rsp = emitted a b s ∧ u.cfg = s.cfg ∧
      u.qd.fault = 0#4 ∧ u.qd.fa = (filterStep s.cfg.qdN s.cfg.qdAL s.qd.fa a).1 ∧
      u.qd.fb = (filterStep s.cfg.qdN s.cfg.qdAL s.qd.fb b).1 := by
  obtain ⟨-, -, -, e⟩ | ⟨-, h, -⟩ | ⟨h, -⟩ := execQdPoll_cases a b false false s
  · exact ⟨_, e, rfl, rfl, hf, rfl, rfl⟩
  · simp at h
  · exact absurd hf h

/-- The direction of poll `k`, counted from 0, of a run of polls of the raw levels `a` and `b`: the decode rule on
the stable levels before it and after it. -/
def repeatedDirection (n : Nat) (al a b : Bool) (fa fb : Filter) (k : Nat) : Option Direction :=
  pollDirection (feedFilter n al fa (List.replicate k a)).stable (feedFilter n al fb (List.replicate k b)).stable
    (feedFilter n al fa (List.replicate (k + 1) a)).stable (feedFilter n al fb (List.replicate (k + 1) b)).stable

/-- A run of polls of one pair of raw levels, in service. -/
theorem runEmits_replicate_qdPoll (a b : Bool) (h : Nat) (s : State) (hf : s.qd.fault = 0#4) :
    ∃ t, RunEmits (List.replicate h (.qdPoll a b false false))
        ((List.range h).flatMap fun k => (repeatedDirection s.cfg.qdN s.cfg.qdAL a b s.qd.fa s.qd.fb k).toList) s t ∧
      t.qd.fault = 0#4 ∧ t.qd.fa = feedFilter s.cfg.qdN s.cfg.qdAL s.qd.fa (List.replicate h a) ∧
      t.qd.fb = feedFilter s.cfg.qdN s.cfg.qdAL s.qd.fb (List.replicate h b) := by
  induction h generalizing s with
  | zero => exact ⟨s, ⟨rfl, rfl, rfl⟩, hf, rfl, rfl⟩
  | succ h ih =>
    obtain ⟨u, hu, hdir, hc, huf, hua, hub⟩ := exec_qdPoll_in_service a b s hf
    obtain ⟨t, hrun, htf, hta, htb⟩ := ih u huf
    have hall := RunEmits.cons hu hrun
    rw [hdir, hc, hua, hub] at hall
    rw [hc, hua] at hta
    rw [hc, hub] at htb
    rw [List.replicate_succ, List.range_succ_eq_map, List.flatMap_cons, List.flatMap_map]
    exact ⟨t, hall, htf, hta, htb⟩

/-- Where only the index `j` contributes. -/
theorem flatMap_range_of_only {α : Type} (g : Nat → List α) (j h : Nat) (hj : j < h) (hg : ∀ k, k ≠ j → g k = []) :
    (List.range h).flatMap g = g j := by
  induction h with
  | zero => omega
  | succ h ih =>
    rw [List.range_succ, List.flatMap_append, List.flatMap_singleton]
    by_cases hjh : j = h
    · subst hjh
      have hbefore : (List.range j).flatMap g = [] :=
        List.flatMap_eq_nil_iff.2 fun k hk => hg k (List.mem_range.1 hk).ne
      rw [hbefore, List.nil_append]
    · rw [ih (by omega), hg h (Ne.symm hjh), List.append_nil]

/-- Both filters of the decoder rest. -/
def QD.RestsAt (n : Nat) (a b : Bool) (q : QD) : Prop := q.fault = 0#4 ∧ q.fa.RestsAt n a ∧ q.fb.RestsAt n b

/-- Out of rest, both levels change on poll `n` and on no other, so only that poll can emit. -/
theorem repeatedDirection_of_restsAt (n : Nat) (al pa pb a b : Bool) (q : QD) (k : Nat) (h2 : 2 ≤ n) (h8 : n ≤ 8)
    (hq : q.RestsAt n pa pb) :
    repeatedDirection n al (xor a al) (xor b al) q.fa q.fb k =
      if k = n - 1 then pollDirection pa pb a b else none := by
  obtain ⟨-, ha, hb⟩ := hq
  simp only [repeatedDirection, feedFilter_replicate_stable n al pa a _ q.fa _ h2 h8 ha (normalise_xor al a),
    feedFilter_replicate_stable n al pb b _ q.fb _ h2 h8 hb (normalise_xor al b)]
  rcases lt_trichotomy k (n - 1) with hlt | heq | hgt
  · simp only [if_pos (show k < n by omega), if_pos (show k + 1 < n by omega), if_neg hlt.ne, pollDirection_self]
  · simp only [if_pos (show k < n by omega), if_neg (show ¬ k + 1 < n by omega), if_pos heq]
  · simp only [if_neg (show ¬ k < n by omega), if_neg (show ¬ k + 1 < n by omega), if_neg hgt.ne', pollDirection_self]

/-- The polls of one phase: the normalised levels `(a, b)`, as raw levels, held for `h` polls. -/
def phasePolls (al a b : Bool) (h : Nat) : List Instr :=
  List.replicate h (.qdPoll (xor a al) (xor b al) false false)

/-- A phase from rest, of at least `QD_N` polls, emits once what the decode rule says of the levels before it and
in it, and leaves the decoder at rest there. -/
theorem phasePolls_emits (c : Cfg) (pa pb a b : Bool) (h : Nat) (s : State) (hc : s.cfg = c) (h2 : 2 ≤ c.qdN)
    (h8 : c.qdN ≤ 8) (hn : c.qdN ≤ h) (hs : s.qd.RestsAt c.qdN pa pb) :
    ∃ t, RunEmits (phasePolls c.qdAL a b h) (pollDirection pa pb a b).toList s t ∧ t.qd.RestsAt c.qdN a b := by
  subst hc
  obtain ⟨hf, ha, hb⟩ := hs
  obtain ⟨t, hrun, htf, hta, htb⟩ := runEmits_replicate_qdPoll (xor a s.cfg.qdAL) (xor b s.cfg.qdAL) h s hf
  have honly (k : Nat) := repeatedDirection_of_restsAt s.cfg.qdN s.cfg.qdAL pa pb a b s.qd k h2 h8 ⟨hf, ha, hb⟩
  rw [flatMap_range_of_only _ (s.cfg.qdN - 1) h (by omega) fun k hk => by rw [honly, if_neg hk]; rfl, honly,
    if_pos rfl] at hrun
  refine ⟨t, hrun, htf, ?_, ?_⟩
  · rw [hta]
    exact feedFilter_replicate_restsAt _ _ pa a _ s.qd.fa h h2 h8 ha (normalise_xor _ a) hn
  · rw [htb]
    exact feedFilter_replicate_restsAt _ _ pb b _ s.qd.fb h h2 h8 hb (normalise_xor _ b) hn

/-- The four phases of a cycle, for either leading channel. -/
theorem cyclePolls_eq_phases (al aLeads : Bool) (h₁ h₂ h₃ h₄ : Nat) :
    cyclePolls al aLeads h₁ h₂ h₃ h₄ =
      phasePolls al aLeads (!aLeads) h₁ ++ phasePolls al true true h₂ ++ phasePolls al (!aLeads) aLeads h₃ ++
        phasePolls al false false h₄ := by
  cases aLeads <;> rfl

theorem qdPoll_of_mem_cyclePolls (al aLeads : Bool) (h₁ h₂ h₃ h₄ : Nat) (i : Instr)
    (hi : i ∈ cyclePolls al aLeads h₁ h₂ h₃ h₄) : ∃ a b, i = .qdPoll a b false false := by
  rw [cyclePolls_eq_phases, List.mem_append, List.mem_append, List.mem_append] at hi
  obtain ((hi | hi) | hi) | hi := hi <;> exact ⟨_, _, List.eq_of_mem_replicate hi⟩

/-- A cycle from rest at (0, 0): the leading channel's rise emits, the other three changes emit nothing
(42_quadrature_decoder.md R162). -/
theorem cyclePolls_emits (s : State) (aLeads : Bool) (h₁ h₂ h₃ h₄ : Nat) (h2 : 2 ≤ s.cfg.qdN) (h8 : s.cfg.qdN ≤ 8)
    (hs : s.qd.RestsAt s.cfg.qdN false false) (hn₁ : s.cfg.qdN ≤ h₁) (hn₂ : s.cfg.qdN ≤ h₂) (hn₃ : s.cfg.qdN ≤ h₃)
    (hn₄ : s.cfg.qdN ≤ h₄) :
    ∃ t, RunEmits (cyclePolls s.cfg.qdAL aLeads h₁ h₂ h₃ h₄) [if aLeads then .minusOne else .plusOne] s t ∧
      t.qd.RestsAt s.cfg.qdN false false := by
  obtain ⟨u₁, e₁, r₁⟩ := phasePolls_emits s.cfg _ _ aLeads (!aLeads) h₁ s rfl h2 h8 hn₁ hs
  obtain ⟨u₂, e₂, r₂⟩ := phasePolls_emits s.cfg _ _ true true h₂ u₁ e₁.keepsCfg h2 h8 hn₂ r₁
  have e₁₂ := e₁.append e₂
  obtain ⟨u₃, e₃, r₃⟩ := phasePolls_emits s.cfg _ _ (!aLeads) aLeads h₃ u₂ e₁₂.keepsCfg h2 h8 hn₃ r₂
  have e₁₂₃ := e₁₂.append e₃
  obtain ⟨t, e₄, r₄⟩ := phasePolls_emits s.cfg _ _ false false h₄ u₃ e₁₂₃.keepsCfg h2 h8 hn₄ r₃
  have hall := e₁₂₃.append e₄
  rw [← cyclePolls_eq_phases] at hall
  refine ⟨t, ?_, r₄⟩
  cases aLeads <;> exact hall

/-- Settles O23: the cycle's one direction, the accumulator moved by it, and the decoder at rest again. -/
theorem oneTickPerCycle : Obligations.OneTickPerCycle := by
  intro s aLeads h₁ h₂ h₃ h₄ hf h2 h8 hah has hai hbh hbs hbi hn₁ hn₂ hn₃ hn₄
  obtain ⟨t, hrun, htf, ⟨hah', has', hai'⟩, hbh', hbs', hbi'⟩ := cyclePolls_emits s aLeads h₁ h₂ h₃ h₄ h2 h8
    ⟨hf, ⟨hah, has, hai⟩, hbh, hbs, hbi⟩ hn₁ hn₂ hn₃ hn₄
  have hticks := hrun.ticks_of_singleton fun i hi => by
    obtain ⟨a, b, rfl⟩ := qdPoll_of_mem_cyclePolls _ _ _ _ _ _ i hi
    simp
  obtain ⟨hexec, hdirs, hc⟩ := hrun
  refine ⟨t, hexec, hdirs, hticks.trans ?_, hc, htf, hah', has', hai', hbh', hbs', hbi'⟩
  cases aLeads
  · exact accumulate_plusOne _
  · exact accumulate_minusOne _

end Sys2Proof.Machine
end

section
/-!
PROOF. The three operations of the Velocity Map, one call at a time (43_velocity_map.md R171 to R191).
-/

namespace Sys2Proof.Machine

/-- Settles O7: `VM.INIT` has one end. -/
theorem vmInitEmptiesMap : Obligations.VmInitEmptiesMap :=
  ⟨fun tw => splitWord_encode tw .vmInit rfl, fun s => ⟨_, execVmInit_eq s, rfl, rfl, rfl, rfl, rfl⟩⟩

theorem hasThreshold_eq_false_iff (tbl : List Entry) (thr : Nat) :
    hasThreshold tbl thr = false ↔ ∀ e ∈ tbl, e.thr ≠ thr := by
  simp [hasThreshold]

/-- Settles O25: the four ends of `VM.ADD`, the new table being that of the sorted insertion. -/
theorem vmAddInsertsOrFaults : Obligations.VmAddInsertsOrFaults := by
  refine fun d w => ⟨fun tw hd => splitWord_encode tw (.vmAdd d w) (decide_eq_true hd), fun s => ?_⟩
  rw [← hasThreshold_eq_false_iff, ← hasThreshold_iff]
  obtain ⟨hf, hl, hd, e⟩ | ⟨hf, hl, e⟩ | ⟨hf, hl, hd, e⟩ | ⟨hf, e⟩ := execVmAdd_cases d w s
  · refine ⟨fun _ _ _ hs => ?_, fun h => absurd hf h, fun _ h => absurd h hl, fun _ _ h => by simp [hd] at h⟩
    exact ⟨_, _, insertEntry_perm s.vm.tbl _, insertEntry_sorted s.vm.tbl _ hs hd, e, rfl, rfl,
      insertEntry_length s.vm.tbl _, rfl, rfl, rfl⟩
  · exact ⟨fun _ h => absurd hl h, fun h => absurd hf h, fun _ _ => ⟨_, e, rfl, rfl, rfl, rfl, rfl⟩,
      fun _ h => absurd hl h⟩
  · exact ⟨fun _ _ h => by simp [hd] at h, fun h => absurd hf h, fun _ h => absurd h hl,
      fun _ _ _ => ⟨_, e, rfl, rfl, rfl, rfl, rfl⟩⟩
  · exact ⟨fun h => absurd h hf, fun _ => answersOnly_of_respond e, fun h => absurd h hf, fun h => absurd h hf⟩

theorem exec_vmMap_of_no_tick (d : Nat) (w : Tick) (s : State) (hf : s.vm.fault = 0#4) :
    exec (.vmMap d false w) s = .next (respond (some .vm) (.ok (.mapped none)) s) := by
  obtain ⟨-, -, e⟩ | ⟨-, h, -⟩ | ⟨h, -⟩ := execVmMap_cases d false w s
  · exact e
  · cases h
  · exact absurd hf h

theorem exec_vmMap_of_tick (d : Nat) (w : Tick) (s : State) (hf : s.vm.fault = 0#4) :
    exec (.vmMap d true w) s =
      .next (respond (some .vm) (.ok (.mapped (mapTick d w s).1)) (mapTick d w s).2) := by
  obtain ⟨-, h, -⟩ | ⟨-, -, e⟩ | ⟨h, -⟩ := execVmMap_cases d true w s
  · cases h
  · exact e
  · exact absurd hf h

theorem vm_len_eq_zero_iff (v : VM) : v.len = 0 ↔ v.tbl = [] := List.length_eq_zero_iff

/-- The first two cases of 43_velocity_map.md R181. -/
theorem mapTick_of_empty_or_first (d : Nat) (w : Tick) (s : State)
    (h : s.vm.tbl = [] ∨ s.vm.lastValid = false) : mapTick d w s = (some w, recordInstant d s) := by
  rw [← vm_len_eq_zero_iff] at h
  obtain ⟨-, e⟩ | ⟨hl, hv, -⟩ | ⟨hl, hv, -⟩ := mapTick_cases d w s
  · exact e
  all_goals simp [hl, hv] at h

/-- The third case of 43_velocity_map.md R181. -/
theorem mapTick_of_backward (d : Nat) (w : Tick) (s : State) (ht : s.vm.tbl ≠ []) (hv : s.vm.lastValid = true)
    (hd : d < s.vm.lastInstant) : mapTick d w s = (none, s) := by
  rw [ne_eq, ← vm_len_eq_zero_iff] at ht
  obtain ⟨h, -⟩ | ⟨-, -, -, e⟩ | ⟨-, -, h, -⟩ := mapTick_cases d w s
  · simp [ht, hv] at h
  · exact e
  · omega

/-- The last case of 43_velocity_map.md R181. -/
theorem mapTick_of_forward (d : Nat) (w : Tick) (s : State) (ht : s.vm.tbl ≠ []) (hv : s.vm.lastValid = true)
    (hd : s.vm.lastInstant ≤ d) :
    mapTick d w s =
      (some (scaledTick s.cfg.scale s.vm.tbl (d - s.vm.lastInstant) w), recordInstant d s) := by
  rw [ne_eq, ← vm_len_eq_zero_iff] at ht
  obtain ⟨h, -⟩ | ⟨-, -, h, -⟩ | ⟨-, -, -, e⟩ := mapTick_cases d w s
  · simp [ht, hv] at h
  · omega
  · exact e

/-- Settles O28: the end of `VM.MAP` without a tick. -/
theorem vmMapWithoutTickPassesThrough : Obligations.VmMapWithoutTickPassesThrough := fun d w =>
  ⟨fun tw a hd => splitWord_encode tw (.vmMap d a w) (decide_eq_true hd),
    fun s hf => answersOnly_of_respond (exec_vmMap_of_no_tick d w s hf)⟩

/-- Settles O29: the first two cases of a mapped tick. -/
theorem vmMapEmptyOrFirstIsUnscaled : Obligations.VmMapEmptyOrFirstIsUnscaled := by
  intro d w s hf h
  have e := exec_vmMap_of_tick d w s hf
  rw [mapTick_of_empty_or_first d w s h] at e
  exact ⟨_, e, rfl, rfl, rfl, rfl, rfl⟩

/-- Settles O30: a rejected tick only answers, and every `VM.MAP` goes by the same strobe. -/
theorem vmMapRejectsBackwardInstant : Obligations.VmMapRejectsBackwardInstant := by
  intro d w s hf ht hv hd
  have e := exec_vmMap_of_tick d w s hf
  rw [mapTick_of_backward d w s ht hv hd] at e
  exact ⟨answersOnly_of_respond e, fun d' a' w' => execAll_pair_of_respond _ (.vmMap d' a' w') .vm _ s e rfl⟩

/-- 43_velocity_map.md R191's condition for the instant of a call to be recorded. -/
def RecordsInstant (d : Nat) (a : Bool) (v : VM) : Prop :=
  v.fault = 0#4 ∧ a = true ∧ (v.tbl = [] ∨ v.lastValid = false ∨ v.lastInstant ≤ d)

/-- `VM.MAP` records the instant under that condition and otherwise leaves the map as it is. -/
theorem vm_after_vmMap (d : Nat) (a : Bool) (w : Tick) (s t : State) (h : exec (.vmMap d a w) s = .next t) :
    (RecordsInstant d a s.vm ∧ t.vm = { s.vm with lastValid := true, lastInstant := d }) ∨
    (¬ RecordsInstant d a s.vm ∧ t.vm = s.vm) := by
  obtain ⟨-, rfl, e⟩ | ⟨hf, rfl, e⟩ | ⟨hf, e⟩ := execVmMap_cases d a w s <;> cases e.symm.trans h
  · exact .inr ⟨fun hr => Bool.false_ne_true hr.2.1, rfl⟩
  · rw [respond_vm, RecordsInstant, ← vm_len_eq_zero_iff]
    obtain ⟨hl | hv, e'⟩ | ⟨hl, hv, hd, e'⟩ | ⟨-, -, hd, e'⟩ := mapTick_cases d w s <;> rw [e']
    · exact .inl ⟨⟨hf, rfl, .inl hl⟩, rfl⟩
    · exact .inl ⟨⟨hf, rfl, .inr (.inl hv)⟩, rfl⟩
    · exact .inr ⟨fun ⟨_, _, hr⟩ => by simp [hl, hv] at hr; omega, rfl⟩
    · exact .inl ⟨⟨hf, rfl, .inr (.inr hd)⟩, rfl⟩
  · exact .inr ⟨fun hr => hf hr.1, rfl⟩

/-- Settles O33: both ends of `vm_after_vmMap`. -/
theorem lastInstantMovesExactlyWhen : Obligations.LastInstantMovesExactlyWhen := by
  intro d a w s t h
  obtain ⟨hr, e⟩ | ⟨hr, e⟩ := vm_after_vmMap d a w s t h <;> rw [e]
  · exact ⟨rfl, rfl, fun _ => ⟨rfl, rfl⟩, fun hn => absurd hr hn⟩
  · exact ⟨rfl, rfl, fun hr' => absurd hr' hr, fun _ => ⟨rfl, rfl⟩⟩

end Sys2Proof.Machine
end

section
/-!
PROOF. The lookup of 43_velocity_map.md R186, and the tick count it scales.
-/

namespace Sys2Proof.Machine

/-- The entry that a lookup finds is the first one above the elapsed time. -/
theorem lookupEntry_eq_some_iff (tbl : List Entry) (elapsed : Nat) (e : Entry) :
    lookupEntry tbl elapsed = some e ↔
      elapsed < e.thr ∧ ∃ before after, tbl = before ++ e :: after ∧ ∀ x ∈ before, x.thr ≤ elapsed := by
  simp [lookupEntry, List.find?_eq_some_iff_append]

/-- In a sorted table every entry above the elapsed time is the one the lookup finds or has a larger threshold. -/
theorem eq_or_lt_of_lookupEntry (tbl : List Entry) (elapsed : Nat) (e x : Entry) (hs : SortedTable tbl)
    (h : lookupEntry tbl elapsed = some e) (hx : x ∈ tbl) (hlt : elapsed < x.thr) : x = e ∨ e.thr < x.thr := by
  obtain ⟨-, before, after, rfl, hbefore⟩ := (lookupEntry_eq_some_iff tbl elapsed e).1 h
  obtain ⟨-, htail, -⟩ := List.pairwise_append.1 hs
  obtain hx | hx := List.mem_append.1 hx
  · have := hbefore x hx
    omega
  · obtain rfl | hx := List.mem_cons.1 hx
    · exact .inl rfl
    · exact .inr ((List.pairwise_cons.1 htail).1 x hx)

theorem lookupEntry_le (tbl : List Entry) (elapsed : Nat) (e x : Entry) (hs : SortedTable tbl)
    (h : lookupEntry tbl elapsed = some e) (hx : x ∈ tbl) (hlt : elapsed < x.thr) : e.thr ≤ x.thr := by
  obtain rfl | hlt := eq_or_lt_of_lookupEntry tbl elapsed e x hs h hx hlt
  · exact le_rfl
  · exact hlt.le

/-- Settles O32: a lookup finds some entry if one is above the elapsed time, and no other than the smallest. -/
theorem lookupFindsSmallestThreshold : Obligations.LookupFindsSmallestThreshold := by
  intro tbl elapsed e hs
  constructor
  · intro h
    obtain ⟨hmem, hlt⟩ := lookupEntry_some tbl elapsed e h
    exact ⟨hmem, hlt, fun x hx => lookupEntry_le tbl elapsed e x hs h hx⟩
  · rintro ⟨hmem, hlt, hmin⟩
    cases h : lookupEntry tbl elapsed with
    | none =>
      have := (lookupEntry_none tbl elapsed).1 h e hmem
      omega
    | some e' =>
      obtain ⟨hmem', hlt'⟩ := lookupEntry_some tbl elapsed e' h
      obtain rfl | hlarger := eq_or_lt_of_lookupEntry tbl elapsed e' e hs h hmem hlt
      · rfl
      · have := hmin e' hmem' hlt'
        omega

theorem scaledTick_of_lookup_some (r : ScaleRule) (tbl : List Entry) (elapsed : Nat) (w : Tick) (e : Entry)
    (h : lookupEntry tbl elapsed = some e) : scaledTick r tbl elapsed w = scaleApply r w e.scale := by
  simp only [scaledTick, h]

theorem scaledTick_of_lookup_none (r : ScaleRule) (tbl : List Entry) (elapsed : Nat) (w : Tick)
    (h : lookupEntry tbl elapsed = none) : scaledTick r tbl elapsed w = w := by
  simp only [scaledTick, h]

/-- A tick at an instant not before the recorded one is scaled, and the instant recorded. -/
theorem exec_vmMap_of_forward (d : Nat) (w : Tick) (s : State) (hf : s.vm.fault = 0#4) (ht : s.vm.tbl ≠ [])
    (hv : s.vm.lastValid = true) (hd : s.vm.lastInstant ≤ d) :
    ∃ t, exec (.vmMap d true w) s = .next t ∧
      t.rsp = some (.ok (.mapped (some (scaledTick s.cfg.scale s.vm.tbl (d - s.vm.lastInstant) w)))) ∧
      t.vm = { s.vm with lastInstant := d } ∧ t.df = s.df ∧ t.btn = s.btn ∧ t.qd = s.qd := by
  have e := exec_vmMap_of_tick d w s hf
  rw [mapTick_of_forward d w s ht hv hd] at e
  exact ⟨_, e, rfl, by simp [hv], rfl, rfl, rfl⟩

/-- Settles O31: the entry of the statement is the one the lookup finds. -/
theorem vmMapScalesByFirstBucket : Obligations.VmMapScalesByFirstBucket := by
  intro d w s hf ht hv hd
  have hexec := exec_vmMap_of_forward d w s hf ht hv hd
  constructor
  · intro before after e htbl hbefore hlt
    have hfound : lookupEntry s.vm.tbl (d - s.vm.lastInstant) = some e :=
      (lookupEntry_eq_some_iff _ _ e).2 ⟨hlt, before, after, htbl, hbefore⟩
    rw [scaledTick_of_lookup_some _ _ _ w e hfound] at hexec
    exact ⟨hexec, fun hs x hx => lookupEntry_le _ _ e x hs hfound hx⟩
  · intro hall
    rwa [scaledTick_of_lookup_none _ _ _ w ((lookupEntry_none _ _).2 hall)] at hexec

end Sys2Proof.Machine
end

section
/-!
PROOF. Runs of operations on the map: it stays as it is once it has a fault recorded (60_exceptions.md R205), and
additions without a fault lead to the one sorted table of their entries (43_velocity_map.md R180).
-/

namespace Sys2Proof.Machine

/-- Out of service, every operation but `INIT` only answers (60_exceptions.md R205). -/
theorem exec_of_faulted (i : Instr) (s : State) (hi : isInit i = false) (hf : unitFault (unitOf i) s ≠ 0#4) :
    exec i s = .next (respond (strobeOf i) (.fault .unitFaulted) s) := by
  cases i with
  | dfInit | btnInit | qdInit | vmInit => cases hi
  | _ => exact congrArg _ (inService_of_faulted _ _ s _ hf)

theorem exec_keeps_faulted_vm (i : Instr) (s t : State) (h : exec i s = .next t) (hi : i ≠ .vmInit)
    (hf : s.vm.fault ≠ 0#4) : t.vm = s.vm := by
  obtain e | ⟨hinit, -⟩ | ⟨hok, -⟩ | ⟨hok, -⟩ := vm_after_exec i s t h
  · exact e
  · exact absurd hinit hi
  · exact absurd hok hf
  · exact absurd hok hf

theorem execAll_keeps_faulted_vm (is : List Instr) (s : State) (his : .vmInit ∉ is) (hf : s.vm.fault ≠ 0#4) :
    ∃ t, execAll is s = .next t ∧ t.vm = s.vm := by
  induction is generalizing s with
  | nil => exact ⟨s, rfl, rfl⟩
  | cons i is ih =>
    rw [List.mem_cons, not_or] at his
    obtain ⟨hi, his⟩ := his
    obtain ⟨u, hu, -⟩ := exec_next_keeps i s
    have hvm := exec_keeps_faulted_vm i s u hu (Ne.symm hi) hf
    obtain ⟨t, ht, htvm⟩ := ih u his (by rwa [hvm])
    exact ⟨t, (execAll_cons i is s u hu).trans ht, htvm.trans hvm⟩

/-- An addition that meets a full table or its own threshold records the fault and nothing else. -/
theorem exec_vmAdd_of_refused (d : Nat) (w : ScaleBits) (s : State) (hf : s.vm.fault = 0#4)
    (h : s.vm.len = s.cfg.mapSize ∨ ∃ e ∈ s.vm.tbl, e.thr = d) :
    ∃ t, exec (.vmAdd d w) s = .next t ∧
      t.vm = { s.vm with fault := if s.vm.len = s.cfg.mapSize then 2#4 else 6#4 } := by
  rw [← hasThreshold_iff] at h
  obtain ⟨-, hl, hd, -⟩ | ⟨-, hl, e⟩ | ⟨-, hl, -, e⟩ | ⟨h', -⟩ := execVmAdd_cases d w s
  · simp [hl, hd] at h
  · exact ⟨_, e, by rw [if_pos hl]; rfl⟩
  · exact ⟨_, e, by rw [if_neg hl]; rfl⟩
  · exact absurd hf h'

/-- Settles O26: the refused addition records a fault, which the run keeps. -/
theorem faultedMapHoldsUntilInit : Obligations.FaultedMapHoldsUntilInit := by
  intro d w s is hf h his
  obtain ⟨u, hu, huvm⟩ := exec_vmAdd_of_refused d w s hf h
  have huf : u.vm.fault ≠ 0#4 := by
    rw [huvm]
    dsimp only
    split <;> decide
  obtain ⟨t, ht, htvm⟩ := execAll_keeps_faulted_vm is u his huf
  refine ⟨t, (execAll_cons _ is s u hu).trans ht, by rw [htvm, huvm], by rw [htvm, huvm], by rw [htvm, huvm],
    by rw [htvm, huvm], fun i hunit hi => ?_⟩
  have hinit : isInit i = false := by
    cases i with
    | vmInit => exact absurd rfl hi
    | vmAdd _ _ | vmMap _ _ _ => rfl
    | _ => cases hunit
  refine answersOnly_of_respond (exec_of_faulted i t hinit ?_)
  rwa [hunit, unitFault_vm, htvm]

/-- The operations that add a list of entries, in its order. -/
def additions (es : List Entry) : List Instr := es.map fun e => .vmAdd e.thr e.scale

theorem exec_vmAdd_of_new (e : Entry) (s : State) (hf : s.vm.fault = 0#4) (hl : s.vm.len < s.cfg.mapSize)
    (hnew : ∀ x ∈ s.vm.tbl, x.thr ≠ e.thr) :
    ∃ t, exec (.vmAdd e.thr e.scale) s = .next t ∧ t.cfg = s.cfg ∧
      t.vm = { s.vm with tbl := insertEntry s.vm.tbl e } := by
  have hd := (hasThreshold_eq_false_iff s.vm.tbl e.thr).2 hnew
  obtain ⟨-, -, -, h⟩ | ⟨-, hl', -⟩ | ⟨-, -, hd', -⟩ | ⟨h', -⟩ := execVmAdd_cases e.thr e.scale s
  · exact ⟨_, h, rfl, rfl⟩
  · omega
  · simp [hd] at hd'
  · exact absurd hf h'

/-- Additions of new thresholds with room for all: the table is sorted and has gained exactly these entries. -/
theorem execAll_additions (es : List Entry) (s : State) (hf : s.vm.fault = 0#4) (hs : SortedTable s.vm.tbl)
    (hroom : s.vm.len + es.length ≤ s.cfg.mapSize) (hnew : ∀ e ∈ es, ∀ x ∈ s.vm.tbl, x.thr ≠ e.thr)
    (hdist : (es.map Entry.thr).Nodup) :
    ∃ t tbl, execAll (additions es) s = .next t ∧ t.vm = { s.vm with tbl := tbl } ∧ tbl.Perm (es ++ s.vm.tbl) ∧
      SortedTable tbl := by
  induction es generalizing s with
  | nil => exact ⟨s, s.vm.tbl, rfl, rfl, .refl _, hs⟩
  | cons e es ih =>
    obtain ⟨hnewe, hnewes⟩ := List.forall_mem_cons.1 hnew
    obtain ⟨he, hdist⟩ := List.nodup_cons.1 hdist
    rw [List.length_cons] at hroom
    obtain ⟨u, hu, hc, hvm⟩ := exec_vmAdd_of_new e s hf (by omega) hnewe
    have hlen : u.vm.len = s.vm.len + 1 := by
      rw [hvm]
      exact insertEntry_length s.vm.tbl e
    have hnewu : ∀ y ∈ es, ∀ x ∈ u.vm.tbl, x.thr ≠ y.thr := by
      intro y hy x hx
      rw [hvm] at hx
      obtain rfl | hx := (mem_insertEntry s.vm.tbl e x).1 hx
      · exact fun heq => he (heq ▸ List.mem_map_of_mem hy)
      · exact hnewes y hy x hx
    obtain ⟨t, tbl, ht, htvm, hperm, hsorted⟩ := ih u (by rw [hvm]; exact hf)
      (by rw [hvm]; exact insertEntry_sorted s.vm.tbl e hs ((hasThreshold_eq_false_iff _ _).2 hnewe))
      (by rw [hc]; omega) hnewu hdist
    refine ⟨t, tbl, (execAll_cons _ _ s u hu).trans ht, by rw [htvm, hvm], ?_, hsorted⟩
    rw [hvm] at hperm
    calc tbl.Perm (es ++ insertEntry s.vm.tbl e) := hperm
      List.Perm _ (es ++ e :: s.vm.tbl) := (insertEntry_perm s.vm.tbl e).append_left es
      List.Perm _ (e :: es ++ s.vm.tbl) := List.perm_middle

/-- Two sorted tables with the same entries are one table. -/
theorem SortedTable.eq_of_perm {tbl tbl' : List Entry} (hs : SortedTable tbl) (hs' : SortedTable tbl')
    (hp : tbl.Perm tbl') : tbl = tbl' :=
  List.Perm.eq_of_pairwise (fun _ _ _ _ h h' => absurd h' h.asymm) hs hs' hp

/-- Settles O27: both orders lead to the sorted table of the entries, of which there is one. -/
theorem additionOrderDoesNotMatter : Obligations.AdditionOrderDoesNotMatter := by
  intro s es es' hf ht hroom hdist hperm
  have run (l : List Entry) (hl : l.Perm es) :
      ∃ t tbl, execAll (additions l) s = .next t ∧ t.vm = { s.vm with tbl := tbl } ∧ tbl.Perm es ∧
        SortedTable tbl := by
    obtain ⟨t, tbl, hrun, hvm, htbl, hsorted⟩ := execAll_additions l s hf (by simp [ht])
      (by simpa [VM.len, ht, hl.length_eq] using hroom) (by simp [ht]) ((hl.map _).nodup_iff.2 hdist)
    rw [ht, List.append_nil] at htbl
    exact ⟨t, tbl, hrun, hvm, htbl.trans hl, hsorted⟩
  obtain ⟨t, tbl, hrun, hvm, htbl, hsorted⟩ := run es (.refl es)
  obtain ⟨t', tbl', hrun', hvm', htbl', hsorted'⟩ := run es' hperm
  have hsame : tbl' = tbl := hsorted'.eq_of_perm hsorted (htbl'.trans htbl.symm)
  refine ⟨t, t', hrun, hrun', by rw [hvm, hvm', hsame], ?_, ?_, ?_⟩ <;> rw [hvm]
  · exact htbl
  · exact hsorted
  · exact hf

end Sys2Proof.Machine
end

section
/-!
PROOF. The rounding of 43_velocity_map.md R188.  `roundF32` drops the low bits of the quotient beyond 24, so that the
binary32 magnitudes near it are the multiples of one power of two; on those the rounding is that to an integer.
-/

namespace Sys2Proof.Machine

/-- How far `v` is from `n / d`, in units of `1 / d`. -/
def distanceTo (n d v : Nat) : Nat := ((n : Int) - v * d).natAbs

theorem distanceTo_eq (n d v : Nat) : distanceTo n d v = n - v * d + (v * d - n) := by
  have hcast : (v : Int) * d = (v * d : Nat) := (Nat.cast_mul v d).symm
  rw [distanceTo, hcast]
  omega

theorem distanceTo_mul (n d v c : Nat) : distanceTo n d (v * c) = distanceTo n (d * c) v := by
  rw [distanceTo_eq, distanceTo_eq, Nat.mul_assoc, Nat.mul_comm c d]

theorem nearestEven_iff (n d u : Nat) :
    NearestEven n d u ↔ F32Magnitude u ∧ ∀ v, F32Magnitude v →
      distanceTo n d u ≤ distanceTo n d v ∧ (v ≠ u → distanceTo n d u = distanceTo n d v → EvenSignificand u) :=
  Iff.rfl

/-- Among the integers, the rounded quotient is nearest, and even where another one is as near. -/
theorem roundHalfEven_nearest (n d w : Nat) (hd : 0 < d) :
    distanceTo n d (roundHalfEven n d) ≤ distanceTo n d w ∧
    (w ≠ roundHalfEven n d → distanceTo n d (roundHalfEven n d) = distanceTo n d w → roundHalfEven n d % 2 = 0) := by
  have hnear := roundHalfEven_near n d hd
  have heven := roundHalfEven_tie_even n d hd
  generalize roundHalfEven n d = r at hnear heven ⊢
  rw [distanceTo_eq, distanceTo_eq]
  rcases lt_trichotomy w r with hlt | rfl | hgt
  · have hstep : w * d + d ≤ r * d := by
      rw [← Nat.succ_mul]
      exact Nat.mul_le_mul_right d hlt
    exact ⟨by omega, fun _ htie => heven (by omega)⟩
  · exact ⟨le_rfl, fun h => absurd rfl h⟩
  · have hstep : r * d + d ≤ w * d := by
      rw [← Nat.succ_mul]
      exact Nat.mul_le_mul_right d hgt
    exact ⟨by omega, fun _ htie => heven (by omega)⟩

/-- The number of low bits of `n / d` that do not fit 24 significant ones. -/
def droppedBits (n d : Nat) : Nat := bitLength (n / d) - 24

/-- `n / d` in steps of the last bit kept, to the nearest integer. -/
def roundedSignificand (n d : Nat) : Nat := roundHalfEven n (d * 2 ^ droppedBits n d)

/-- The magnitude that `roundF32` answers, were there no upper end. -/
def roundedMagnitude (n d : Nat) : Nat := roundedSignificand n d * 2 ^ droppedBits n d

theorem roundF32_eq (neg : Bool) (n d : Nat) :
    roundF32 neg n d =
      if f32Limit ≤ roundedMagnitude n d then .inf neg else .fin neg (roundedMagnitude n d) := rfl

/-- With the bits dropped the quotient is below `2^24`. -/
theorem lt_of_droppedBits (n d : Nat) (hd : 0 < d) : n < 2 ^ 24 * (d * 2 ^ droppedBits n d) := by
  have hbits : n / d < 2 ^ (24 + droppedBits n d) :=
    lt_of_lt_of_le (lt_two_pow_bitLength (n / d))
      (Nat.pow_le_pow_right (by omega) (by unfold droppedBits; omega))
  rw [Nat.div_lt_iff_lt_mul hd, Nat.pow_add] at hbits
  calc n < 2 ^ 24 * 2 ^ droppedBits n d * d := hbits
    _ = 2 ^ 24 * (d * 2 ^ droppedBits n d) := by ring

/-- Where bits are dropped, the quotient without them has all 24 significant ones. -/
theorem le_of_droppedBits (n d : Nat) (hd : 0 < d) (h : droppedBits n d ≠ 0) :
    2 ^ 23 * (d * 2 ^ droppedBits n d) ≤ n := by
  have hbits : 2 ^ (23 + droppedBits n d) ≤ n / d :=
    two_pow_le_of_lt_bitLength (n / d) _ (by unfold droppedBits at h ⊢; omega)
  rw [Nat.le_div_iff_mul_le hd, Nat.pow_add] at hbits
  calc 2 ^ 23 * (d * 2 ^ droppedBits n d) = 2 ^ 23 * 2 ^ droppedBits n d * d := by ring
    _ ≤ n := hbits

theorem roundedSignificand_le (n d : Nat) (hd : 0 < d) : roundedSignificand n d ≤ 2 ^ 24 := by
  have hD : 0 < d * 2 ^ droppedBits n d := Nat.mul_pos hd (Nat.two_pow_pos _)
  have hlt := lt_of_droppedBits n d hd
  have hnear := (roundHalfEven_near n _ hD).2
  by_contra hgt
  have hstep : (2 ^ 24 + 1) * (d * 2 ^ droppedBits n d) ≤ roundedSignificand n d * (d * 2 ^ droppedBits n d) :=
    Nat.mul_le_mul_right _ (by omega)
  unfold roundedSignificand at hstep
  omega

theorem le_roundedSignificand (n d : Nat) (hd : 0 < d) (h : droppedBits n d ≠ 0) :
    2 ^ 23 ≤ roundedSignificand n d := by
  have hD : 0 < d * 2 ^ droppedBits n d := Nat.mul_pos hd (Nat.two_pow_pos _)
  have hle := le_of_droppedBits n d hd h
  have hnear := (roundHalfEven_near n _ hD).1
  by_contra hlt
  have hstep : (roundedSignificand n d + 1) * (d * 2 ^ droppedBits n d) ≤ 2 ^ 23 * (d * 2 ^ droppedBits n d) :=
    Nat.mul_le_mul_right _ (by omega)
  rw [Nat.succ_mul] at hstep
  unfold roundedSignificand at hstep
  omega

theorem f32Magnitude_mul_pow (w q : Nat) (h : w ≤ 2 ^ 24) : F32Magnitude (w * 2 ^ q) := by
  rcases h.lt_or_eq with hlt | rfl
  · exact ⟨w, q, rfl, hlt⟩
  · exact ⟨2 ^ 23, q + 1, by rw [← Nat.pow_add, ← Nat.pow_add]; congr 1; omega, by omega⟩

theorem evenSignificand_mul_pow (w q : Nat) (h : w ≤ 2 ^ 24) (heven : w % 2 = 0) (hq : q ≠ 0 → 2 ^ 23 ≤ w) :
    EvenSignificand (w * 2 ^ q) := by
  rcases h.lt_or_eq with hlt | rfl
  · exact ⟨w, q, rfl, hlt, heven, by tauto⟩
  · exact ⟨2 ^ 23, q + 1, by rw [← Nat.pow_add, ← Nat.pow_add]; congr 1; omega, by omega, by omega, .inr le_rfl⟩

/-- From `2^23 * 2^q` on the magnitudes are multiples of `2^q`. -/
theorem F32Magnitude.multiple_or_lt {v : Nat} (h : F32Magnitude v) (q : Nat) :
    (∃ w, v = w * 2 ^ q) ∨ (q ≠ 0 ∧ v < 2 ^ 23 * 2 ^ q) := by
  obtain ⟨m, k, rfl, hm⟩ := h
  by_cases hk : q ≤ k
  · refine .inl ⟨m * 2 ^ (k - q), ?_⟩
    rw [Nat.mul_assoc, ← Nat.pow_add, Nat.sub_add_cancel hk]
  · refine .inr ⟨by omega, ?_⟩
    calc m * 2 ^ k < 2 ^ 24 * 2 ^ k := Nat.mul_lt_mul_of_pos_right hm (Nat.two_pow_pos k)
      _ = 2 ^ 23 * 2 ^ (k + 1) := by rw [Nat.pow_succ]; omega
      _ ≤ 2 ^ 23 * 2 ^ q := Nat.mul_le_mul_left _ (Nat.pow_le_pow_right (by omega) (by omega))

/-- Below `n / d`, the larger of two is the nearer one. -/
theorem distanceTo_lt_of_lt (n d v v' : Nat) (hd : 0 < d) (hlt : v < v') (hle : v' * d ≤ n) :
    distanceTo n d v' < distanceTo n d v := by
  have := Nat.mul_lt_mul_of_pos_right hlt hd
  rw [distanceTo_eq, distanceTo_eq]
  omega

/-- The magnitude that `roundF32` computes is nearest, ties to even: against a multiple of the last bit kept as an
integer rounding, and a magnitude between such multiples lies below them all. -/
theorem nearestEven_roundedMagnitude (n d : Nat) (hd : 0 < d) : NearestEven n d (roundedMagnitude n d) := by
  have hle := roundedSignificand_le n d hd
  have hfull := le_roundedSignificand n d hd
  have hnearest (w : Nat) := roundHalfEven_nearest n _ w (Nat.mul_pos hd (Nat.two_pow_pos (droppedBits n d)))
  simp only [← distanceTo_mul] at hnearest
  refine (nearestEven_iff n d _).2 ⟨f32Magnitude_mul_pow _ _ hle, fun v hv => ?_⟩
  obtain ⟨w, rfl⟩ | ⟨hq, hlt⟩ := hv.multiple_or_lt (droppedBits n d)
  · refine ⟨(hnearest w).1, fun hne htie => ?_⟩
    exact evenSignificand_mul_pow _ _ hle ((hnearest w).2 (fun h => hne (h ▸ rfl)) htie) hfull
  · have hbelow : 2 ^ 23 * 2 ^ droppedBits n d * d ≤ n := by
      rw [Nat.mul_assoc, Nat.mul_comm (2 ^ droppedBits n d) d]
      exact le_of_droppedBits n d hd hq
    have hfar : distanceTo n d (roundedMagnitude n d) < distanceTo n d v :=
      lt_of_le_of_lt (hnearest _).1 (distanceTo_lt_of_lt n d v _ hd hlt hbelow)
    exact ⟨hfar.le, fun _ htie => absurd htie hfar.ne⟩

theorem roundsTo_roundF32 (neg : Bool) (n d : Nat) (hd : 0 < d) : RoundsTo neg n d (roundF32 neg n d) :=
  ⟨roundedMagnitude n d, nearestEven_roundedMagnitude n d hd, roundF32_eq neg n d⟩

theorem F32Magnitude.le_of_lt {u j : Nat} (h : F32Magnitude u) (hlt : u < 2 ^ 24 * 2 ^ j) :
    u ≤ (2 ^ 24 - 1) * 2 ^ j := by
  obtain ⟨w, rfl⟩ | ⟨-, hlt⟩ := h.multiple_or_lt j
  · have := Nat.lt_of_mul_lt_mul_right hlt
    exact Nat.mul_le_mul_right _ (by omega)
  · omega

/-- The last magnitude below a power of two has an odd significand. -/
theorem not_evenSignificand_pred (j : Nat) : ¬ EvenSignificand ((2 ^ 24 - 1) * 2 ^ j) := by
  rintro ⟨m, k, h, hm, heven, hk⟩
  rcases lt_trichotomy k j with hlt | rfl | hgt
  · have hpow : 2 ^ k * 2 ≤ 2 ^ j := by
      rw [← Nat.pow_succ]
      exact Nat.pow_le_pow_right (by omega) hlt
    have := Nat.mul_lt_mul_of_pos_right hm (Nat.two_pow_pos k)
    omega
  · have := Nat.eq_of_mul_eq_mul_right (Nat.two_pow_pos k) h
    omega
  · have hpow : 2 ^ j * 2 ≤ 2 ^ k := by
      rw [← Nat.pow_succ]
      exact Nat.pow_le_pow_right (by omega) hgt
    have hbig : 2 ^ 23 * 2 ^ k ≤ m * 2 ^ k := Nat.mul_le_mul_right _ (hk.resolve_left (by omega))
    have := Nat.two_pow_pos j
    omega

/-- The nearest magnitude reaches a power of two exactly from half a step below it on: there the power has the even
significand. -/
theorem NearestEven.two_pow_le_iff {n d u : Nat} (h : NearestEven n d u) (hd : 0 < d) (j : Nat) :
    2 ^ 24 * 2 ^ j ≤ u ↔ (2 ^ 25 - 1) * 2 ^ j * d ≤ 2 * n := by
  obtain ⟨hu, hnear⟩ := (nearestEven_iff n d u).1 h
  have hstep : 0 < 2 ^ j * d := Nat.mul_pos (Nat.two_pow_pos j) hd
  obtain ⟨hpow, htie⟩ := hnear (2 ^ 24 * 2 ^ j) (f32Magnitude_mul_pow _ _ le_rfl)
  obtain ⟨hpred, -⟩ := hnear ((2 ^ 24 - 1) * 2 ^ j) (f32Magnitude_mul_pow _ _ (by omega))
  rw [distanceTo_eq, distanceTo_eq, Nat.mul_assoc] at hpow htie hpred
  rw [Nat.mul_assoc]
  constructor
  · intro hle
    have hmul := Nat.mul_le_mul_right d hle
    rw [Nat.mul_assoc] at hmul
    omega
  · intro hle
    by_contra hlt
    have hmax := hu.le_of_lt (not_le.1 hlt)
    have hmul := Nat.mul_le_mul_right d hmax
    rw [Nat.mul_assoc] at hmul
    have hmeet : u * d = (2 ^ 24 - 1) * 2 ^ j * d := by
      rw [Nat.mul_assoc]
      omega
    have hodd : u = (2 ^ 24 - 1) * 2 ^ j := Nat.eq_of_mul_eq_mul_right hd hmeet
    rw [Nat.mul_assoc] at hmeet
    exact not_evenSignificand_pred j (hodd ▸ htie (by omega) (by omega))

/-- `2^128` in units, as the first magnitude with its exponent. -/
theorem f32Limit_eq : f32Limit = 2 ^ 24 * 2 ^ 253 := rfl

/-- Settles O38: `roundF32` answers the magnitude of `nearestEven_roundedMagnitude`, an infinity from `2^128` on. -/
theorem roundingGoesToNearest : Obligations.RoundingGoesToNearest := by
  intro neg n d hd
  refine ⟨roundsTo_roundF32 neg n d hd, fun neg' => ?_⟩
  have hhalf : (2 ^ 128 - 2 ^ 103) * 2 ^ 149 * d ≤ n ↔ (2 ^ 25 - 1) * 2 ^ 253 * d ≤ 2 * n := by
    have : (2 ^ 25 - 1) * 2 ^ 253 = 2 * ((2 ^ 128 - 2 ^ 103) * 2 ^ 149) := rfl
    rw [this, Nat.mul_assoc]
    omega
  rw [hhalf, ← (nearestEven_roundedMagnitude n d hd).two_pow_le_iff hd, ← f32Limit_eq, roundF32_eq]
  split_ifs with h <;> simp [h, eq_comm]

end Sys2Proof.Machine
end

section
/-!
PROOF. `ScaleApply` (43_velocity_map.md R187 to R190): the default's three steps one by one, then what they give on
finite scales, on scales that are not finite, and where the product is exact.
-/

namespace Sys2Proof.Machine

theorem unitsPerOne_eq : unitsPerOne = 2 ^ 149 := rfl

@[simp] theorem signed_false (m : Nat) : signed false m = m := rfl

@[simp] theorem signed_true (m : Nat) : signed true m = -m := rfl

theorem natAbs_toInt_le (t : Tick) : t.toInt.natAbs ≤ 2 ^ 31 := by
  have hlo := BitVec.le_toInt t
  have hhi := BitVec.toInt_lt (x := t)
  omega

/-- The rounded tick count (43_velocity_map.md R188, step 1). -/
def roundedTick (t : Tick) : Nat := roundedMagnitude (unitsPerOne * t.toInt.natAbs) 1

theorem nearestEven_roundedTick (t : Tick) : NearestEven (unitsPerOne * t.toInt.natAbs) 1 (roundedTick t) :=
  nearestEven_roundedMagnitude _ 1 Nat.one_pos

/-- A tick count is far below the infinities, so its rounding is finite. -/
theorem f32OfTick_eq (t : Tick) : f32OfTick t = .fin t.msb (roundedTick t) := by
  have hsmall := natAbs_toInt_le t
  have hfinite : ¬ f32Limit ≤ roundedTick t := by
    rw [f32Limit_eq, (nearestEven_roundedTick t).two_pow_le_iff Nat.one_pos, unitsPerOne_eq]
    omega
  rw [f32OfTick, roundF32_eq]
  exact if_neg hfinite

/-- No tick count but 0 is rounded to 0: the magnitude of 1 would be nearer. -/
theorem roundedTick_eq_zero_iff (t : Tick) : roundedTick t = 0 ↔ t = 0#32 := by
  constructor
  · intro h
    obtain ⟨-, hnear⟩ := (nearestEven_iff _ _ _).1 (nearestEven_roundedTick t)
    obtain ⟨hone, -⟩ := hnear (1 * 2 ^ 149) (f32Magnitude_mul_pow 1 149 (by omega))
    rw [distanceTo_eq, distanceTo_eq, h, unitsPerOne_eq] at hone
    have hzero : t.toInt = 0 := by omega
    exact BitVec.eq_of_toInt_eq hzero
  · rintro rfl
    rfl

/-- The default on a finite scale (43_velocity_map.md R188). -/
theorem standardScale_of_fin (t : Tick) (s : ScaleBits) (neg : Bool) (u : Nat) (hs : f32OfBits s = .fin neg u) :
    standardScale t s = f32ToTick (roundF32 (t.msb ^^ neg) (roundedTick t * u) unitsPerOne) := by
  rw [standardScale, f32OfTick_eq, hs, f32Mul_fin]

/-- The default on an infinite scale (43_velocity_map.md R188). -/
theorem standardScale_of_inf (t : Tick) (s : ScaleBits) (neg : Bool) (hs : f32OfBits s = .inf neg) :
    standardScale t s = if t = 0#32 then 0#32 else f32ToTick (.inf (t.msb ^^ neg)) := by
  rw [standardScale, f32OfTick_eq, hs, f32Mul_fin_inf]
  simp only [roundedTick_eq_zero_iff]
  split <;> rfl

theorem f32ToTick_inf (neg : Bool) : f32ToTick (.inf neg) = if neg then -2147483648#32 else 2147483647#32 := by
  cases neg <;> rfl

/-- Settles O37: the product with a scale that is not finite is never finite. -/
theorem defaultScaleNonFinite : Obligations.DefaultScaleNonFinite := by
  refine fun t s => ⟨fun hs => ?_, fun neg hs => ?_⟩
  · rw [standardScale, f32OfTick_eq, hs, f32Mul_fin_nan]
    rfl
  · rw [standardScale_of_inf t s neg hs, f32ToTick_inf, ← BitVec.msb_eq_toInt]
    cases t.msb <;> cases neg <;> rfl

/-- Settles O36, by evaluating the default on each row. -/
theorem defaultScaleCorners : Obligations.DefaultScaleCorners := by
  unfold Obligations.DefaultScaleCorners
  decide +kernel

/-- The value of a finite pattern (30_encoding.md R98). -/
theorem f32OfBits_of_finite (s : ScaleBits) (h : s.extractLsb' 23 8 ≠ 0xFF#8) :
    f32OfBits s = .fin (s.getLsbD 31) (patternMagnitude s) := by
  have hfinite : (s.extractLsb' 23 8).toNat ≠ 255 := fun he => h (BitVec.eq_of_toNat_eq he)
  have hzero : s.extractLsb' 23 8 = 0#8 ↔ (s.extractLsb' 23 8).toNat = 0 := BitVec.toNat_eq
  simp only [f32OfBits, patternMagnitude, if_neg hfinite, hzero]
  split <;> rfl

/-- An integer at the nearest point of the `i32` range. -/
def clampToTick (x : Int) : Tick := BitVec.ofInt 32 (max (-2 ^ 31) (min (2 ^ 31 - 1) x))

theorem f32ToTick_fin (neg : Bool) (u : Nat) :
    f32ToTick (.fin neg u) = clampToTick (signed neg (u / 2 ^ 149)) := rfl

theorem clampToTick_of_ge (x : Int) (h : 2 ^ 31 ≤ x) : clampToTick x = 2147483647#32 := by
  rw [clampToTick, show max (-2 ^ 31) (min (2 ^ 31 - 1) x) = 2 ^ 31 - 1 by omega]
  rfl

theorem clampToTick_of_le (x : Int) (h : x ≤ -2 ^ 31) : clampToTick x = -2147483648#32 := by
  rw [clampToTick, show max (-2 ^ 31) (min (2 ^ 31 - 1) x) = -2 ^ 31 by omega]
  rfl

theorem clampToTick_of_mem (x : Int) (hlo : -2 ^ 31 ≤ x) (hhi : x ≤ 2 ^ 31 - 1) :
    clampToTick x = BitVec.ofInt 32 x := by
  rw [clampToTick, min_eq_right hhi, max_eq_right hlo]

theorem toInt_clampToTick_of_mem (x : Int) (hlo : -2 ^ 31 ≤ x) (hhi : x ≤ 2 ^ 31 - 1) :
    (clampToTick x).toInt = x := by
  rw [clampToTick_of_mem x hlo hhi]
  exact BitVec.toInt_ofInt_eq_self (by omega) (by omega) (by omega)

/-- The last step is the saturating truncation of 43_velocity_map.md R189. -/
theorem truncatesTo_f32ToTick (p : F32) : TruncatesTo p (f32ToTick p) := by
  cases p with
  | nan => rfl
  | inf neg => exact f32ToTick_inf neg
  | fin neg v =>
    rw [TruncatesTo, f32ToTick_fin]
    constructor
    · intro h
      have hq : 2 ^ 31 ≤ v / 2 ^ 149 := (Nat.le_div_iff_mul_le (Nat.two_pow_pos 149)).2 h
      cases neg with
      | false => exact clampToTick_of_ge _ (by rw [signed_false]; omega)
      | true => exact clampToTick_of_le _ (by rw [signed_true]; omega)
    · intro h
      have hq : v / 2 ^ 149 < 2 ^ 31 := (Nat.div_lt_iff_lt_mul (Nat.two_pow_pos 149)).2 h
      cases neg with
      | false => exact toInt_clampToTick_of_mem _ (by rw [signed_false]; omega) (by rw [signed_false]; omega)
      | true => exact toInt_clampToTick_of_mem _ (by rw [signed_true]; omega) (by rw [signed_true]; omega)

/-- Settles O58: the two roundings are those of O38, the first of them finite, and the truncation is the last step. -/
theorem defaultScaleRoundsThenTruncates : Obligations.DefaultScaleRoundsThenTruncates := by
  intro t s hs
  have hvalue := f32OfBits_of_finite s hs
  refine ⟨hvalue, roundedTick t, roundF32 (t.msb ^^ s.getLsbD 31) (roundedTick t * patternMagnitude s) (2 ^ 149),
    ?_, ?_, ?_⟩
  · rw [← BitVec.msb_eq_toInt, ← f32OfTick_eq, f32OfTick, unitsPerOne_eq, Nat.mul_comm]
    exact roundsTo_roundF32 _ _ 1 Nat.one_pos
  · rw [← BitVec.msb_eq_toInt]
    exact roundsTo_roundF32 _ _ _ (Nat.two_pow_pos 149)
  · rw [standardScale_of_fin t s _ _ hvalue]
    exact truncatesTo_f32ToTick _

theorem signed_mul (p q : Bool) (m n : Nat) : signed p m * signed q n = signed (p ^^ q) (m * n) := by
  cases p <;> cases q <;> simp

theorem signed_tdiv (p : Bool) (m d : Nat) : (signed p m).tdiv d = signed p (m / d) := by
  cases p
  · exact (Int.ofNat_tdiv m d).symm
  · rw [signed_true, Int.neg_tdiv, ← Int.ofNat_tdiv, signed_true]

theorem toInt_eq_signed (t : Tick) : t.toInt = signed t.msb t.toInt.natAbs := by
  rw [BitVec.msb_eq_toInt]
  by_cases h : t.toInt < 0
  · rw [decide_eq_true h, signed_true]
    omega
  · rw [decide_eq_false h, signed_false]
    omega

/-- The product of a tick count and a finite scale, truncated toward zero, by sign and magnitude. -/
def truncatedProduct (t : Tick) (neg : Bool) (u : Nat) : Int := signed (t.msb ^^ neg) (t.toInt.natAbs * u / 2 ^ 149)

/-- The same product as P2 of 43_velocity_map.md R187 writes it. -/
theorem truncatedProduct_eq (t : Tick) (neg : Bool) (u : Nat) :
    (t.toInt * (if neg then -(u : Int) else u)).tdiv (2 ^ 149) =
      truncatedProduct t neg u := by
  calc (t.toInt * (if neg then -(u : Int) else u)).tdiv (2 ^ 149)
      = (signed t.msb t.toInt.natAbs * signed neg u).tdiv ((2 ^ 149 : Nat) : Int) := by
        rw [← toInt_eq_signed]
        rfl
    _ = truncatedProduct t neg u := by rw [signed_mul, signed_tdiv, truncatedProduct]

/-- Every `ScaleApply` of the model meets P2 of 43_velocity_map.md R187. -/
theorem scaleApply_of_representable (r : ScaleRule) (t : Tick) (s : ScaleBits) (neg : Bool) (u : Nat)
    (hs : f32OfBits s = .fin neg u) (ht : t.toInt.natAbs ≤ 2 ^ 24)
    (hexact : representable (t.toInt.natAbs * u) = true)
    (hlo : -2 ^ 31 ≤ truncatedProduct t neg u) (hhi : truncatedProduct t neg u ≤ 2 ^ 31 - 1) :
    scaleApply r t s = BitVec.ofInt 32 (truncatedProduct t neg u) := by
  cases r with
  | standard =>
    calc standardScale t s
        = f32ToTick (roundF32 (t.msb ^^ neg) (t.toInt.natAbs * u * unitsPerOne) unitsPerOne) :=
          standardScale_small t s neg u ht hs
      _ = f32ToTick (.fin (t.msb ^^ neg) (t.toInt.natAbs * u)) := by
          rw [roundF32_exact _ _ unitsPerOne (Nat.two_pow_pos 149) hexact]
      _ = BitVec.ofInt 32 (truncatedProduct t neg u) := clampToTick_of_mem _ hlo hhi
  | implementation k =>
    have hfixed : fixedByP2 t s = some (BitVec.ofInt 32 (truncatedProduct t neg u)) := by
      simp only [fixedByP2, hs]
      exact if_pos ⟨ht, hexact, hlo, hhi⟩
    obtain ⟨v, hv, e⟩ | ⟨hnone, -⟩ := scaleApply_implementation k t s
    · rw [e]
      exact Option.some.inj (hv.symm.trans hfixed)
    · cases hnone.symm.trans hfixed

/-- A finite scale is exactly representable, and so is its product with -1, 0 or +1. -/
theorem representable_unit_product (t : Tick) (s : ScaleBits) (neg : Bool) (u : Nat)
    (hs : f32OfBits s = .fin neg u) (ht : t.toInt.natAbs ≤ 1) : representable (t.toInt.natAbs * u) = true := by
  obtain ⟨m, k, rfl, hm, hk⟩ := f32OfBits_fin s neg u hs
  have hprod : t.toInt.natAbs * m < 2 ^ 24 := lt_of_le_of_lt ((Nat.mul_le_mul_right m ht).trans_eq (Nat.one_mul m)) hm
  rw [← Nat.mul_assoc]
  refine representable_mul_pow _ k hprod ?_
  calc t.toInt.natAbs * m * 2 ^ k < 2 ^ 24 * 2 ^ k := Nat.mul_lt_mul_of_pos_right hprod (Nat.two_pow_pos k)
    _ ≤ 2 ^ 24 * 2 ^ 253 := Nat.mul_le_mul_left _ (Nat.pow_le_pow_right (by omega) hk)

/-- Settles O35: an exact product is representable, so P2 fixes the answer. -/
theorem everyScaleApplyTruncatesExactProduct : Obligations.EveryScaleApplyTruncatesExactProduct := by
  intro r t s neg u hs hlo hhi
  rw [truncatedProduct_eq] at hlo hhi ⊢
  refine ⟨fun m k ht hprod hm hb => ?_, fun ht => ?_⟩
  · refine scaleApply_of_representable r t s neg u hs ht ?_ hlo hhi
    rw [hprod] at hb ⊢
    exact representable_mul_pow m k hm hb
  · have hone : t.toInt.natAbs ≤ 1 := by
      obtain rfl | rfl | rfl := ht <;> decide
    exact scaleApply_of_representable r t s neg u hs (by omega) (representable_unit_product t s neg u hs hone) hlo hhi

end Sys2Proof.Machine
end

section
/-!
PROOF. Exceptions (60_exceptions.md R205, R212, R214).  An `INIT` ends as reset does; every other operation is refused
on a faulted unit, and in service it either answers a result or takes one fault.
-/

namespace Sys2Proof.Machine

/-- Settles O54: the answer of `exec_of_faulted` changes no register. -/
theorem faultedUnitRefusesAllButInit : Obligations.FaultedUnitRefusesAllButInit :=
  fun i s hi hf => answersOnly_of_respond (exec_of_faulted i s hi hf)

/-- An `INIT` constructs its unit afresh, in service or out, with a legal size or not (60_exceptions.md R214). -/
theorem exec_init_resets_unit (i : Instr) (s t : State) (hi : isInit i = true) (h : exec i s = .next t) :
    SameUnit (unitOf i) (State.resetOf s.cfg) t := by
  cases i with
  | dfInit | btnInit | qdInit =>
    cases h
    rw [construct_eq]
    rfl
  | vmInit =>
    cases h
    rfl
  | _ => cases hi

/-- The size of the unit's filters, where it has filters, is in 2 to 8 (00_scope.md R11). -/
def UnitSizeLegal (c : Cfg) (u : UnitId) : Prop :=
  (u = .df → 2 ≤ c.dfN ∧ c.dfN ≤ 8) ∧ (u = .btn → 2 ≤ c.btnN ∧ c.btnN ≤ 8) ∧ (u = .qd → 2 ≤ c.qdN ∧ c.qdN ≤ 8)

theorem constructionFault_of_legal (n : Nat) (h : 2 ≤ n ∧ n ≤ 8) : constructionFault n = 0#4 :=
  (constructionFault_eq_zero_iff n).2 ((sizeLegal_iff n).2 h)

/-- A unit of a legal size is in service after reset (60_exceptions.md R201). -/
theorem unitFault_resetOf_of_legal (c : Cfg) (u : UnitId) (h : UnitSizeLegal c u) :
    unitFault u (State.resetOf c) = 0#4 := by
  obtain ⟨hdf, hbtn, hqd⟩ := h
  cases u with
  | df => exact constructionFault_of_legal c.dfN (hdf rfl)
  | btn => exact constructionFault_of_legal c.btnN (hbtn rfl)
  | qd => exact constructionFault_of_legal c.qdN (hqd rfl)
  | vm => rfl

/-- A recorded fault stays over an operation of another unit and over one that its own unit refuses. -/
theorem exec_keeps_recorded_fault (i : Instr) (u : UnitId) (s t : State) (h : exec i s = .next t)
    (hf : unitFault u s ≠ 0#4) (hi : ¬ (isInit i = true ∧ unitOf i = u)) : unitFault u t = unitFault u s := by
  by_cases hu : unitOf i = u
  · subst hu
    have hinit : isInit i = false := Bool.eq_false_iff.2 fun hinit => hi ⟨hinit, rfl⟩
    cases (exec_of_faulted i s hinit hf).symm.trans h
    exact unitFault_congr _ s _ ((sameRegisters_iff _ _).1 (respond_sameRegisters _ _ s) _)
  · exact unitFault_congr u s t (exec_keeps_other_unit i u s t h hu)

/-- Settles O56: a fault that is gone was not kept by `exec_keeps_recorded_fault`, and an `INIT` resets its unit. -/
theorem recordedFaultLeftOnlyByInit : Obligations.RecordedFaultLeftOnlyByInit := by
  intro i u s t h
  constructor
  · intro hf hchanged
    by_contra hi
    exact hchanged (exec_keeps_recorded_fault i u s t h hf hi)
  · rintro hi rfl
    have hreset := exec_init_resets_unit i s t hi h
    exact ⟨hreset, fun hlegal => (unitFault_congr _ _ t hreset).trans (unitFault_resetOf_of_legal s.cfg _ hlegal)⟩

theorem isSticky_iff (c : FaultCode) :
    isSticky c = true ↔ c = .configFilterSize ∨ c = .configMapCapacity ∨ c = .configDuplicateThreshold := by
  cases c <;> decide

/-- The state whose registers a fault of the unit `u` leaves (60_exceptions.md R212): a sticky code is recorded. -/
def recordFault (u : UnitId) (c : FaultCode) (s : State) : State :=
  if isSticky c then setFault u (faultBits c) s else s

/-- If the end `t` of an operation on the unit `u` answers a fault, that fault's record is all that has changed since
`s`. -/
def FaultsPrecisely (u : UnitId) (s t : State) : Prop :=
  ∀ c, t.rsp = some (.fault c) → SameRegisters (recordFault u c s) t

theorem respond_ok_faultsPrecisely (u : UnitId) (p : Option UnitId) (v : Value) (s k : State) :
    FaultsPrecisely u s (respond p (.ok v) k) := by
  intro c hc
  rw [respond_rsp] at hc
  cases hc

theorem respond_fault_faultsPrecisely (u : UnitId) (p : Option UnitId) (c : FaultCode) (s : State) :
    FaultsPrecisely u s (respond p (.fault c) (recordFault u c s)) := by
  intro c' hc
  rw [respond_rsp] at hc
  cases hc
  exact respond_sameRegisters p _ _

theorem raise_faultsPrecisely (u : UnitId) (c : FaultCode) (s : State) :
    FaultsPrecisely u s (raise (some u) c s) :=
  respond_fault_faultsPrecisely u (some u) c s

theorem inService_faultsPrecisely (u : UnitId) (p : Option UnitId) (s k : State) (hk : FaultsPrecisely u s k) :
    FaultsPrecisely u s (inService u p s k) := by
  obtain ⟨-, e⟩ | ⟨-, e⟩ := inService_cases u p s k
  · rwa [e]
  · rw [e]
    exact respond_fault_faultsPrecisely u p .unitFaulted s

theorem exec_faultsPrecisely (i : Instr) (s t : State) (hi : isInit i = false) (h : exec i s = .next t) :
    FaultsPrecisely (unitOf i) s t := by
  cases i with
  | dfInit | btnInit | qdInit | vmInit => cases hi
  | dfPoll | btnIsp | btnIsr | qdTicks | qdRstt =>
    cases h
    exact inService_faultsPrecisely _ _ s _ (respond_ok_faultsPrecisely _ _ _ s _)
  | btnPoll | qdPoll =>
    cases h
    refine inService_faultsPrecisely _ _ s _ ?_
    split
    · exact raise_faultsPrecisely _ .pinError s
    · exact respond_ok_faultsPrecisely _ _ _ s _
  | vmAdd =>
    cases h
    refine inService_faultsPrecisely .vm _ s _ ?_
    split_ifs
    · exact raise_faultsPrecisely .vm .configMapCapacity s
    · exact raise_faultsPrecisely .vm .configDuplicateThreshold s
    · exact respond_ok_faultsPrecisely .vm _ _ s _
  | vmMap =>
    cases h
    refine inService_faultsPrecisely .vm _ s _ ?_
    split <;> exact respond_ok_faultsPrecisely .vm _ _ s _

/-- Settles O55: `exec_faultsPrecisely` for the two kinds of code, and an `INIT` resets its unit and no other. -/
theorem faultsArePrecise : Obligations.FaultsArePrecise := by
  intro i s t c h hc
  rw [← isSticky_iff]
  refine ⟨fun hi => ?_, fun hi => ?_⟩
  · have hsame : SameRegisters (recordFault (unitOf i) c s) t := exec_faultsPrecisely i s t hi h c hc
    unfold recordFault at hsame
    refine ⟨fun hsticky => ?_, fun hsticky => ?_⟩
    · rwa [if_pos hsticky] at hsame
    · rwa [if_neg hsticky] at hsame
  · exact ⟨exec_init_resets_unit i s t hi h, fun u hu => exec_keeps_other_unit i u s t h hu.symm⟩

end Sys2Proof.Machine
end

section
/-!
PROOF. Every operation completes, and so does every run of operations and every step on an input that a caller can
present (70_reset_and_hazards.md R252).
-/

namespace Sys2Proof.Machine

/-- A run of operations stops nowhere, and each operation gives one response. -/
theorem execAll_completes (is : List Instr) (s : State) :
    ∃ t, execAll is s = .next t ∧ (responses is s).length = is.length := by
  induction is generalizing s with
  | nil => exact ⟨s, rfl, rfl⟩
  | cons i is ih =>
    obtain ⟨u, hu, -⟩ := exec_next_keeps i s
    obtain ⟨t, ht, hlen⟩ := ih u
    refine ⟨t, (execAll_cons i is s u hu).trans ht, ?_⟩
    rw [responses_cons i is s u hu, List.length_cons, List.length_cons, hlen]

theorem step_of_reset (s : State) (rest : List Input) (hi : s.inp = .reset :: rest) :
    step s = .next { State.resetOf s.cfg with inp := rest } := by
  simp only [step, takeInput, hi, applyReset]

/-- A step on a command word completes, whether the word is legal or not (30_encoding.md R102, R103). -/
theorem step_of_command_completes (s : State) (w : Nat) (rest : List Input) (hi : s.inp = .command w :: rest)
    (hw : w < 2 ^ (64 + s.cfg.tw)) : ∃ t, step s = .next t := by
  cases hd : decode s.cfg.tw (BitVec.ofNat (64 + s.cfg.tw) w) with
  | error e => exact ⟨_, step_of_decode_error s w rest e hi hw hd⟩
  | ok i =>
    obtain ⟨t, ht, -⟩ := exec_next_keeps i { s with inp := rest }
    exact ⟨t, (step_of_decode_ok s w rest i hi hw hd).trans ht⟩

/-- Settles O47: one operation, a run by induction, and a step by the head of the stream. -/
theorem everyOperationCompletes : Obligations.EveryOperationCompletes := by
  refine ⟨fun i s => ?_, execAll_completes, fun s hpresentable => ?_⟩
  · obtain ⟨t, ht, -⟩ := exec_next_keeps i s
    exact ⟨t, ht⟩
  · cases hi : s.inp with
    | nil => exact ⟨s, step_of_nil s hi⟩
    | cons x rest =>
      cases x with
      | reset => exact ⟨_, step_of_reset s rest hi⟩
      | idle => exact ⟨_, step_of_idle s rest hi⟩
      | command w =>
        have hx : (Input.command w).wellFormed s.cfg.tw = true := hpresentable _ (by rw [hi, List.head?_cons])
        exact step_of_command_completes s w rest hi (of_decide_eq_true hx)

end Sys2Proof.Machine
end

section
/-!
PROOF. Reset (70_reset_and_hazards.md R230 to R232): what it leaves in every register, and that the four `INIT`
operations leave the same, since each constructs its unit and touches no other.
-/

namespace Sys2Proof.Machine

/-- Settles O3: the step's branch for a reset input. -/
theorem resetInputRestoresResetState : Obligations.ResetInputRestoresResetState := step_of_reset

/-- Reset leaves a unit of an illegal size with the fault code 1 (70_reset_and_hazards.md R232). -/
theorem constructionFault_eq (n : Nat) : constructionFault n = if 2 ≤ n ∧ n ≤ 8 then 0#4 else 1#4 := by
  by_cases h : 2 ≤ n ∧ n ≤ 8
  · rw [if_pos h, constructionFault_of_legal n h]
  · rw [if_neg h, constructionFault, if_neg (mt (sizeLegal_iff n).1 h), faultBits]

theorem resetOf_filters_fresh (c : Cfg) (f : Filter)
    (hf : f ∈ [(State.resetOf c).df.f, (State.resetOf c).btn.f, (State.resetOf c).qd.fa, (State.resetOf c).qd.fb]) :
    f = freshFilter := by
  simpa [State.resetOf] using hf

/-- Settles O1: fresh filters, the `fault` registers of construction, and the step's branch for a reset input. -/
theorem resetLeavesSpecValues : Obligations.ResetLeavesSpecValues := by
  refine ⟨fun c => ⟨fun f hf => ?_, rfl, rfl, rfl, rfl, constructionFault_eq c.dfN, constructionFault_eq c.btnN,
    constructionFault_eq c.qdN, rfl⟩, fun s rest hi => ⟨_, step_of_reset s rest hi, rfl, rfl, rfl, rfl⟩⟩
  rw [resetOf_filters_fresh c f hf]
  exact ⟨rfl, rfl, rfl⟩

/-- After an `INIT`, its own unit is as reset leaves it, and so is every unit that was so before. -/
theorem exec_init_resetOf (i : Instr) (u : UnitId) (s t : State) (hi : isInit i = true) (h : exec i s = .next t)
    (hu : u = unitOf i ∨ SameUnit u (State.resetOf s.cfg) s) : SameUnit u (State.resetOf s.cfg) t := by
  by_cases hself : u = unitOf i
  · rw [hself]
    exact exec_init_resets_unit i s t hi h
  · exact sameUnit_trans u _ s t (hu.resolve_left hself) (exec_keeps_other_unit i u s t h (Ne.symm hself))

/-- After a run of `INIT` operations, every unit they name is as reset leaves it, and so is every unit that was so
before. -/
theorem execAll_inits_resetOf (is : List Instr) (s : State) (hinit : ∀ i ∈ is, isInit i = true) :
    ∃ t, execAll is s = .next t ∧
      ∀ u, u ∈ is.map unitOf ∨ SameUnit u (State.resetOf s.cfg) s → SameUnit u (State.resetOf s.cfg) t := by
  induction is generalizing s with
  | nil => exact ⟨s, rfl, fun u hu => hu.resolve_left List.not_mem_nil⟩
  | cons i is ih =>
    obtain ⟨hi, hrest⟩ := List.forall_mem_cons.1 hinit
    obtain ⟨r, hr, hcfg, -⟩ := exec_next_keeps i s
    obtain ⟨t, ht, hreset⟩ := ih r hrest
    rw [hcfg] at hreset
    refine ⟨t, (execAll_cons i is s r hr).trans ht, fun u hu => hreset u ?_⟩
    rw [List.map_cons, List.mem_cons, or_assoc, or_left_comm] at hu
    exact hu.imp_right (exec_init_resetOf i u s r hi hr)

/-- Settles O2: the four operations of the expansion are `INIT`s and name every unit. -/
theorem resetEqualsFourInits : Obligations.ResetEqualsFourInits := by
  refine ⟨rfl, fun s => ?_⟩
  obtain ⟨t, ht, hreset⟩ := execAll_inits_resetOf expandReset s (by decide)
  have hnamed (u : UnitId) : u ∈ expandReset.map unitOf := by cases u <;> decide
  exact ⟨t, ht, (sameRegisters_iff _ _).2 fun u => hreset u (.inl (hnamed u))⟩

end Sys2Proof.Machine
end
